-- ==== Sys2Proof/Word.lean ====
section
/-!
DEFINITION. The word of the command port and the binary64 bit pattern (spec/00_scope.md rule R7, section 6).
-/

namespace Sys2Proof

/-- A word of a command or response frame: 64 bits, bit 63 the most significant (20_memory R52). -/
abbrev Word := BitVec 64

/-- An IEEE 754 binary64 value as its 64 bits: bit 63 sign, 62:52 biased exponent, 51:0 fraction (R7). -/
abbrev F64 := BitVec 64

end Sys2Proof
end

