-- ==== Sys2Proof/Syntax.lean ====
section
/-!
DEFINITION. The closed enumerations, the parameter snapshot and the instructions: one constructor for each of the 27 rows
of spec/opcode_table.json (30_encoding R65 to R74, 10_state R40).
-/

namespace Sys2Proof

/-- The five waveforms (R13, R72): a closed enumeration, not a number. -/
inductive Waveform where
  | sine | square | triangle | sawtooth | sawtoothInverse
  deriving DecidableEq, Repr

/-- The LFO's modulation type (R13, R117). -/
inductive LfoMode where
  | tremolo | vibrato
  deriving DecidableEq, Repr

/-- The envelope's stages (R13, R145). -/
inductive Stage where
  | idle | attack | decay | sustain | release
  deriving DecidableEq, Repr

/-- The three oscillator instances, each owning one phase register (R23, R90). -/
inductive Osc where
  | osc1 | osc2 | lfo
  deriving DecidableEq, Repr

/-- The parameter snapshot `P`: the 23 fields of 10_state rule R40, in the table's order P0 to P22. -/
structure Snapshot where
  mute : Bool
  osc1En : Bool
  osc1Wave : Waveform
  osc1Freq : F64
  osc1Amp : F64
  osc2En : Bool
  osc2Wave : Waveform
  osc2Freq : F64
  osc2Amp : F64
  lfoEn : Bool
  lfoWave : Waveform
  lfoFreq : F64
  lfoMode : LfoMode
  lfoDepth : F64
  filtEn : Bool
  lowCut : F64
  highCut : F64
  envEn : Bool
  attackMs : F64
  decayMs : F64
  releaseMs : F64
  sustain : F64
  volume : F64
  deriving DecidableEq, Repr

/-- Everything disabled, every selector its first value and every scalar `+0.0`: the snapshot that the text form's defaults
(R78) and the encodings of the component rows start from. -/
def Snapshot.blank : Snapshot where
  mute := false
  osc1En := false
  osc1Wave := .sine
  osc1Freq := 0
  osc1Amp := 0
  osc2En := false
  osc2Wave := .sine
  osc2Freq := 0
  osc2Amp := 0
  lfoEn := false
  lfoWave := .sine
  lfoFreq := 0
  lfoMode := .tremolo
  lfoDepth := 0
  filtEn := false
  lowCut := 0
  highCut := 0
  envEn := false
  attackMs := 0
  decayMs := 0
  releaseMs := 0
  sustain := 0
  volume := 0

/-- A command frame: a finite sequence of 64-bit words, `W[0]` the header (R65). -/
abbrev Frame := List Word

/-- The instructions: one constructor per row of spec/opcode_table.json.

`init`, `reset` and `proc` are the commands a frame can spell (R74). The other 24 rows are the component operations a PROC
command selects by its header fields (30_encoding section 3): a constructor carries the scalar fields the row names in the
frame, and takes its other operands (`x`, `l`, the mixed signal) from the datapath nodes of the state. DESIGN CHOICE
(entry 9): safe. -/
inductive Instr where
  /-- INIT: `initialize(sampleRate)` (R66, R195). -/
  | init (sr : F64)
  /-- RESET: `reset(sampleRate, bitDepth)` (R67, R196). -/
  | reset (bitDepth : BitVec 8) (sr : F64)
  /-- PROC: `processSample(paramSnapshot)` (R68, R69, R197). -/
  | proc (p : Snapshot)
  /-- FRAME: the body of PROC (R175, R186). -/
  | frame (p : Snapshot)
  /-- FRAME.mute: oscillator samples and output forced to `+0.0` (R177, R184). -/
  | frameMute
  /-- GEN.sine@OSC1 (R91). -/
  | genSineOsc1 (f a : F64)
  /-- GEN.square@OSC1 (R92). -/
  | genSquareOsc1 (f a : F64)
  /-- GEN.triangle@OSC1 (R93). -/
  | genTriangleOsc1 (f a : F64)
  /-- GEN.sawtooth@OSC1 (R94). -/
  | genSawtoothOsc1 (f a : F64)
  /-- GEN.sawtoothInverse@OSC1 (R95). -/
  | genSawtoothInverseOsc1 (f a : F64)
  /-- GEN.sine@OSC2 (R91). -/
  | genSineOsc2 (f a : F64)
  /-- GEN.square@OSC2 (R92). -/
  | genSquareOsc2 (f a : F64)
  /-- GEN.triangle@OSC2 (R93). -/
  | genTriangleOsc2 (f a : F64)
  /-- GEN.sawtooth@OSC2 (R94). -/
  | genSawtoothOsc2 (f a : F64)
  /-- GEN.sawtoothInverse@OSC2 (R95). -/
  | genSawtoothInverseOsc2 (f a : F64)
  /-- GEN.sine@LFO; the amplitude operand is LFO_AMP (R91, R115). -/
  | genSineLfo (f : F64)
  /-- GEN.square@LFO (R92, R115). -/
  | genSquareLfo (f : F64)
  /-- GEN.triangle@LFO (R93, R115). -/
  | genTriangleLfo (f : F64)
  /-- GEN.sawtooth@LFO (R94, R115). -/
  | genSawtoothLfo (f : F64)
  /-- GEN.sawtoothInverse@LFO (R95, R115). -/
  | genSawtoothInverseLfo (f : F64)
  /-- TREM: the tremolo gain, applied to the mixed signal (R110, R180). -/
  | trem (d : F64)
  /-- LFO.vibrato: the architected no-op (R118, R76). -/
  | lfoVibrato
  /-- LFO.off: gain 1, no state advances (R116). -/
  | lfoOff
  /-- FILT: the bandpass filter on the mixed signal (R125, R181). -/
  | filt (lowCut highCut : F64)
  /-- FILT.off: passthrough, history held (R132). -/
  | filtOff
  /-- ENV: the envelope gain, applied to the mixed signal (R146, R160, R182). -/
  | env (attackMs decayMs releaseMs sustain : F64)
  /-- ENV_IDLE: envelope forced to Idle (R156, R182). -/
  | envIdle
  deriving DecidableEq, Repr

/-- Why the decoder refuses a frame (R75, R77). -/
inductive DecodeError where
  /-- The frame's length is not its format's (R77). -/
  | badLength
  /-- `W[0][1:0] = 0b11` (R75 (a)). -/
  | badOpcode
  /-- A reserved header bit is 1 (R75 (b)). -/
  | reservedBits
  /-- A waveform field holds `0b101`, `0b110` or `0b111` (R75 (c)). -/
  | badWaveform
  deriving DecidableEq, Repr

end Sys2Proof
end

