-- ==== Sys2Proof/WellFormed.lean ====
section
/-!
DEFINITION. What a well-formed command frame is, read from the match/mask table of 30_encoding rule R74 and the waveform
codes of rule R72, independently of the decoder; and which instructions a frame can spell.
-/

namespace Sys2Proof

/-- One row of the opcode map of rule R74. -/
structure CommandRow where
  pattern : Word
  mask : Word
  words : Nat
  deriving DecidableEq, Repr

/-- INIT's row of rule R74. -/
def initRow : CommandRow := ⟨0x0000000000000000, 0xFFFFFFFFFFFFFFFF, 2⟩
/-- RESET's row of rule R74. -/
def resetRow : CommandRow := ⟨0x0000000000000001, 0xFFFFFFFFFFFF00FF, 2⟩
/-- PROC's row of rule R74. -/
def procRow : CommandRow := ⟨0x0000000000000002, 0xFFFFFFFFFFFC0003, 14⟩

/-- A frame spells the row: its length is the row's and `W[0] AND mask = match` (R74, R77). -/
def CommandRow.fits (r : CommandRow) (f : Frame) : Bool :=
  f.length == r.words && (f.headD 0 &&& r.mask) == r.pattern

/-- The three waveform fields of a PROC header hold codes 0 to 4 (R72, R75 (c)). -/
def waveCodesOk (h : Word) : Bool :=
  (h >>> 4).toNat % 8 < 5 && (h >>> 8).toNat % 8 < 5 && (h >>> 12).toNat % 8 < 5

/-- A frame that spells a command (R74, R75). -/
def Frame.wellFormed (f : Frame) : Bool :=
  initRow.fits f || resetRow.fits f || (procRow.fits f && waveCodesOk (f.headD 0))

/-- The commands: the instructions a frame can spell (R74). The other rows are operations inside PROC (entry 9). -/
def Instr.isCommand : Instr → Bool
  | .init _ => true
  | .reset _ _ => true
  | .proc _ => true
  | .frame _ => false
  | .frameMute => false
  | .genSineOsc1 _ _ => false
  | .genSquareOsc1 _ _ => false
  | .genTriangleOsc1 _ _ => false
  | .genSawtoothOsc1 _ _ => false
  | .genSawtoothInverseOsc1 _ _ => false
  | .genSineOsc2 _ _ => false
  | .genSquareOsc2 _ _ => false
  | .genTriangleOsc2 _ _ => false
  | .genSawtoothOsc2 _ _ => false
  | .genSawtoothInverseOsc2 _ _ => false
  | .genSineLfo _ => false
  | .genSquareLfo _ => false
  | .genTriangleLfo _ => false
  | .genSawtoothLfo _ => false
  | .genSawtoothInverseLfo _ => false
  | .trem _ => false
  | .lfoVibrato => false
  | .lfoOff => false
  | .filt _ _ => false
  | .filtOff => false
  | .env _ _ _ _ => false
  | .envIdle => false

/-- A well-formed command: the check that stands before encoding for the port (R74). -/
abbrev Instr.wellFormed (i : Instr) : Bool := i.isCommand

end Sys2Proof
end

