-- ==== Sys2Proof/Decode.lean ====
section
/-!
DEFINITION. The decoder and the encoder of command frames (30_encoding R65 to R77), the operations a PROC frame selects
(30_encoding section 3), and the match/mask pair of every opcode-table row.
-/

namespace Sys2Proof

/-! ### Enumeration codes (R72) -/

/-- The Waveform code of rule R72. -/
def waveCode : Waveform → BitVec 3
  | .sine => 0b000
  | .square => 0b001
  | .triangle => 0b010
  | .sawtooth => 0b011
  | .sawtoothInverse => 0b100

/-- The waveform a code names; `0b101`, `0b110`, `0b111` are reserved (R72, R75 (c)). -/
def waveOfCode (c : BitVec 3) : Option Waveform :=
  if c = 0b000 then some .sine
  else if c = 0b001 then some .square
  else if c = 0b010 then some .triangle
  else if c = 0b011 then some .sawtooth
  else if c = 0b100 then some .sawtoothInverse
  else none

/-- The LfoMode code of rule R72. -/
def modeCode : LfoMode → Bool
  | .tremolo => false
  | .vibrato => true

/-- The mode a code names (R72): both values are defined. -/
def modeOfCode (b : Bool) : LfoMode := if b then .vibrato else .tremolo

/-- The Stage code of rule R72: `ENV.STAGE` only, never in a frame. -/
def stageCode : Stage → BitVec 3
  | .idle => 0b000
  | .attack => 0b001
  | .decay => 0b010
  | .sustain => 0b011
  | .release => 0b100

/-! ### Header fields (R65 to R68) -/

/-- Word `i` of a frame, `W[i]`. -/
def frameWord (f : Frame) (i : Nat) : Word := f.getD i 0

/-- `W[0][1:0]` (R65). -/
def opcodeOf (h : Word) : BitVec 2 := h.extractLsb' 0 2

/-- The frame length of an opcode's format (R74); the reserved opcode has none. -/
def formatWords (op : BitVec 2) : Option Nat :=
  if op = 0b00 then some 2
  else if op = 0b01 then some 2
  else if op = 0b10 then some 14
  else none

/-- The reserved header bits of a format, which must be zero (R66, R67, R68, R75 (b)). -/
def reservedMask (op : BitVec 2) : Word :=
  if op = 0b00 then 0xFFFFFFFFFFFFFFFC
  else if op = 0b01 then 0xFFFFFFFFFFFF00FC
  else 0xFFFFFFFFFFFC0000

/-- `bitDepth`, `W[0][15:8]` (R67, R73). -/
def bitDepthOf (h : Word) : BitVec 8 := h.extractLsb' 8 8

/-- `o1wave`, `W[0][6:4]` (R68). -/
def o1waveOf (h : Word) : BitVec 3 := h.extractLsb' 4 3
/-- `o2wave`, `W[0][10:8]` (R68). -/
def o2waveOf (h : Word) : BitVec 3 := h.extractLsb' 8 3
/-- `lfowave`, `W[0][14:12]` (R68). -/
def lfowaveOf (h : Word) : BitVec 3 := h.extractLsb' 12 3

/-- The snapshot of a PROC frame whose three waveforms are decoded: flags from the header (R68), scalars one per word (R69),
taken as they stand (R73). -/
def snapshotOf (f : Frame) (w1 w2 wl : Waveform) : Snapshot where
  mute := (frameWord f 0).getLsbD 2
  osc1En := (frameWord f 0).getLsbD 3
  osc1Wave := w1
  osc1Freq := frameWord f 2
  osc1Amp := frameWord f 3
  osc2En := (frameWord f 0).getLsbD 7
  osc2Wave := w2
  osc2Freq := frameWord f 4
  osc2Amp := frameWord f 5
  lfoEn := (frameWord f 0).getLsbD 11
  lfoWave := wl
  lfoFreq := frameWord f 6
  lfoMode := modeOfCode ((frameWord f 0).getLsbD 15)
  lfoDepth := frameWord f 7
  filtEn := (frameWord f 0).getLsbD 16
  lowCut := frameWord f 8
  highCut := frameWord f 9
  envEn := (frameWord f 0).getLsbD 17
  attackMs := frameWord f 10
  decayMs := frameWord f 11
  releaseMs := frameWord f 12
  sustain := frameWord f 13
  volume := frameWord f 1

/-- The operands of a frame whose length, opcode and reserved bits are right; only a waveform code can still be wrong. -/
def decodeFields (op : BitVec 2) (f : Frame) : Except DecodeError Instr :=
  if op = 0b00 then .ok (.init (frameWord f 1))
  else if op = 0b01 then .ok (.reset (bitDepthOf (frameWord f 0)) (frameWord f 1))
  else
    match waveOfCode (o1waveOf (frameWord f 0)), waveOfCode (o2waveOf (frameWord f 0)),
      waveOfCode (lfowaveOf (frameWord f 0)) with
    | some w1, some w2, some wl => .ok (.proc (snapshotOf f w1 w2 wl))
    | _, _, _ => .error .badWaveform

/-- The decoder, total on every frame; checks in the order of rule R77: BadLength (neither 2 nor 14), BadOpcode, BadLength
(not the format's), ReservedBits, BadWaveform. -/
def decode (f : Frame) : Except DecodeError Instr :=
  if f.length ≠ 2 ∧ f.length ≠ 14 then .error .badLength
  else
    match formatWords (opcodeOf (frameWord f 0)) with
    | none => .error .badOpcode
    | some n =>
      if f.length ≠ n then .error .badLength
      else if frameWord f 0 &&& reservedMask (opcodeOf (frameWord f 0)) ≠ 0 then .error .reservedBits
      else decodeFields (opcodeOf (frameWord f 0)) f

/-! ### The encoder (R66 to R69, R72) -/

/-- One flag at its header bit. -/
def flagAt (b : Bool) (i : Nat) : Word := if b then BitVec.twoPow 64 i else 0

/-- A waveform code at its header position. -/
def waveAt (w : Waveform) (i : Nat) : Word := (waveCode w).zeroExtend 64 <<< i

/-- The PROC header word (R68). -/
def procHeader (p : Snapshot) : Word :=
  0b10 ||| flagAt p.mute 2 ||| flagAt p.osc1En 3 ||| waveAt p.osc1Wave 4 ||| flagAt p.osc2En 7 ||| waveAt p.osc2Wave 8
    ||| flagAt p.lfoEn 11 ||| waveAt p.lfoWave 12 ||| flagAt (modeCode p.lfoMode) 15 ||| flagAt p.filtEn 16
    ||| flagAt p.envEn 17

/-- The 14 words of a PROC frame (R68, R69). -/
def encodeProc (p : Snapshot) : Frame :=
  [procHeader p, p.volume, p.osc1Freq, p.osc1Amp, p.osc2Freq, p.osc2Amp, p.lfoFreq, p.lfoDepth, p.lowCut, p.highCut,
    p.attackMs, p.decayMs, p.releaseMs, p.sustain]

/-- A snapshot that runs OSC1 alone. -/
def onlyOsc1 (w : Waveform) (f a : F64) : Snapshot :=
  { Snapshot.blank with osc1En := true, osc1Wave := w, osc1Freq := f, osc1Amp := a }
/-- A snapshot that runs OSC2 alone. -/
def onlyOsc2 (w : Waveform) (f a : F64) : Snapshot :=
  { Snapshot.blank with osc2En := true, osc2Wave := w, osc2Freq := f, osc2Amp := a }
/-- A snapshot that runs the LFO in tremolo mode alone, with depth `+0.0`. -/
def onlyLfo (w : Waveform) (f : F64) : Snapshot :=
  { Snapshot.blank with lfoEn := true, lfoWave := w, lfoFreq := f }

/-- The frame of an instruction. A command's frame spells it; a component operation's frame is the PROC frame that selects
it with its operands and leaves every field the row does not name at zero (30_encoding section 3, opcode_table.json). -/
def encode : Instr → Frame
  | .init sr => [0, sr]
  | .reset bd sr => [0b01 ||| (bd.zeroExtend 64 <<< 8), sr]
  | .proc p => encodeProc p
  | .frame p => encodeProc p
  | .frameMute => encodeProc { Snapshot.blank with mute := true }
  | .genSineOsc1 f a => encodeProc (onlyOsc1 .sine f a)
  | .genSquareOsc1 f a => encodeProc (onlyOsc1 .square f a)
  | .genTriangleOsc1 f a => encodeProc (onlyOsc1 .triangle f a)
  | .genSawtoothOsc1 f a => encodeProc (onlyOsc1 .sawtooth f a)
  | .genSawtoothInverseOsc1 f a => encodeProc (onlyOsc1 .sawtoothInverse f a)
  | .genSineOsc2 f a => encodeProc (onlyOsc2 .sine f a)
  | .genSquareOsc2 f a => encodeProc (onlyOsc2 .square f a)
  | .genTriangleOsc2 f a => encodeProc (onlyOsc2 .triangle f a)
  | .genSawtoothOsc2 f a => encodeProc (onlyOsc2 .sawtooth f a)
  | .genSawtoothInverseOsc2 f a => encodeProc (onlyOsc2 .sawtoothInverse f a)
  | .genSineLfo f => encodeProc (onlyLfo .sine f)
  | .genSquareLfo f => encodeProc (onlyLfo .square f)
  | .genTriangleLfo f => encodeProc (onlyLfo .triangle f)
  | .genSawtoothLfo f => encodeProc (onlyLfo .sawtooth f)
  | .genSawtoothInverseLfo f => encodeProc (onlyLfo .sawtoothInverse f)
  | .trem d => encodeProc { Snapshot.blank with lfoEn := true, lfoDepth := d }
  | .lfoVibrato => encodeProc { Snapshot.blank with lfoEn := true, lfoMode := .vibrato }
  | .lfoOff => encodeProc Snapshot.blank
  | .filt lo hi => encodeProc { Snapshot.blank with filtEn := true, lowCut := lo, highCut := hi }
  | .filtOff => encodeProc Snapshot.blank
  | .env a d r s =>
    encodeProc { Snapshot.blank with envEn := true, attackMs := a, decayMs := d, releaseMs := r, sustain := s }
  | .envIdle => encodeProc Snapshot.blank

/-! ### The operations a PROC command selects (30_encoding section 3, 45_frame R177 to R182) -/

/-- The GEN row of OSC1 with a waveform. -/
def genOsc1 (w : Waveform) (f a : F64) : Instr :=
  match w with
  | .sine => .genSineOsc1 f a
  | .square => .genSquareOsc1 f a
  | .triangle => .genTriangleOsc1 f a
  | .sawtooth => .genSawtoothOsc1 f a
  | .sawtoothInverse => .genSawtoothInverseOsc1 f a

/-- The GEN row of OSC2 with a waveform. -/
def genOsc2 (w : Waveform) (f a : F64) : Instr :=
  match w with
  | .sine => .genSineOsc2 f a
  | .square => .genSquareOsc2 f a
  | .triangle => .genTriangleOsc2 f a
  | .sawtooth => .genSawtoothOsc2 f a
  | .sawtoothInverse => .genSawtoothInverseOsc2 f a

/-- The GEN row of the LFO with a waveform. -/
def genLfo (w : Waveform) (f : F64) : Instr :=
  match w with
  | .sine => .genSineLfo f
  | .square => .genSquareLfo f
  | .triangle => .genTriangleLfo f
  | .sawtooth => .genSawtoothLfo f
  | .sawtoothInverse => .genSawtoothInverseLfo f

/-- Steps 2 and 3: mute, else each oscillator that is individually enabled (R177, R178). -/
def selectedOsc (p : Snapshot) : List Instr :=
  if p.mute then [.frameMute]
  else
    (if p.osc1En then [genOsc1 p.osc1Wave p.osc1Freq p.osc1Amp] else [])
      ++ (if p.osc2En then [genOsc2 p.osc2Wave p.osc2Freq p.osc2Amp] else [])

/-- Step 5: the LFO and the tremolo, or the vibrato no-op, or the LFO disabled (R180, R116, R118). -/
def selectedLfo (p : Snapshot) : List Instr :=
  if p.lfoEn then
    match p.lfoMode with
    | .tremolo => [genLfo p.lfoWave p.lfoFreq, .trem p.lfoDepth]
    | .vibrato => [.lfoVibrato]
  else [.lfoOff]

/-- Step 6 (R181, R132). -/
def selectedFilt (p : Snapshot) : List Instr :=
  if p.filtEn then [.filt p.lowCut p.highCut] else [.filtOff]

/-- Step 7 (R182, R156). -/
def selectedEnv (p : Snapshot) : List Instr :=
  if p.envEn then [.env p.attackMs p.decayMs p.releaseMs p.sustain] else [.envIdle]

/-- The rows of the opcode table a PROC command with snapshot `p` selects, `FRAME` first, then in the order of rule R186. -/
def selected (p : Snapshot) : List Instr :=
  .frame p :: (selectedOsc p ++ selectedLfo p ++ selectedFilt p ++ selectedEnv p)

/-- The `match` and `mask` of an instruction's row in spec/opcode_table.json; both apply to `W[0]` (R74). -/
def rowPattern : Instr → Word × Word
  | .init _ => (0x0000000000000000, 0xFFFFFFFFFFFFFFFF)
  | .reset _ _ => (0x0000000000000001, 0xFFFFFFFFFFFF00FF)
  | .proc _ => (0x0000000000000002, 0xFFFFFFFFFFFC0003)
  | .frame _ => (0x0000000000000002, 0xFFFFFFFFFFFC0003)
  | .frameMute => (0x0000000000000006, 0xFFFFFFFFFFFC0007)
  | .genSineOsc1 _ _ => (0x000000000000000A, 0xFFFFFFFFFFFC007F)
  | .genSquareOsc1 _ _ => (0x000000000000001A, 0xFFFFFFFFFFFC007F)
  | .genTriangleOsc1 _ _ => (0x000000000000002A, 0xFFFFFFFFFFFC007F)
  | .genSawtoothOsc1 _ _ => (0x000000000000003A, 0xFFFFFFFFFFFC007F)
  | .genSawtoothInverseOsc1 _ _ => (0x000000000000004A, 0xFFFFFFFFFFFC007F)
  | .genSineOsc2 _ _ => (0x0000000000000082, 0xFFFFFFFFFFFC0787)
  | .genSquareOsc2 _ _ => (0x0000000000000182, 0xFFFFFFFFFFFC0787)
  | .genTriangleOsc2 _ _ => (0x0000000000000282, 0xFFFFFFFFFFFC0787)
  | .genSawtoothOsc2 _ _ => (0x0000000000000382, 0xFFFFFFFFFFFC0787)
  | .genSawtoothInverseOsc2 _ _ => (0x0000000000000482, 0xFFFFFFFFFFFC0787)
  | .genSineLfo _ => (0x0000000000000802, 0xFFFFFFFFFFFCF803)
  | .genSquareLfo _ => (0x0000000000001802, 0xFFFFFFFFFFFCF803)
  | .genTriangleLfo _ => (0x0000000000002802, 0xFFFFFFFFFFFCF803)
  | .genSawtoothLfo _ => (0x0000000000003802, 0xFFFFFFFFFFFCF803)
  | .genSawtoothInverseLfo _ => (0x0000000000004802, 0xFFFFFFFFFFFCF803)
  | .trem _ => (0x0000000000000802, 0xFFFFFFFFFFFC8803)
  | .lfoVibrato => (0x0000000000008802, 0xFFFFFFFFFFFC8803)
  | .lfoOff => (0x0000000000000002, 0xFFFFFFFFFFFC0803)
  | .filt _ _ => (0x0000000000010002, 0xFFFFFFFFFFFD0003)
  | .filtOff => (0x0000000000000002, 0xFFFFFFFFFFFD0003)
  | .env _ _ _ _ => (0x0000000000020002, 0xFFFFFFFFFFFE0003)
  | .envIdle => (0x0000000000000002, 0xFFFFFFFFFFFE0003)

/-- A header is one of the row's: `h AND mask = match` (R74). -/
def rowMatches (i : Instr) (h : Word) : Bool := h &&& (rowPattern i).2 == (rowPattern i).1

/-! ### The opcode table's numbering of an instruction's bits -/

/-- The frame of an instruction given as one number, bit 0 the least significant bit of the first word (entry 13): as many
words as `nbits` covers and at least the opcode's format, the bits above `nbits` zero. -/
def tableFrame (nbits w : Nat) : Frame :=
  let v := w % 2 ^ nbits
  let n := max ((nbits + 63) / 64) ((formatWords (BitVec.ofNat 2 v)).getD 2)
  (List.range n).map fun k => BitVec.ofNat 64 (v >>> (64 * k))

/-- The instruction the decoder reads from a word numbered as spec/opcode_table.json numbers it. -/
def decodeTableWord (nbits w : Nat) : Option Instr :=
  match decode (tableFrame nbits w) with
  | .ok i => some i
  | .error _ => none

end Sys2Proof
end

