-- ==== Sys2Proof/Config.lean ====
section
/-!
DEFINITION. The configuration parameters of spec/00_scope.md rule R6 and the open values behind them. The instance the
machine runs with is `Sys2Proof.Machine.hw` (Machine/Params.lean), which normalises the open values below into the
constraints of rules R6 and R9.
-/

namespace Sys2Proof

/-- The record `NUM` of five functions (R9). -/
structure NumFns where
  sin : F64 → F64
  cos : F64 → F64
  tan : F64 → F64
  exp : F64 → F64
  ln : F64 → F64

/-- What `FILT_COEF` answers (R129). -/
structure Coeffs where
  b0 : F64
  b2 : F64
  a1 : F64
  a2 : F64
  deriving DecidableEq, Repr

/-- The configuration parameters of rule R6. They are not state and no command changes them. -/
structure Config where
  /-- `N_CHANNELS`, 1 or 2. -/
  nChannels : Nat
  /-- `LFO_AMP`. -/
  lfoAmp : F64
  /-- `TREM_FREQ`, Hz, finite, `>= 0`. -/
  tremFreq : F64
  /-- `TREM_PERIOD`, 1 to 2^32. -/
  tremPeriod : Nat
  /-- `FILT_GAIN`, finite. -/
  filtGain : F64
  /-- `FILT_A0`, finite, not zero. -/
  filtA0 : F64
  /-- `FILT_COEF`, a function of `k` and `Q`. -/
  filtCoef : F64 → F64 → Coeffs
  /-- `BW_EPS`, Hz, finite, `> 0`. -/
  bwEps : F64
  /-- `ENV_TRUNC`, finite, `> 0`. -/
  envTrunc : F64
  /-- `ENV_SUS_EPS`, finite, `>= 0`. -/
  envSusEps : F64
  /-- `NUM`. -/
  num : NumFns

/-- The operations that can deliver a NaN of their own. -/
inductive FloatOp where
  | add | sub | mul | div
  deriving DecidableEq, Repr

namespace Open

/-! OPEN parameters of rule R6 and U1 to U8: uninterpreted constants, no value of which can be proved (entries 4 and 5). -/

/-- Behind `N_CHANNELS` (D30). -/
opaque channels : Nat
/-- Behind `TREM_FREQ` (D15). -/
opaque tremFreq : F64
/-- Behind `TREM_PERIOD` (D15). -/
opaque tremPeriod : Nat
/-- Behind `FILT_GAIN` (D17). -/
opaque filtGain : F64
/-- Behind `FILT_A0` (D17). -/
opaque filtA0 : F64
/-- Behind `BW_EPS` (D18). -/
opaque bwEps : F64
/-- Behind `ENV_TRUNC` (D21). -/
opaque envTrunc : F64
/-- Behind `ENV_SUS_EPS` (D24). -/
opaque envSusEps : F64
/-- Behind `NUM.sin` (D3). -/
opaque sin : F64 → F64
/-- Behind `NUM.cos` (D3). -/
opaque cos : F64 → F64
/-- Behind `NUM.tan` (D3). -/
opaque tan : F64 → F64
/-- Behind `NUM.exp` (D3). -/
opaque exp : F64 → F64
/-- Behind `NUM.ln` (D3). -/
opaque ln : F64 → F64

/-- FREE VALUE (entry 6): the bits of the NaN an operation delivers; IEEE 754 fixes neither its sign nor its payload. -/
opaque nanResult : FloatOp → F64 → F64 → F64

end Open

end Sys2Proof
end

