-- ==== Sys2Proof/Machine/Float.lean ====
section
/-!
DEFINITION. IEEE 754 binary64 arithmetic on bit patterns (00_scope R7, R8, R10, R11, R12): every finite value is an
integer number of units of 2^-1074; an operation computes exactly on those integers and rounds once.
-/

namespace Sys2Proof.Machine

/-! ### The format (R7) -/

/-- The sign, bit 63. -/
def fSign (x : F64) : Bool := x.getLsbD 63

/-- Exponent and fraction together, bits 62:0; the order of magnitudes is the order of these numbers. -/
def fMag (x : F64) : Nat := x.toNat % 2 ^ 63

/-- The magnitude bits of infinity. -/
def infMag : Nat := 0x7FF0000000000000

/-- A value from its sign and magnitude bits. -/
def fMake (neg : Bool) (mag : Nat) : F64 := BitVec.ofNat 64 ((if neg then 2 ^ 63 else 0) + mag)

/-- Exponent all ones, fraction not zero. -/
def fIsNaN (x : F64) : Bool := infMag < fMag x
/-- Exponent all ones, fraction zero. -/
def fIsInf (x : F64) : Bool := fMag x == infMag
/-- Neither NaN nor infinite. -/
def fIsFinite (x : F64) : Bool := fMag x < infMag

/-- The magnitude of a finite value in units of 2^-1074: a subnormal is its fraction, a normal its significand scaled by its
exponent. -/
def magUnits (m : Nat) : Nat :=
  if m / 2 ^ 52 = 0 then m else (2 ^ 52 + m % 2 ^ 52) * 2 ^ (m / 2 ^ 52 - 1)

/-- The value of a finite operand in units of 2^-1074. -/
def fInt (x : F64) : Int := if fSign x then -(magUnits (fMag x) : Int) else magUnits (fMag x)

/-! ### Rounding (R8: to nearest, ties to even) -/

/-- `n / d` rounded to the nearest integer, ties to even (`0 < d`). -/
def divRNE (n d : Nat) : Nat :=
  if 2 * (n % d) < d ∨ (2 * (n % d) = d ∧ (n / d) % 2 = 0) then n / d else n / d + 1

/-- The binary exponent by which the unit of `n / d` exceeds 2^-1074: 53 significant bits, never below the subnormal unit. -/
def roundShift (n d : Nat) : Nat := Nat.log2 (n / d) - 52

/-- The magnitude bits of the binary64 value nearest to `n / d` units of 2^-1074; infinity from the overflow threshold on.
A significand that rounds up to a power of two carries into the exponent field. -/
def roundMag (n d : Nat) : Nat :=
  min (roundShift n d * 2 ^ 52 + divRNE n (d * 2 ^ roundShift n d)) infMag

/-- An exact sum rounded; `zeroNeg` is the sign of an exact zero. -/
def roundInt (zeroNeg : Bool) (s : Int) : F64 :=
  if s = 0 then fMake zeroNeg 0 else fMake (s < 0) (roundMag s.natAbs 1)

/-! ### Operations (R8) -/

/-- The NaN an operation delivers: a NaN with free sign and payload (entry 6). -/
def fNaN (op : FloatOp) (a b : F64) : F64 :=
  if fIsNaN (Open.nanResult op a b) then Open.nanResult op a b else 0x7FF8000000000000

/-- Negation changes the sign bit only (R8). -/
def fNeg (x : F64) : F64 := x ^^^ 0x8000000000000000

/-- Absolute value clears the sign bit only (R8). -/
def fAbs (x : F64) : F64 := x &&& 0x7FFFFFFFFFFFFFFF

/-- `a + b` for operands that are not NaN; `op` names the operation should the sum of opposite infinities be a NaN. -/
def addFrom (op : FloatOp) (a b : F64) : F64 :=
  if fIsInf a then (if fIsInf b && (fSign a != fSign b) then fNaN op a b else a)
  else if fIsInf b then b
  else roundInt (fSign a && fSign b) (fInt a + fInt b)

/-- IEEE addition (R8). -/
@[irreducible] def fAdd (a b : F64) : F64 := if fIsNaN a || fIsNaN b then fNaN .add a b else addFrom .add a b

/-- IEEE subtraction (R8): addition of the negated operand. -/
@[irreducible] def fSub (a b : F64) : F64 := if fIsNaN a || fIsNaN b then fNaN .sub a b else addFrom .sub a (fNeg b)

/-- IEEE multiplication (R8). -/
@[irreducible] def fMul (a b : F64) : F64 :=
  if fIsNaN a || fIsNaN b then fNaN .mul a b
  else if fIsInf a || fIsInf b then
    (if fMag a == 0 || fMag b == 0 then fNaN .mul a b else fMake (fSign a != fSign b) infMag)
  else fMake (fSign a != fSign b) (roundMag (magUnits (fMag a) * magUnits (fMag b)) (2 ^ 1074))

/-- IEEE division (R8). -/
@[irreducible] def fDiv (a b : F64) : F64 :=
  if fIsNaN a || fIsNaN b then fNaN .div a b
  else if fIsInf a then (if fIsInf b then fNaN .div a b else fMake (fSign a != fSign b) infMag)
  else if fIsInf b then fMake (fSign a != fSign b) 0
  else if fMag b == 0 then
    (if fMag a == 0 then fNaN .div a b else fMake (fSign a != fSign b) infMag)
  else fMake (fSign a != fSign b) (roundMag (magUnits (fMag a) * 2 ^ 1074) (magUnits (fMag b)))

/-! ### Comparisons (R11) -/

/-- The order of non-NaN values: signed magnitude, both zeros equal. -/
def fKey (x : F64) : Int := if fSign x then -(fMag x : Int) else fMag x

/-- `a < b`; false with a NaN operand. -/
def fLt (a b : F64) : Bool := !fIsNaN a && !fIsNaN b && decide (fKey a < fKey b)
/-- `a <= b`; false with a NaN operand. -/
def fLe (a b : F64) : Bool := !fIsNaN a && !fIsNaN b && decide (fKey a ≤ fKey b)
/-- `a > b`. -/
def fGt (a b : F64) : Bool := fLt b a
/-- `a >= b`. -/
def fGe (a b : F64) : Bool := fLe b a
/-- `a = b`; `+0.0 = -0.0`, false with a NaN operand. -/
def fEq (a b : F64) : Bool := !fIsNaN a && !fIsNaN b && decide (fKey a = fKey b)

/-- `max(a, b)` of rule R11: `if a >= b then a else b`, so `max(NaN, b) = b`. -/
def fMax (a b : F64) : F64 := if fGe a b then a else b

/-! ### Integer conversions (R12) -/

/-- `toF64(n)`: the nearest F64, ties to even. -/
def toF64 (n : Nat) : F64 := fMake false (roundMag (n * 2 ^ 1074) 1)

/-- `trunc(x)` for a finite `x >= 0`: the largest integer `<= x`. -/
def fTrunc (x : F64) : Nat := magUnits (fMag x) / 2 ^ 1074

/-! ### Constants (R10) -/

/-- `PI`. -/
def PI : F64 := 0x400921FB54442D18
/-- `TWO_PI`. -/
def TWO_PI : F64 := 0x401921FB54442D18
/-- `1.0`. -/
def one : F64 := 0x3FF0000000000000
/-- `2.0`. -/
def two : F64 := 0x4000000000000000
/-- `3.0`. -/
def three : F64 := 0x4008000000000000
/-- `1000.0`. -/
def thousand : F64 := 0x408F400000000000
/-- `+infinity`. -/
def posInf : F64 := 0x7FF0000000000000
/-- `2^62`, the ceiling of the stage counts (44_envelope R147). -/
def twoPow62 : F64 := 0x43D0000000000000

end Sys2Proof.Machine
end

