-- ==== Sys2Proof/Machine/Operands.lean ====
section
/-!
DEFINITION. The operand forms: a scalar field is its word's bits as they stand (30_encoding R73, no immediate is
assembled); the sample-rate operand of INIT and RESET (46_host_commands R195); a stage time as a sample count (44_envelope
R147).
-/

namespace Sys2Proof.Machine

/-- `not (sr > 0.0) or sr = +infinity`: NaN, zero, negative or infinite (R195). -/
def badSampleRate (sr : F64) : Bool := !fGt sr 0 || sr == posInf

/-- A count from a number of samples, floor 1 (NaN and negatives included), ceiling 2^62 (R147). -/
def countOf (x : F64) : Nat :=
  if !fGe x one then 1
  else if fGe x twoPow62 then 2 ^ 62
  else fTrunc x

/-- `cnt(ms)`: a stage time in milliseconds as a number of samples (R147). -/
def stageCount (sampleRate ms : F64) : Nat := countOf (fDiv (fMul sampleRate ms) thousand)

end Sys2Proof.Machine
end

