-- ==== Sys2Proof/Machine/State.lean ====
section
/-!
DEFINITION. The machine's state as plain data, the fault, the refusals and the state at power-on (10_state R20 to R45,
60_exceptions R218, R220, 70_reset R235).
-/

namespace Sys2Proof.Machine

/-- The one fault of the model (R220). -/
inductive Fault where
  /-- `NonFinite`: raised by FRAME and PROC when, after the body, an F64 register (scratch excepted) or the output is a NaN
  or an infinity (R186 line 9, R220). Safe: the spec gives such a run no meaning beyond the fault. -/
  | nonFinite
  deriving DecidableEq, Repr

/-- The refusals (R218) and the host's own reason for an instruction without a meaning. -/
inductive Refusal where
  /-- Raised by `exec` for an instruction that has no meaning yet; no arm of this model uses it. Safe. -/
  | notModelled (mnemonic : String)
  /-- `BadLength`: raised by the decoder for a frame whose length is not its format's (R77). Safe. -/
  | badLength
  /-- `BadOpcode`: raised by the decoder for opcode `0b11` (R75). Safe. -/
  | badOpcode
  /-- `ReservedBits`: raised by the decoder for a reserved header bit that is 1 (R75). Safe. -/
  | reservedBits
  /-- `BadWaveform`: raised by the decoder for waveform codes 5 to 7 (R75). Safe. -/
  | badWaveform
  /-- `BadSampleRate`: raised by INIT and RESET for a sample rate that is NaN, infinite, zero or negative (R195). Safe. -/
  | badSampleRate
  /-- `NotInitialised`: raised by PROC while `INITED = 0` (R198). Safe. -/
  | notInitialised
  deriving DecidableEq, Repr

/-- The three phase registers, S0 to S2 (R23). -/
structure OscRegs where
  osc1 : F64
  osc2 : F64
  lfo : F64
  deriving DecidableEq, Repr

/-- The tremolo modulator's registers, S3 and S4 (R24, R25). -/
structure TremRegs where
  modphase : F64
  count : BitVec 32
  deriving DecidableEq, Repr

/-- The filter's history, S5 to S8 (R26). -/
structure FiltRegs where
  x1 : F64
  x2 : F64
  y1 : F64
  y2 : F64
  deriving DecidableEq, Repr

/-- The filter's scratch registers, T0 and T1 (R27). -/
structure ScratchRegs where
  bandcenter : F64
  bandwidth : F64
  deriving DecidableEq, Repr

/-- The envelope generator's registers, S9 to S11 (R28 to R30). -/
structure EnvRegs where
  stage : Stage
  elapsed : BitVec 64
  level : F64
  deriving DecidableEq, Repr

/-- The values the body of PROC names on its way (45_frame R186): the oscillator samples, the mixed signal, the LFO sample,
the tremolo and envelope gains and the output. The MODEL's own fields (entry 10): nothing outside the body reads them, and
the body reads none before writing it. -/
structure Nodes where
  s1 : F64
  s2 : F64
  m : F64
  l : F64
  tg : F64
  g : F64
  out : F64
  deriving DecidableEq, Repr

/-- The state of the core, with the host's pending frames. -/
structure State where
  /-- S0 to S2. -/
  osc : OscRegs
  /-- S3, S4. -/
  trem : TremRegs
  /-- S5 to S8. -/
  filt : FiltRegs
  /-- S9 to S11. -/
  env : EnvRegs
  /-- S12, `SAMPLE_RATE` (R32). -/
  sampleRate : F64
  /-- The flag `INITED` (R31). -/
  inited : Bool
  /-- T0, T1. -/
  scratch : ScratchRegs
  /-- The snapshot `P` latched by the most recent PROC (R40). -/
  snapshot : Snapshot
  /-- `OUT[0 .. N_CHANNELS-1]` of the most recent PROC; empty while there has been none (R41). -/
  out : List F64
  /-- The values of the body of PROC (MODEL's own, entry 10). -/
  nodes : Nodes
  /-- The response frame of the most recent command (R70; MODEL's own, entry 16). -/
  response : List Word
  /-- The frames the host has presented and the core has not yet taken, in the order of issue (R51, R57; MODEL's own, entry
  8). -/
  port : List Frame
  deriving DecidableEq, Repr

/-- Power-on: `INITED = 0` (R235, R31), no output frame (R41), no command pending. Every other register is unspecified by
the spec and no rule reads it before INIT or RESET has written it; the zeros here are DESIGN CHOICE (entries 1, 2, 3). -/
def State.reset : State where
  osc := { osc1 := 0, osc2 := 0, lfo := 0 }
  trem := { modphase := 0, count := 0 }
  filt := { x1 := 0, x2 := 0, y1 := 0, y2 := 0 }
  env := { stage := .idle, elapsed := 0, level := 0 }
  sampleRate := 0
  inited := false
  scratch := { bandcenter := 0, bandwidth := 0 }
  snapshot := Snapshot.blank
  out := []
  nodes := { s1 := 0, s2 := 0, m := 0, l := 0, tg := 0, g := 0, out := 0 }
  response := []
  port := []

end Sys2Proof.Machine
end

