-- ==== Sys2Proof/Machine/Ops.lean ====
section
/-!
DEFINITION. The named operations over the registers, the command port and the response. There is no memory to read or write
(20_memory R50) and no exception to take or return from (60_exceptions R210, R221, R222).
-/

namespace Sys2Proof.Machine

/-! ### Registers (10_state R21, R45) -/

/-- Read of `PHASE[o]` (R23). -/
def phaseOf (o : Osc) (s : State) : F64 :=
  match o with
  | .osc1 => s.osc.osc1
  | .osc2 => s.osc.osc2
  | .lfo => s.osc.lfo

/-- Write of `PHASE[o]`: the other two instances keep theirs (R102). -/
def setPhase (o : Osc) (q : F64) (s : State) : State :=
  match o with
  | .osc1 => { s with osc := { s.osc with osc1 := q } }
  | .osc2 => { s with osc := { s.osc with osc2 := q } }
  | .lfo => { s with osc := { s.osc with lfo := q } }

/-- Write of the tremolo registers. -/
def setTrem (r : TremRegs) (s : State) : State := { s with trem := r }

/-- Write of the filter history and the scratch pair. -/
def setFilt (r : FiltRegs) (t : ScratchRegs) (s : State) : State := { s with filt := r, scratch := t }

/-- Write of the envelope registers. -/
def setEnv (r : EnvRegs) (s : State) : State := { s with env := r }

/-- The latch of step 1 (45_frame R176). -/
def latch (p : Snapshot) (s : State) : State := { s with snapshot := p }

/-! ### Values of the body (45_frame R186) -/

/-- `s1 <- v`. -/
def setS1 (v : F64) (s : State) : State := { s with nodes := { s.nodes with s1 := v } }
/-- `s2 <- v`. -/
def setS2 (v : F64) (s : State) : State := { s with nodes := { s.nodes with s2 := v } }
/-- `m <- v`. -/
def setM (v : F64) (s : State) : State := { s with nodes := { s.nodes with m := v } }
/-- `l <- v`. -/
def setL (v : F64) (s : State) : State := { s with nodes := { s.nodes with l := v } }
/-- `tg <- v`. -/
def setTg (v : F64) (s : State) : State := { s with nodes := { s.nodes with tg := v } }
/-- `g <- v`. -/
def setG (v : F64) (s : State) : State := { s with nodes := { s.nodes with g := v } }

/-- Where an oscillator's sample goes: `s1`, `s2` or `l` (R178, R180). -/
def setSample (o : Osc) (v : F64) (s : State) : State :=
  match o with
  | .osc1 => setS1 v s
  | .osc2 => setS2 v s
  | .lfo => setL v s

/-- Step 2 under mute, and an oscillator that is not invoked: both samples `+0.0` (R177, R178). -/
def zeroSamples (s : State) : State := setS2 0 (setS1 0 s)

/-- `out <- v`, and `OUT[c] <- out` for every channel (R183). -/
def writeOut (channels : Nat) (v : F64) (s : State) : State :=
  { s with nodes := { s.nodes with out := v }, out := List.replicate channels v }

/-! ### Reset (10_state R44, 46_host_commands R195) -/

/-- What INIT and RESET write; the scratch pair, `OUT`, the snapshot and the values of the body are not written (R44). -/
def resetRegs (sr : F64) (s : State) : State :=
  { s with
    osc := { osc1 := 0, osc2 := 0, lfo := 0 }
    trem := { modphase := 0, count := 0 }
    filt := { x1 := 0, x2 := 0, y1 := 0, y2 := 0 }
    env := { stage := .idle, elapsed := 0, level := 0 }
    sampleRate := sr
    inited := true }

/-! ### The command port and the response (20_memory R51, 30_encoding R70) -/

/-- The response frame of a command. -/
def respond (r : List Word) (s : State) : State := { s with response := r }

/-- Take the next frame the host has presented, if any (R51, R57). -/
def takeFrame (s : State) : Option (Frame × State) :=
  match s.port with
  | [] => none
  | f :: rest => some (f, { s with port := rest })

/-- Present a frame so that the core takes it next. -/
def presentNext (f : Frame) (s : State) : State := { s with port := f :: s.port }

/-- A command the core has refused: its frame is gone, nothing responds and no register has changed (R70, R218). -/
def dropRefused (s : State) : State := { s with port := s.port.tail, response := [] }

end Sys2Proof.Machine
end

