-- ==== Sys2Proof/Machine/FilterLaw.lean ====
section
/-!
DEFINITION. The arithmetic of the Bandpass Filter on its operands, its history and the configuration (43_filter R126, R127,
R129 to R131), and the impulse response that rule R135 bounds.
-/

namespace Sys2Proof.Machine

/-- The bilinear-transform bandpass of rule R129, the spec's supplied value of `FILT_COEF` (entry 7). -/
def bandpassCoef (k q : F64) : Coeffs :=
  let kq := fDiv k q
  let kk := fMul k k
  let norm := fDiv one (fAdd (fAdd one kq) kk)
  let b0 := fMul kq norm
  { b0 := b0
    b2 := fNeg b0
    a1 := fMul (fMul two (fSub kk one)) norm
    a2 := fMul (fAdd (fSub one kq) kk) norm }

/-- `bw`, the clamped bandwidth (R126, R127). -/
def bandwidth (c : Config) (lo hi : F64) : F64 := fMax (fSub hi lo) c.bwEps

/-- `fc`, the centre frequency, not clamped (R126). -/
def bandCenter (lo hi : F64) : F64 := fDiv (fAdd hi lo) two

/-- `(b0, b2, a1, a2)` from `k` and `Q`, recomputed on every call (R126, R129, R133). -/
def filtCoeffs (c : Config) (sampleRate lo hi : F64) : Coeffs :=
  c.filtCoef (c.num.tan (fDiv (fMul PI (bandCenter lo hi)) sampleRate))
    (fDiv (bandCenter lo hi) (bandwidth c lo hi))

/-- `y` from the coefficients, the operand and the history (R130). -/
def filtOutput (c : Config) (k : Coeffs) (x : F64) (h : FiltRegs) : F64 :=
  fDiv (fMul c.filtGain (fSub (fSub (fAdd (fMul k.b0 x) (fMul k.b2 h.x2)) (fMul k.a1 h.y1)) (fMul k.a2 h.y2)))
    c.filtA0

/-- The history shift (R131). -/
def filtShift (x y : F64) (h : FiltRegs) : FiltRegs := { x1 := x, x2 := h.x1, y1 := y, y2 := h.y1 }

/-! ### The stability constraint (R135) -/

/-- The first `n` outputs of the filter fed `x` and then `+0.0`, with the coefficients held. -/
def impulseResponse (c : Config) (k : Coeffs) (n : Nat) (x : F64) (h : FiltRegs) : List F64 :=
  match n with
  | 0 => []
  | n + 1 => filtOutput c k x h :: impulseResponse c k n 0 (filtShift x (filtOutput c k x h) h)

/-- `440.0`, `lowCut` of rule R135. -/
def stabLow : F64 := 0x407B800000000000
/-- `1500.0`, `highCut` of rule R135. -/
def stabHigh : F64 := 0x4097700000000000
/-- `44100.0`, the sample rate of rule R135. -/
def stabRate : F64 := 0x40E5888000000000
/-- `10.0`, ten times the unit impulse (R135). -/
def stabBound : F64 := 0x4024000000000000

/-- At most ten in magnitude, so neither a NaN nor an infinity. -/
def withinTen (y : F64) : Bool := fLe (fAbs y) stabBound

/-- Rule R135: over 10,000 samples of the unit impulse no output exceeds ten times the input. -/
@[irreducible] def impulseBounded (c : Config) : Bool :=
  (impulseResponse c (filtCoeffs c stabRate stabLow stabHigh) 10000 one { x1 := 0, x2 := 0, y1 := 0, y2 := 0 }).all
    withinTen

/-- A silent filter over the same functions: `FILT_GAIN = +0.0` and the least bandwidth. It meets rule R135 exactly where some
values of the constants do (`impulseBounded_calmed_of`, Laws/Filter.lean). -/
def calmed (c : Config) : Config := { c with filtGain := 0, filtA0 := one, bwEps := one }

/-- Rule R135 as a constraint on the OPEN constants, the functions being given: the bound holds wherever some values of the
constants meet it (entry 21). -/
def filterStable (c : Config) : Bool := !impulseBounded (calmed c) || impulseBounded c

end Sys2Proof.Machine
end

