-- ==== Sys2Proof/Machine/Params.lean ====
section
/-!
DEFINITION. The configuration parameters with their constraints (00_scope R6, R9, 43_filter R135): what a valid configuration
is, and the machine's own instance `hw`, whose open values range over exactly the valid ones.
-/

namespace Sys2Proof.Machine

/-! ### Constraints -/

/-- Finite and `>= 0` (`TREM_FREQ`, `ENV_SUS_EPS`). -/
def finiteNonneg (x : F64) : Bool := fIsFinite x && fGe x 0
/-- Finite and `> 0` (`BW_EPS`, `ENV_TRUNC`). -/
def finitePos (x : F64) : Bool := fIsFinite x && fGt x 0
/-- Finite and not zero (`FILT_A0`). -/
def finiteNonzero (x : F64) : Bool := fIsFinite x && !fEq x 0
/-- In `[-1, 1]` (SIN_BOUND, COS_BOUND). -/
def inUnitBall (x : F64) : Bool := fLe (fNeg one) x && fLe x one
/-- In `[0, 1]` (FINITE for `exp`). -/
def inUnitInterval (x : F64) : Bool := fLe 0 x && fLe x one
/-- PI/2, the end of TAN_POS's domain (R9, 95_test_vectors). -/
def halfPi : F64 := 0x3FF921FB54442D18

/-- The named properties of `NUM` (R9). -/
structure NumValid (n : NumFns) : Prop where
  /-- SIN_ZERO. -/
  sinZero : n.sin 0 = 0
  /-- COS_ZERO. -/
  cosZero : n.cos 0 = one
  /-- SIN_BOUND, and FINITE for `sin`. -/
  sinBound : ∀ x, fIsFinite x = true → inUnitBall (n.sin x) = true
  /-- COS_BOUND, and FINITE for `cos`. -/
  cosBound : ∀ x, fIsFinite x = true → inUnitBall (n.cos x) = true
  /-- FINITE for `exp`: in `[0, 1]` for a finite operand `<= 0`. -/
  expRange : ∀ x, fIsFinite x = true → fLe x 0 = true → inUnitInterval (n.exp x) = true
  /-- FINITE for `ln`: finite and `> 0` for a finite operand `> 1`. -/
  lnPos : ∀ x, fIsFinite x = true → fGt x one = true → finitePos (n.ln x) = true
  /-- TAN_POS. -/
  tanPos : ∀ x, fLt 0 x = true → fLt x halfPi = true → finitePos (n.tan x) = true

/-- The constraints of rule R6, and the stability constraint of rule R135. -/
structure ConfigValid (c : Config) : Prop where
  nChannels : c.nChannels = 1 ∨ c.nChannels = 2
  lfoAmp : c.lfoAmp = one
  tremFreq : finiteNonneg c.tremFreq = true
  tremPeriod : 1 ≤ c.tremPeriod ∧ c.tremPeriod ≤ 2 ^ 32
  filtGain : fIsFinite c.filtGain = true
  filtA0 : finiteNonzero c.filtA0 = true
  bwEps : finitePos c.bwEps = true
  envTrunc : finitePos c.envTrunc = true
  envSusEps : finiteNonneg c.envSusEps = true
  num : NumValid c.num
  /-- R135: a constraint on `FILT_GAIN`, `FILT_A0` and `BW_EPS` taken together, and none on `NUM` (entry 21). -/
  stable : filterStable c = true

/-! ### The machine's instance -/

/-- An open value, or a default where the open value breaks the constraint: every valid value, and no other, is reached. -/
def constrained (ok : F64 → Bool) (x dflt : F64) : F64 := if ok x then x else dflt

/-- `NUM.sin`: open under SIN_ZERO, SIN_BOUND and FINITE (entry 5). -/
def hwSin (x : F64) : F64 :=
  if x = 0 then 0 else if fIsFinite x then constrained inUnitBall (Open.sin x) 0 else Open.sin x
/-- `NUM.cos`: open under COS_ZERO, COS_BOUND and FINITE (entry 5). -/
def hwCos (x : F64) : F64 :=
  if x = 0 then one else if fIsFinite x then constrained inUnitBall (Open.cos x) 0 else Open.cos x
/-- `NUM.tan`: open under TAN_POS (entry 5). -/
def hwTan (x : F64) : F64 :=
  if fLt 0 x && fLt x halfPi then constrained finitePos (Open.tan x) one else Open.tan x
/-- `NUM.exp`: open under FINITE (entry 5). -/
def hwExp (x : F64) : F64 :=
  if fIsFinite x && fLe x 0 then constrained inUnitInterval (Open.exp x) 0 else Open.exp x
/-- `NUM.ln`: open under FINITE (entry 5). -/
def hwLn (x : F64) : F64 :=
  if fIsFinite x && fGt x one then constrained finitePos (Open.ln x) one else Open.ln x

/-- Every OPEN parameter an open value within its own constraint of rule R6 (entry 4), `LFO_AMP = 1.0` (R115) and `FILT_COEF`
as the spec supplies it (R129); rule R135 not yet imposed. -/
def hwOpen : Config where
  nChannels := Open.channels % 2 + 1
  lfoAmp := one
  tremFreq := constrained finiteNonneg Open.tremFreq one
  tremPeriod := Open.tremPeriod % 2 ^ 32 + 1
  filtGain := constrained fIsFinite Open.filtGain one
  filtA0 := constrained finiteNonzero Open.filtA0 one
  filtCoef := bandpassCoef
  bwEps := constrained finitePos Open.bwEps one
  envTrunc := constrained finitePos Open.envTrunc one
  envSusEps := constrained finiteNonneg Open.envSusEps one
  num := { sin := hwSin, cos := hwCos, tan := hwTan, exp := hwExp, ln := hwLn }

/-- One of two values of a constant the filter reads: the open one where the open constants meet rule R135. -/
def ifStable {α : Type} (x dflt : α) : α := if filterStable hwOpen then x else dflt

/-- The configuration the machine runs with (R6): the open values where the constants meet rule R135, and else a silent filter's
constants, so that every valid configuration, and no other, is reached (entry 21). The functions are the open ones in both cases
(R9). -/
def hw : Config :=
  { hwOpen with
    filtGain := ifStable hwOpen.filtGain (calmed hwOpen).filtGain
    filtA0 := ifStable hwOpen.filtA0 (calmed hwOpen).filtA0
    bwEps := ifStable hwOpen.bwEps (calmed hwOpen).bwEps }

/-- The constants of the reference instantiation `REF` (R6), the spec's own choice for its test vectors and no property of
the hardware; `NUM` is a parameter. -/
def refConfig (num : NumFns) : Config where
  nChannels := 2
  lfoAmp := one
  tremFreq := one
  tremPeriod := 4
  filtGain := one
  filtA0 := one
  filtCoef := bandpassCoef
  bwEps := 0x3EB0C6F7A0B5ED8D
  envTrunc := one
  envSusEps := 0x3F50000000000000
  num := num

end Sys2Proof.Machine
end

