-- ==== Sys2Proof/Machine/Envelope.lean ====
section
/-!
DEFINITION. The Envelope Generator: ENV and ENV_IDLE (44_envelope R145 to R160).
-/

namespace Sys2Proof.Machine

/-- Stage selection from the counter, the level, the sustain level and the counts `A` and `D` (R148). -/
def stageOf (c : Config) (e : Nat) (v sus : F64) (a d : Nat) : Stage :=
  if e < a then .attack
  else if e ≤ a + d then (if fLe (fAbs (fSub v sus)) c.envSusEps then .sustain else .decay)
  else .release

/-- `coef(N)` (R149). -/
def stageCoef (c : Config) (n : Nat) : F64 :=
  c.num.exp (fDiv (fNeg (c.num.ln (fDiv (fAdd one c.envTrunc) c.envTrunc))) (toF64 n))

/-- `target + ((v - target) * k)`: the exponential approach of the Attack and Decay stages (R150, R151). -/
def approach (target v k : F64) : F64 := fAdd target (fMul (fSub v target) k)

/-- The level a stage writes (R150 to R153); `a`, `d`, `r` are the stage counts. Idle is never selected here. -/
def stageLevel (c : Config) (st : Stage) (v sus : F64) (a d r : Nat) : F64 :=
  match st with
  | .attack => approach (fAdd one c.envTrunc) v (stageCoef c a)
  | .decay => approach sus v (stageCoef c d)
  | .sustain => sus
  | .release => fMul v (stageCoef c r)
  | .idle => v

/-- `min(e + 1, 2^64 - 1)` (R155). -/
def elapsedNext (e : BitVec 64) : BitVec 64 := BitVec.ofNat 64 (min (e.toNat + 1) (2 ^ 64 - 1))

/-- The stage `ENV` selects with the times `att`, `dec` in milliseconds (R148, R157: recomputed on every call). -/
def envStage (c : Config) (att dec sus : F64) (s : State) : Stage :=
  stageOf c s.env.elapsed.toNat s.env.level sus (stageCount s.sampleRate att) (stageCount s.sampleRate dec)

/-- The whole of `ENV` (R160); the gain returned is the level before the update (R154). -/
def env (c : Config) (att dec rel sus : F64) (s : State) : F64 × State :=
  (s.env.level,
    setEnv
      { stage := envStage c att dec sus s
        elapsed := elapsedNext s.env.elapsed
        level := stageLevel c (envStage c att dec sus s) s.env.level sus (stageCount s.sampleRate att)
          (stageCount s.sampleRate dec) (stageCount s.sampleRate rel) } s)

/-- `ENV_IDLE()` (R156). -/
def envIdle (s : State) : State := setEnv { stage := .idle, elapsed := 0, level := 0 } s

/-- `g <- ENV() ; m <- m * g` (R182). -/
def runEnv (c : Config) (att dec rel sus : F64) (s : State) : State :=
  setM (fMul s.nodes.m (env c att dec rel sus s).1)
    (setG (env c att dec rel sus s).1 (env c att dec rel sus s).2)

/-- ENV. -/
def execEnv (att dec rel sus : F64) (s : State) : Host.Outcome State Fault Refusal :=
  .next (runEnv hw att dec rel sus s)

/-- ENV_IDLE: the mixed signal is not touched (R182). -/
def execEnvIdle (s : State) : Host.Outcome State Fault Refusal := .next (envIdle s)

end Sys2Proof.Machine
end

