-- ==== Sys2Proof/Machine/Filter.lean ====
section
/-!
DEFINITION. The Bandpass Filter: FILT and FILT.off (43_filter R125 to R134; its arithmetic stands in Machine/FilterLaw.lean).
-/

namespace Sys2Proof.Machine

/-- `FILT(x)`: the output and the state with the history shifted and the scratch pair written (R125, R128, R131). -/
def filt (c : Config) (lo hi x : F64) (s : State) : F64 × State :=
  let y := filtOutput c (filtCoeffs c s.sampleRate lo hi) x s.filt
  (y, setFilt (filtShift x y s.filt) { bandcenter := bandCenter lo hi, bandwidth := bandwidth c lo hi } s)

/-- `m <- FILT(m)` (R181). -/
def runFilt (c : Config) (lo hi : F64) (s : State) : State :=
  setM (filt c lo hi s.nodes.m s).1 (filt c lo hi s.nodes.m s).2

/-- FILT. -/
def execFilt (lo hi : F64) (s : State) : Host.Outcome State Fault Refusal := .next (runFilt hw lo hi s)

/-- FILT.off: passthrough, history and scratch held (R132). -/
def execFiltOff (s : State) : Host.Outcome State Fault Refusal := .next s

end Sys2Proof.Machine
end

