-- ==== Sys2Proof/Machine/Flags.lean ====
section
/-!
DEFINITION. Flag computations: the core has no condition codes (10_state R31); what it tests is `INITED`, kept by
`resetRegs`, and the non-finite check after the body of PROC (45_frame R188, 60_exceptions R220).
-/

namespace Sys2Proof.Machine

/-- The F64 registers S0 to S12 of rule R21, scratch excepted (R186 line 9; entry 12 on `SAMPLE_RATE`). -/
def f64Registers (s : State) : List F64 :=
  [s.osc.osc1, s.osc.osc2, s.osc.lfo, s.trem.modphase, s.filt.x1, s.filt.x2, s.filt.y1, s.filt.y2, s.env.level,
    s.sampleRate]

/-- No F64 register is a NaN or an infinity. -/
def registersFinite (s : State) : Bool := (f64Registers s).all fIsFinite

/-- Line 9 of rule R186: an F64 register or `out` is a NaN or an infinity. -/
def nonFinite (s : State) : Bool := !(registersFinite s && fIsFinite s.nodes.out)

end Sys2Proof.Machine
end

