-- ==== Sys2Proof/Machine/Oscillator.lean ====
section
/-!
DEFINITION. The Phase Oscillator: the operation GEN and its 15 table rows (41_oscillator R90 to R102).
-/

namespace Sys2Proof.Machine

/-- `wave(w, phi, a)`, rules R91 to R95. The sine does not read the amplitude (R91). -/
def wave (c : Config) (w : Waveform) (phi a : F64) : F64 :=
  match w with
  | .sine => c.num.sin phi
  | .square => if fLt phi PI then a else fNeg a
  | .triangle =>
    if fLt phi PI then fMul a (fSub (fDiv (fMul two phi) PI) one)
    else fMul a (fSub three (fDiv (fMul two phi) PI))
  | .sawtooth => fMul a (fSub one (fDiv phi PI))
  | .sawtoothInverse => fMul a (fSub (fDiv phi PI) one)

/-- `inc = (TWO_PI * f) / SAMPLE_RATE` (R96, R98). -/
def phaseInc (sampleRate f : F64) : F64 := fDiv (fMul TWO_PI f) sampleRate

/-- One subtraction of `TWO_PI` at most, when `q >= TWO_PI` (R96). -/
def wrapOnce (q : F64) : F64 := if fGe q TWO_PI then fSub q TWO_PI else q

/-- The phase after a call (R96). -/
def advance (sampleRate f phi : F64) : F64 := wrapOnce (fAdd phi (phaseInc sampleRate f))

/-- `GEN(o, f, w, a)`: the sample at the stored phase, and the state with the phase advanced (R90, R97). -/
def gen (c : Config) (o : Osc) (f : F64) (w : Waveform) (a : F64) (s : State) : F64 × State :=
  (wave c w (phaseOf o s) a, setPhase o (advance s.sampleRate f (phaseOf o s)) s)

/-- GEN with its sample put where the body of PROC wants it (R178, R180). -/
def runGen (c : Config) (o : Osc) (w : Waveform) (f a : F64) (s : State) : State :=
  setSample o (gen c o f w a s).1 (gen c o f w a s).2

/-- GEN.sine@OSC1. -/
def execGenSineOsc1 (f a : F64) (s : State) : Host.Outcome State Fault Refusal := .next (runGen hw .osc1 .sine f a s)
/-- GEN.square@OSC1. -/
def execGenSquareOsc1 (f a : F64) (s : State) : Host.Outcome State Fault Refusal := .next (runGen hw .osc1 .square f a s)
/-- GEN.triangle@OSC1. -/
def execGenTriangleOsc1 (f a : F64) (s : State) : Host.Outcome State Fault Refusal :=
  .next (runGen hw .osc1 .triangle f a s)
/-- GEN.sawtooth@OSC1. -/
def execGenSawtoothOsc1 (f a : F64) (s : State) : Host.Outcome State Fault Refusal :=
  .next (runGen hw .osc1 .sawtooth f a s)
/-- GEN.sawtoothInverse@OSC1. -/
def execGenSawtoothInverseOsc1 (f a : F64) (s : State) : Host.Outcome State Fault Refusal :=
  .next (runGen hw .osc1 .sawtoothInverse f a s)

/-- GEN.sine@OSC2. -/
def execGenSineOsc2 (f a : F64) (s : State) : Host.Outcome State Fault Refusal := .next (runGen hw .osc2 .sine f a s)
/-- GEN.square@OSC2. -/
def execGenSquareOsc2 (f a : F64) (s : State) : Host.Outcome State Fault Refusal := .next (runGen hw .osc2 .square f a s)
/-- GEN.triangle@OSC2. -/
def execGenTriangleOsc2 (f a : F64) (s : State) : Host.Outcome State Fault Refusal :=
  .next (runGen hw .osc2 .triangle f a s)
/-- GEN.sawtooth@OSC2. -/
def execGenSawtoothOsc2 (f a : F64) (s : State) : Host.Outcome State Fault Refusal :=
  .next (runGen hw .osc2 .sawtooth f a s)
/-- GEN.sawtoothInverse@OSC2. -/
def execGenSawtoothInverseOsc2 (f a : F64) (s : State) : Host.Outcome State Fault Refusal :=
  .next (runGen hw .osc2 .sawtoothInverse f a s)

/-- GEN.sine@LFO: the amplitude operand is LFO_AMP (R115). -/
def execGenSineLfo (f : F64) (s : State) : Host.Outcome State Fault Refusal :=
  .next (runGen hw .lfo .sine f hw.lfoAmp s)
/-- GEN.square@LFO (R115). -/
def execGenSquareLfo (f : F64) (s : State) : Host.Outcome State Fault Refusal :=
  .next (runGen hw .lfo .square f hw.lfoAmp s)
/-- GEN.triangle@LFO (R115). -/
def execGenTriangleLfo (f : F64) (s : State) : Host.Outcome State Fault Refusal :=
  .next (runGen hw .lfo .triangle f hw.lfoAmp s)
/-- GEN.sawtooth@LFO (R115). -/
def execGenSawtoothLfo (f : F64) (s : State) : Host.Outcome State Fault Refusal :=
  .next (runGen hw .lfo .sawtooth f hw.lfoAmp s)
/-- GEN.sawtoothInverse@LFO (R115). -/
def execGenSawtoothInverseLfo (f : F64) (s : State) : Host.Outcome State Fault Refusal :=
  .next (runGen hw .lfo .sawtoothInverse f hw.lfoAmp s)

end Sys2Proof.Machine
end

