-- ==== Sys2Proof/Machine/Tremolo.lean ====
section
/-!
DEFINITION. The Tremolo Modulator: TREM, and the LFO step's two no-ops (42_tremolo R110 to R119).
-/

namespace Sys2Proof.Machine

/-- The amplitude law's `gain` (R111). -/
def tremGain (c : Config) (d modphase : F64) : F64 := fAdd one (fMul d (c.num.cos modphase))

/-- The slow phase after a call, from the counter before it; never wrapped (R112). -/
def tremPhase (c : Config) (sampleRate modphase : F64) (count : BitVec 32) : F64 :=
  fAdd modphase (fDiv (fMul (fMul TWO_PI c.tremFreq) (toF64 count.toNat)) sampleRate)

/-- The counter after a call, on integers (R113). -/
def tremCount (c : Config) (count : BitVec 32) : BitVec 32 :=
  if c.tremPeriod ≤ count.toNat + 1 then 0 else BitVec.ofNat 32 (count.toNat + 1)

/-- `TREM(l, d)`: the gain from the stored slow phase, then the slow phase, then the counter (R110, R114). -/
def trem (c : Config) (l d : F64) (s : State) : F64 × State :=
  (fMul l (tremGain c d s.trem.modphase),
    setTrem
      { modphase := tremPhase c s.sampleRate s.trem.modphase s.trem.count
        count := tremCount c s.trem.count } s)

/-- `tg <- TREM(l, d) ; m <- m * tg` (R180). -/
def runTrem (c : Config) (d : F64) (s : State) : State :=
  setM (fMul s.nodes.m (trem c s.nodes.l d s).1) (setTg (trem c s.nodes.l d s).1 (trem c s.nodes.l d s).2)

/-- TREM. -/
def execTrem (d : F64) (s : State) : Host.Outcome State Fault Refusal := .next (runTrem hw d s)

/-- LFO.vibrato: the mixed signal is not multiplied and no LFO or tremolo state advances (R118). -/
def execLfoVibrato (s : State) : Host.Outcome State Fault Refusal := .next s

/-- LFO.off: gain 1, the mixed signal is not multiplied and no state advances (R116). -/
def execLfoOff (s : State) : Host.Outcome State Fault Refusal := .next s

end Sys2Proof.Machine
end

