-- ==== Sys2Proof/Machine/Frame.lean ====
section
/-!
DEFINITION. The Frame Processor: the body of PROC in its strict order (45_frame R175 to R188).
-/

namespace Sys2Proof.Machine

/-- Steps 2 and 3: mute, else each individually enabled oscillator, OSC1 first (R177, R178). -/
def oscSteps (c : Config) (p : Snapshot) (s : State) : State :=
  if p.mute then zeroSamples s
  else
    let s := if p.osc1En then runGen c .osc1 p.osc1Wave p.osc1Freq p.osc1Amp s else setS1 0 s
    if p.osc2En then runGen c .osc2 p.osc2Wave p.osc2Freq p.osc2Amp s else setS2 0 s

/-- Step 4: `m <- s1 + s2` (R179). -/
def mixStep (s : State) : State := setM (fAdd s.nodes.s1 s.nodes.s2) s

/-- Step 5: the LFO and the tremolo in tremolo mode; vibrato and a disabled LFO change nothing (R180, R116, R118). -/
def lfoStep (c : Config) (p : Snapshot) (s : State) : State :=
  if p.lfoEn then
    match p.lfoMode with
    | .tremolo => runTrem c p.lfoDepth (runGen c .lfo p.lfoWave p.lfoFreq c.lfoAmp s)
    | .vibrato => s
  else s

/-- Step 6 (R181, R132). -/
def filtStep (c : Config) (p : Snapshot) (s : State) : State :=
  if p.filtEn then runFilt c p.lowCut p.highCut s else s

/-- Step 7 (R182, R156). -/
def envStep (c : Config) (p : Snapshot) (s : State) : State :=
  if p.envEn then runEnv c p.attackMs p.decayMs p.releaseMs p.sustain s else envIdle s

/-- Step 8: the volume, the mute's forced `+0.0`, every channel (R183, R184). -/
def outStep (c : Config) (p : Snapshot) (s : State) : State :=
  writeOut c.nChannels (if p.mute then 0 else fMul s.nodes.m p.volume) s

/-- Lines 1 to 8 of rule R186. -/
def frameBody (c : Config) (p : Snapshot) (s : State) : State :=
  outStep c p (envStep c p (filtStep c p (lfoStep c p (mixStep (oscSteps c p (latch p s))))))

/-- Line 9 of rule R186: the non-finite check, once, after the body (R188, R219 (4)). -/
def checkFinite (s : State) : Host.Outcome State Fault Refusal :=
  if nonFinite s then .fault .nonFinite else .next s

/-- FRAME (R186). -/
def execFrame (p : Snapshot) (s : State) : Host.Outcome State Fault Refusal := checkFinite (frameBody hw p s)

/-- FRAME.mute: both samples forced to `+0.0` with no oscillator invoked (R177), and the output forced to `+0.0` on every
channel (R184; entry 14). -/
def execFrameMute (s : State) : Host.Outcome State Fault Refusal :=
  .next (writeOut hw.nChannels 0 (zeroSamples s))

end Sys2Proof.Machine
end

