-- ==== Sys2Proof/Machine/HostCommands.lean ====
section
/-!
DEFINITION. The three commands of the host contract (46_host_commands R195 to R199).
-/

namespace Sys2Proof.Machine

/-- What INIT and RESET do with their sample rate: refuse a bad one, else write every register of rule R44; the response is
empty (R195, R70). -/
def initWith (sr : F64) (s : State) : Host.Outcome State Fault Refusal :=
  if badSampleRate sr then .refused .badSampleRate else .next (respond [] (resetRegs sr s))

/-- INIT (R195). -/
def execInit (sr : F64) (s : State) : Host.Outcome State Fault Refusal := initWith sr s

/-- RESET: exactly INIT; `bitDepth` is decoded and not used (R196). -/
def execReset (_bitDepth : BitVec 8) (sr : F64) (s : State) : Host.Outcome State Fault Refusal := initWith sr s

/-- PROC: refused while `INITED = 0`, else FRAME, and the output frame is the response (R197, R198, R70). -/
def execProc (p : Snapshot) (s : State) : Host.Outcome State Fault Refusal :=
  if s.inited then checkFinite (respond (frameBody hw p s).out (frameBody hw p s)) else .refused .notInitialised

end Sys2Proof.Machine
end

