-- ==== Sys2Proof/Machine/Dispatch.lean ====
section
/-!
DEFINITION. One arm per instruction.
-/

namespace Sys2Proof.Machine

def exec (i : Instr) (s : State) : Host.Outcome State Fault Refusal :=
  match i with
  | .init sr => Sys2Proof.Machine.execInit sr s
  | .reset bd sr => Sys2Proof.Machine.execReset bd sr s
  | .proc p => Sys2Proof.Machine.execProc p s
  | .frame p => Sys2Proof.Machine.execFrame p s
  | .frameMute => Sys2Proof.Machine.execFrameMute s
  | .genSineOsc1 f a => Sys2Proof.Machine.execGenSineOsc1 f a s
  | .genSquareOsc1 f a => Sys2Proof.Machine.execGenSquareOsc1 f a s
  | .genTriangleOsc1 f a => Sys2Proof.Machine.execGenTriangleOsc1 f a s
  | .genSawtoothOsc1 f a => Sys2Proof.Machine.execGenSawtoothOsc1 f a s
  | .genSawtoothInverseOsc1 f a => Sys2Proof.Machine.execGenSawtoothInverseOsc1 f a s
  | .genSineOsc2 f a => Sys2Proof.Machine.execGenSineOsc2 f a s
  | .genSquareOsc2 f a => Sys2Proof.Machine.execGenSquareOsc2 f a s
  | .genTriangleOsc2 f a => Sys2Proof.Machine.execGenTriangleOsc2 f a s
  | .genSawtoothOsc2 f a => Sys2Proof.Machine.execGenSawtoothOsc2 f a s
  | .genSawtoothInverseOsc2 f a => Sys2Proof.Machine.execGenSawtoothInverseOsc2 f a s
  | .genSineLfo f => Sys2Proof.Machine.execGenSineLfo f s
  | .genSquareLfo f => Sys2Proof.Machine.execGenSquareLfo f s
  | .genTriangleLfo f => Sys2Proof.Machine.execGenTriangleLfo f s
  | .genSawtoothLfo f => Sys2Proof.Machine.execGenSawtoothLfo f s
  | .genSawtoothInverseLfo f => Sys2Proof.Machine.execGenSawtoothInverseLfo f s
  | .trem d => Sys2Proof.Machine.execTrem d s
  | .lfoVibrato => Sys2Proof.Machine.execLfoVibrato s
  | .lfoOff => Sys2Proof.Machine.execLfoOff s
  | .filt lo hi => Sys2Proof.Machine.execFilt lo hi s
  | .filtOff => Sys2Proof.Machine.execFiltOff s
  | .env a d r l => Sys2Proof.Machine.execEnv a d r l s
  | .envIdle => Sys2Proof.Machine.execEnvIdle s

end Sys2Proof.Machine
end

