-- ==== Sys2Proof/Machine/Step.lean ====
section
/-!
DEFINITION. One step: take the next frame the host has presented, decode it, run it (00_scope R4, 20_memory R57).
-/

namespace Sys2Proof.Machine

/-- The refusal the model records for a frame the decoder refuses (R75, R218). -/
def refusalOf (e : DecodeError) : Refusal :=
  match e with
  | .badLength => .badLength
  | .badOpcode => .badOpcode
  | .reservedBits => .reservedBits
  | .badWaveform => .badWaveform

/-- One step of the core: with no frame presented it is idle and holds its state (R225); else the frame is taken, decoded
and run to completion (R4), decoder refusals first (R219). -/
def step (s : State) : Host.Outcome State Fault Refusal :=
  match takeFrame s with
  | none => .next s
  | some (f, s') =>
    match decode f with
    | .error e => .refused (refusalOf e)
    | .ok i => exec i s'

/-- `s` with the instruction of a table word presented as the next frame (entries 8 and 13). -/
def State.withFetchWord (s : State) (nbits w : Nat) : State := presentNext (tableFrame nbits w) s

end Sys2Proof.Machine
end

