-- ==== Sys2Proof/Machine/Assembler.lean ====
section
/-!
DEFINITION. The text form of commands and its pseudo-instructions (30_encoding R78, R79), read from a list of characters.
-/

namespace Sys2Proof.Machine

/-- The pieces of a line between separators. -/
def splitAt (sep : Char) : List Char → List (List Char)
  | [] => [[]]
  | c :: cs =>
    if c = sep then [] :: splitAt sep cs
    else
      match splitAt sep cs with
      | [] => [[c]]
      | w :: ws => (c :: w) :: ws

/-- What follows a tag. -/
def afterTag : List Char → List Char → Option (List Char)
  | [], t => some t
  | _ :: _, [] => none
  | c :: cs, d :: ds => if c = d then afterTag cs ds else none

/-- A digit of a base up to 16. -/
def digitOf (base : Nat) (c : Char) : Option Nat :=
  let n := c.toNat
  let d :=
    if 48 ≤ n ∧ n ≤ 57 then n - 48
    else if 65 ≤ n ∧ n ≤ 70 then n - 55
    else if 97 ≤ n ∧ n ≤ 102 then n - 87
    else base
  if d < base then some d else none

/-- Digits after an accumulated number. -/
def digitsFrom (base acc : Nat) : List Char → Option Nat
  | [] => some acc
  | c :: cs =>
    match digitOf base c with
    | some d => digitsFrom base (acc * base + d) cs
    | none => none

/-- A number of at least one digit. -/
def natOf (base : Nat) (cs : List Char) : Option Nat := if cs = [] then none else digitsFrom base 0 cs

/-- The nearest F64 to `n * 10^up / 10^down`, with a sign. -/
def decimalValue (neg : Bool) (n up down : Nat) : F64 := fMake neg (roundMag (n * 10 ^ up * 2 ^ 1074) (10 ^ down))

/-- The exponent part of a decimal literal: a power of ten up and one down. -/
def exponentOf : List Char → Option (Nat × Nat)
  | '-' :: cs => (natOf 10 cs).map fun n => (0, n)
  | '+' :: cs => (natOf 10 cs).map fun n => (n, 0)
  | cs => (natOf 10 cs).map fun n => (n, 0)

/-- An unsigned decimal literal with its sign given apart (R78; entry 15 on the literal's form). -/
def decimalOf (neg : Bool) (cs : List Char) : Option F64 :=
  let scaled (mant : List Char) (up down : Nat) : Option F64 :=
    match splitAt '.' mant with
    | [w] => (natOf 10 w).map fun n => decimalValue neg n up down
    | [w, fr] => (natOf 10 (w ++ fr)).map fun n => decimalValue neg n up (down + fr.length)
    | _ => none
  match splitAt 'e' cs with
  | [m] => scaled m 0 0
  | [m, e] => (exponentOf e).bind fun x => scaled m x.1 x.2
  | _ => none

/-- `<num>`: a decimal literal denoting the nearest F64, or `0x` and 16 hexadecimal digits denoting the bits (R78). -/
def numOf (cs : List Char) : Option F64 :=
  match cs with
  | '0' :: 'x' :: hs => if hs.length = 16 then (natOf 16 hs).map fun n => BitVec.ofNat 64 n else none
  | '-' :: ds => decimalOf true ds
  | ds => decimalOf false ds

/-- `<wave>` (R78). -/
def waveOfName (cs : List Char) : Option Waveform :=
  if cs = ['s', 'i', 'n', 'e'] then some .sine
  else if cs = ['s', 'q', 'u', 'a', 'r', 'e'] then some .square
  else if cs = ['t', 'r', 'i', 'a', 'n', 'g', 'l', 'e'] then some .triangle
  else if cs = ['s', 'a', 'w'] then some .sawtooth
  else if cs = ['s', 'a', 'w', 'i', 'n', 'v'] then some .sawtoothInverse
  else none

/-- `<mode>` (R78). -/
def modeOfName (cs : List Char) : Option LfoMode :=
  if cs = ['t', 'r', 'e', 'm', 'o', 'l', 'o'] then some .tremolo
  else if cs = ['v', 'i', 'b', 'r', 'a', 't', 'o'] then some .vibrato
  else none

/-- A group's enable bit, 0 when it starts with `off`, and its fields (R78). -/
def groupOf (cs : List Char) : Bool × List (List Char) :=
  match splitAt ',' cs with
  | ['o', 'f', 'f'] :: fs => (false, fs)
  | fs => (true, fs)

/-- `osc1=...`. -/
def osc1Group (cs : List Char) (p : Snapshot) : Option Snapshot :=
  match groupOf cs with
  | (en, [w, f, a]) => do
    let w ← waveOfName w
    let f ← numOf f
    let a ← numOf a
    some { p with osc1En := en, osc1Wave := w, osc1Freq := f, osc1Amp := a }
  | _ => none

/-- `osc2=...`. -/
def osc2Group (cs : List Char) (p : Snapshot) : Option Snapshot :=
  match groupOf cs with
  | (en, [w, f, a]) => do
    let w ← waveOfName w
    let f ← numOf f
    let a ← numOf a
    some { p with osc2En := en, osc2Wave := w, osc2Freq := f, osc2Amp := a }
  | _ => none

/-- `lfo=...`. -/
def lfoGroup (cs : List Char) (p : Snapshot) : Option Snapshot :=
  match groupOf cs with
  | (en, [w, f, m, d]) => do
    let w ← waveOfName w
    let f ← numOf f
    let m ← modeOfName m
    let d ← numOf d
    some { p with lfoEn := en, lfoWave := w, lfoFreq := f, lfoMode := m, lfoDepth := d }
  | _ => none

/-- `filt=...`. -/
def filtGroup (cs : List Char) (p : Snapshot) : Option Snapshot :=
  match groupOf cs with
  | (en, [lo, hi]) => do
    let lo ← numOf lo
    let hi ← numOf hi
    some { p with filtEn := en, lowCut := lo, highCut := hi }
  | _ => none

/-- `env=...`. -/
def envGroup (cs : List Char) (p : Snapshot) : Option Snapshot :=
  match groupOf cs with
  | (en, [a, d, r, u]) => do
    let a ← numOf a
    let d ← numOf d
    let r ← numOf r
    let u ← numOf u
    some { p with envEn := en, attackMs := a, decayMs := d, releaseMs := r, sustain := u }
  | _ => none

/-- An optional group: absent, it leaves the snapshot and the words as they are. -/
def optionalGroup (tag : List Char) (read : List Char → Snapshot → Option Snapshot) (ws : List (List Char))
    (p : Snapshot) : Option (List (List Char) × Snapshot) :=
  match ws with
  | [] => some ([], p)
  | w :: rest =>
    match afterTag tag w with
    | some cs => (read cs p).map fun p' => (rest, p')
    | none => some (w :: rest, p)

/-- The mandatory volume, last (R78). -/
def volumeOf (ws : List (List Char)) (p : Snapshot) : Option Snapshot :=
  match ws with
  | [w] => do
    let cs ← afterTag ['v', 'o', 'l', '='] w
    let v ← numOf cs
    some { p with volume := v }
  | _ => none

/-- The operands of PROC: the groups in the order of rule R78, absent ones with its defaults. -/
def procOf (ws : List (List Char)) : Option Instr := do
  let (ws, p) ←
    match ws with
    | ['m', 'u', 't', 'e'] :: rest => some (rest, { Snapshot.blank with mute := true })
    | _ => some (ws, Snapshot.blank)
  let (ws, p) ← optionalGroup ['o', 's', 'c', '1', '='] osc1Group ws p
  let (ws, p) ← optionalGroup ['o', 's', 'c', '2', '='] osc2Group ws p
  let (ws, p) ← optionalGroup ['l', 'f', 'o', '='] lfoGroup ws p
  let (ws, p) ← optionalGroup ['f', 'i', 'l', 't', '='] filtGroup ws p
  let (ws, p) ← optionalGroup ['e', 'n', 'v', '='] envGroup ws p
  let p ← volumeOf ws p
  some (.proc p)

/-- One command from its words; `none` where the line is no command of the text form. The number of `bits=` is read as plain
decimal digits: DESIGN CHOICE (entry 15). -/
def commandOf (ws : List (List Char)) : Option Instr :=
  match ws with
  | [['I', 'N', 'I', 'T'], sr] => do
    let cs ← afterTag ['s', 'r', '='] sr
    let x ← numOf cs
    some (.init x)
  | [['R', 'E', 'S', 'E', 'T'], sr, bits] => do
    let cs ← afterTag ['s', 'r', '='] sr
    let x ← numOf cs
    let bs ← afterTag ['b', 'i', 't', 's', '='] bits
    let n ← natOf 10 bs
    if n < 256 then some (.reset (BitVec.ofNat 8 n) x) else none
  | ['P', 'R', 'O', 'C'] :: rest => procOf rest
  | _ => none

/-- A line without its comment, as words: spaces separate, empty words go (R78). -/
def wordsOf (line : List Char) : List (List Char) :=
  (splitAt ' ' (line.takeWhile (· != ';'))).filter (· != [])

/-- One line of text: no command, one command, or `REP <n>: <command>` as `n` copies (R78, R79). DESIGN CHOICE (entry 15):
the three calls of rule R79 are no lines of the text form, and REP takes plain decimal digits and one command on its own
line. -/
def assembleLine (line : List Char) : Option (List Instr) :=
  match wordsOf line with
  | [] => some []
  | ['R', 'E', 'P'] :: n :: rest => do
    let ds ←
      match splitAt ':' n with
      | [ds, []] => some ds
      | _ => none
    let k ← natOf 10 ds
    let i ← commandOf rest
    some (List.replicate k i)
  | ws => (commandOf ws).map fun i => [i]

/-- The frames of a text, line by line; `none` where a line is not of the text form. -/
def assemble (lines : List (List Char)) : Option (List Frame) :=
  match lines with
  | [] => some []
  | l :: rest => do
    let is ← assembleLine l
    let fs ← assemble rest
    some (is.map encode ++ fs)

/-! ### The source's names for the three commands (R79)

Functions from operands to the command, and no lines of the text form: DESIGN CHOICE (entry 15). -/

/-- `initialize(sr)` is `INIT sr=sr`. -/
def callInitialize (sr : F64) : Instr := .init sr
/-- `reset(sr, bd)` is `RESET sr=sr bits=bd`. -/
def callReset (sr : F64) (bd : BitVec 8) : Instr := .reset bd sr
/-- `processSample(...)` is `PROC ...`. -/
def callProcessSample (p : Snapshot) : Instr := .proc p

end Sys2Proof.Machine
end

