-- ==== Sys2Proof/Safety.lean ====
section
/-!
DEFINITION. The terms claims are stated in: the invariants the spec states, the host's duties, the machine as the host sees
it past a refusal, the selected operations in sequence, and the rational value of a binary64.
-/

namespace Sys2Proof.Safety

open Sys2Proof.Machine

/-! ### Values -/

/-- The real value of a finite F64, an exact rational (R7). -/
def valueOf (x : F64) : ℚ := (fInt x : ℚ) / 2 ^ 1074

/-- The value of an F64 that is not a NaN, with the infinities as the ends of the line. -/
def extValueOf (x : F64) : WithBot (WithTop ℚ) :=
  if fIsInf x then (if fSign x then ⊥ else ((⊤ : WithTop ℚ) : WithBot (WithTop ℚ)))
  else ((valueOf x : WithTop ℚ) : WithBot (WithTop ℚ))

/-- `r` is the value nearest to `x`: no finite value is nearer, of two equally near ones `r` is the one with an even
significand, and a non-zero `x` gives `r` its sign (R8: round to nearest, ties to even). -/
def isNearest (r : F64) (x : ℚ) : Prop :=
  fIsFinite r = true ∧ (x ≠ 0 → (fSign r = true ↔ x < 0)) ∧
    ∀ z, fIsFinite z = true →
      |valueOf r - x| ≤ |valueOf z - x| ∧
        (|valueOf r - x| = |valueOf z - x| → valueOf z ≠ valueOf r → fMag r % 2 = 0)

/-- Half a unit past the largest finite value: from here on round to nearest delivers infinity. -/
def overflowBound : ℚ := (2 ^ 54 - 1) * 2 ^ 970

/-- `r` is `x` rounded to binary64: nearest, or infinity with the sign of `x` from the overflow bound on (R8). -/
def roundsTo (r : F64) (x : ℚ) : Prop :=
  (|x| < overflowBound → isNearest r x) ∧
    (overflowBound ≤ |x| → fIsInf r = true ∧ (fSign r = true ↔ x < 0))

/-! ### Invariants -/

/-- `0 <= TREM.COUNT < TREM_PERIOD` (R25, R113). -/
def countInPeriod (s : State) : Prop := s.trem.count.toNat < hw.tremPeriod

/-- The stage is Idle exactly when the counter is 0, and the level is then `+0.0` (R29, R156, R158). -/
def idleMeansZero (s : State) : Prop :=
  (s.env.stage = .idle ↔ s.env.elapsed = 0) ∧ (s.env.stage = .idle → s.env.level = 0)

/-- Once initialised, the sample rate is positive and every F64 register finite (R32, R195, R220). -/
def runningFinite (s : State) : Prop :=
  s.inited = true → registersFinite s = true ∧ fGt s.sampleRate 0 = true

/-- The output frame is absent, or holds `N_CHANNELS` words with one finite value (R41, R183). -/
def outUniform (s : State) : Prop :=
  s.out = [] ∨ ∃ v, fIsFinite v = true ∧ s.out = List.replicate hw.nChannels v

/-- The invariant of every run. -/
def Inv (s : State) : Prop := countInPeriod s ∧ idleMeansZero s ∧ runningFinite s ∧ outUniform s

/-- A phase in `[0, TWO_PI)` (R23, R98). -/
def phaseInRange (x : F64) : Prop := fLe 0 x = true ∧ fLt x TWO_PI = true

/-- All three phase registers in `[0, TWO_PI)`. -/
def phasesInRange (s : State) : Prop :=
  phaseInRange s.osc.osc1 ∧ phaseInRange s.osc.osc2 ∧ phaseInRange s.osc.lfo

/-! ### Duties of the host (70_reset R240) -/

/-- The increment of an oscillator, as computed, is in `[0, TWO_PI)` (R98's premise). -/
def incInRange (sampleRate f : F64) : Prop :=
  fLe 0 (phaseInc sampleRate f) = true ∧ fLt (phaseInc sampleRate f) TWO_PI = true

/-- Every oscillator a snapshot runs has its increment in range (R240). -/
def frequencyDuty (sampleRate : F64) (p : Snapshot) : Prop :=
  (p.mute = false → p.osc1En = true → incInRange sampleRate p.osc1Freq) ∧
    (p.mute = false → p.osc2En = true → incInRange sampleRate p.osc2Freq) ∧
      (p.lfoEn = true → p.lfoMode = .tremolo → incInRange sampleRate p.lfoFreq)

/-- The frame the core takes next keeps the duty. -/
def nextFrameDuty (s : State) : Prop :=
  ∀ f rest p, s.port = f :: rest → decode f = .ok (.proc p) → frequencyDuty s.sampleRate p

/-! ### The machine past a refusal (R70, R218) -/

/-- What the host sees after one command: a completed step goes on, a refused command leaves every register as it was and
its frame is gone, a fault ends the run (`none`; sticky, D34). -/
def hostStep (s : State) : Option State :=
  match step s with
  | .next t => some t
  | .refused _ => some (dropRefused s)
  | .fault _ => none

/-- Two outcomes of one kind, with the same reason, or with next states related by `r`. -/
def outcomesAgree (r : State → State → Prop) :
    Host.Outcome State Fault Refusal → Host.Outcome State Fault Refusal → Prop
  | .next t, .next u => r t u
  | .fault a, .fault b => a = b
  | .refused a, .refused b => a = b
  | .next _, .fault _ => False
  | .next _, .refused _ => False
  | .fault _, .next _ => False
  | .fault _, .refused _ => False
  | .refused _, .next _ => False
  | .refused _, .fault _ => False

/-! ### The selected operations in sequence -/

/-- Instructions run one after the other; a fault or a refusal ends the sequence. -/
def runInstrs : List Instr → State → Host.Outcome State Fault Refusal
  | [], s => .next s
  | i :: is, s =>
    match exec i s with
    | .next t => runInstrs is t
    | .fault r => .fault r
    | .refused r => .refused r

/-- FILT run once for each operand of a list, in order (R125). -/
def feedFilter (lo hi : F64) : List F64 → State → Host.Outcome State Fault Refusal
  | [], s => .next s
  | x :: xs, s =>
    match exec (.filt lo hi) { s with nodes := { s.nodes with m := x } } with
    | .next t => feedFilter lo hi xs t
    | .fault r => .fault r
    | .refused r => .refused r

/-- The registers S0 to S12 and `INITED` (R21, R31): what the components read and keep. -/
def samePersistent (s t : State) : Prop :=
  s.osc = t.osc ∧ s.trem = t.trem ∧ s.filt = t.filt ∧ s.env = t.env ∧ s.sampleRate = t.sampleRate ∧
    s.inited = t.inited

/-- What the host can tell two states by: the persistent registers, the output frame and the response. -/
def sameVisible (s t : State) : Prop := samePersistent s t ∧ s.out = t.out ∧ s.response = t.response

end Sys2Proof.Safety
end

