-- ==== Sys2Proof/Certificates/Slice0/Obligations.lean ====
section
/-!
DEFINITION. The statements for the provers. Each docstring names the rule or section of spec/ it formalises.
-/

open Sys2Proof Sys2Proof.Machine Sys2Proof.Safety

/-! ### Encoding and decoding -/

/-- 30_encoding section 6, the worked encodings: the text form of each of the four commands assembles to the frame the section
gives, and that frame decodes to the command. -/
def Obligations.WorkedEncodingsDecode : Prop :=
  let blank13 : List Word := List.replicate 13 0
  let tone : Snapshot :=
    { Snapshot.blank with osc1En := true, osc1Freq := 0x407B800000000000, osc1Amp := one, volume := one }
  let allOn : Snapshot :=
    { Snapshot.blank with
      mute := true, osc1En := true, osc1Wave := .sawtoothInverse, osc2En := true, osc2Wave := .sawtoothInverse
      lfoEn := true, lfoWave := .sawtoothInverse, lfoMode := .vibrato, filtEn := true, envEn := true }
  assemble ["INIT sr=44100".toList] = some [[0x0000000000000000, 0x40E5888000000000]] ∧
    decode [0x0000000000000000, 0x40E5888000000000] = .ok (.init 0x40E5888000000000) ∧
    assemble ["RESET sr=48000 bits=24".toList] = some [[0x0000000000001801, 0x40E7700000000000]] ∧
    decode [0x0000000000001801, 0x40E7700000000000] = .ok (.reset 24 0x40E7700000000000) ∧
    assemble ["PROC osc1=sine,440,1 vol=1".toList] =
      some [[0x000000000000000A, 0x3FF0000000000000, 0x407B800000000000, 0x3FF0000000000000] ++ List.replicate 10 0] ∧
    decode ([0x000000000000000A, 0x3FF0000000000000, 0x407B800000000000, 0x3FF0000000000000] ++ List.replicate 10 0) =
      .ok (.proc tone) ∧
    assemble ["PROC mute osc1=sawinv,0,0 osc2=sawinv,0,0 lfo=sawinv,0,vibrato,0 filt=0,0 env=0,0,0,0 vol=0".toList] =
      some [0x000000000003CCCE :: blank13] ∧
    decode (0x000000000003CCCE :: blank13) = .ok (.proc allOn)

/-- 30_encoding R77, R75: the decoder's answer on every frame, the checks in the rule's order, written on the header's bits
as numbers. Exactly one case applies to a frame: every frame decodes to one command or is refused for one reason. -/
def Obligations.DecoderChecksInOrder : Prop :=
  ∀ f : Frame,
    let h := (f.headD 0).toNat
    let op := h % 4
    let need := if op = 2 then 14 else 2
    let reservedClear :=
      if op = 0 then h / 4 = 0 else if op = 1 then h / 4 % 64 = 0 ∧ h / 2 ^ 16 = 0 else h / 2 ^ 18 = 0
    let wavesOk := h / 2 ^ 4 % 8 < 5 ∧ h / 2 ^ 8 % 8 < 5 ∧ h / 2 ^ 12 % 8 < 5
    (f.length ≠ 2 ∧ f.length ≠ 14 → decode f = .error .badLength) ∧
      (f.length = 2 ∨ f.length = 14 → op = 3 → decode f = .error .badOpcode) ∧
      (f.length = 2 ∨ f.length = 14 → op ≠ 3 → f.length ≠ need → decode f = .error .badLength) ∧
      (op ≠ 3 → f.length = need → ¬reservedClear → decode f = .error .reservedBits) ∧
      (op = 2 → f.length = need → reservedClear → ¬wavesOk → decode f = .error .badWaveform) ∧
      (op ≠ 3 → f.length = need → reservedClear → (op = 2 → wavesOk) → ∃ i, decode f = .ok i ∧ i.wellFormed = true)

/-- 30_encoding section 3 and R75: the frames the decoder accepts are those that fit a row of the opcode map with every
waveform code defined; the map's match and mask are read from rule R74, not from the decoder. -/
def Obligations.DecoderAcceptsWellFormed : Prop :=
  ∀ f : Frame, (∃ i, decode f = .ok i) ↔ f.wellFormed = true

/-- 30_encoding sections 1 and 2: decode of encode is the command, for every INIT, RESET and PROC with every operand. -/
def Obligations.DecodeEncodeCommand : Prop := ∀ i : Instr, i.wellFormed = true → decode (encode i) = .ok i

/-- 30_encoding sections 1 and 2, the other direction: a frame that decodes is the encoding of what it decodes to, so no
bit of a frame is dropped. -/
def Obligations.EncodeDecodeFrame : Prop := ∀ (f : Frame) (i : Instr), decode f = .ok i → encode i = f

/-- 30_encoding section 3: every operation row's frame decodes to a PROC command that selects that operation, with its
operands. -/
def Obligations.OperationFrameSelectsIt : Prop :=
  ∀ i : Instr, i.wellFormed = false → ∃ p, decode (encode i) = .ok (.proc p) ∧ i ∈ selected p

/-- 30_encoding section 3 and opcode_table.json: a PROC header matches a row's mask and match exactly when the command
selects an operation of that row. -/
def Obligations.TableRowsMatchSelection : Prop :=
  ∀ (p : Snapshot) (i : Instr),
    rowMatches i (procHeader p) = true ↔ ∃ j ∈ selected p, rowPattern j = rowPattern i

/-- opcode_table.json's numbering: a command's frame given as one number, first word lowest, decodes to the command
(the model's own layout, entry 13). -/
def Obligations.TableWordDecodes : Prop :=
  ∀ i : Instr, i.wellFormed = true →
    decodeTableWord (64 * (encode i).length) ((encode i).foldr (fun w acc => w.toNat + 2 ^ 64 * acc) 0) = some i

/-! ### The step and the port -/

/-- 00_scope R4, 20_memory section 3: with no frame presented the core holds its state; a frame that decodes is taken and
run; a frame the decoder refuses is refused for the decoder's reason. The port and the idle step are the model's own
(entry 8). -/
def Obligations.StepRunsDecodedFrame : Prop :=
  ∀ s : State,
    (s.port = [] → step s = .next s) ∧
      ∀ (f : Frame) (rest : List Frame), s.port = f :: rest →
        (∀ i, decode f = .ok i → step s = exec i { s with port := rest }) ∧
          (decode f = .error .badLength → step s = .refused .badLength) ∧
          (decode f = .error .badOpcode → step s = .refused .badOpcode) ∧
          (decode f = .error .reservedBits → step s = .refused .reservedBits) ∧
          (decode f = .error .badWaveform → step s = .refused .badWaveform)

/-- 60_exceptions R218: the refusal reasons are the closed list, each raised on its condition, and a refused command changes
no register and has no response. That the machine goes on past a refusal is entry 11's reading. -/
def Obligations.RefusalsAreTheClosedList : Prop :=
  ∀ (s : State) (r : Refusal), step s = .refused r →
    (∃ f rest, s.port = f :: rest ∧
      ((r = .badLength ∧ decode f = .error .badLength) ∨ (r = .badOpcode ∧ decode f = .error .badOpcode) ∨
        (r = .reservedBits ∧ decode f = .error .reservedBits) ∨ (r = .badWaveform ∧ decode f = .error .badWaveform) ∨
        (r = .badSampleRate ∧
          ∃ sr, (decode f = .ok (.init sr) ∨ ∃ bd, decode f = .ok (.reset bd sr)) ∧
            ¬(fGt sr 0 = true ∧ fIsFinite sr = true)) ∨
        (r = .notInitialised ∧ s.inited = false ∧ ∃ p, decode f = .ok (.proc p)))) ∧
      ∃ t, hostStep s = some t ∧ sameVisible { s with response := [] } t ∧ s.scratch = t.scratch ∧
        s.snapshot = t.snapshot ∧ s.nodes = t.nodes ∧ t.port = s.port.tail

/-- 60_exceptions section 2 (R220) and section 1: the one fault is NonFinite, only a PROC raises it, and only after INIT or
RESET has run. -/
def Obligations.OnlyProcFaults : Prop :=
  ∀ (s : State) (r : Fault), step s = .fault r →
    r = .nonFinite ∧ s.inited = true ∧ ∃ f rest p, s.port = f :: rest ∧ decode f = .ok (.proc p)

/-! ### Power-on, INIT and RESET -/

/-- 46_host_commands R195: INIT with a sample rate that is greater than 0 and not +infinity completes with every register
of the rule written and an empty response; any other sample rate is refused with BadSampleRate. -/
def Obligations.InitWritesEveryRegister : Prop :=
  ∀ (sr : F64) (s : State),
    (fGt sr 0 = true ∧ sr ≠ posInf →
      exec (.init sr) s =
        .next
          { s with
            osc := { osc1 := 0, osc2 := 0, lfo := 0 }
            trem := { modphase := 0, count := 0 }
            filt := { x1 := 0, x2 := 0, y1 := 0, y2 := 0 }
            env := { stage := .idle, elapsed := 0, level := 0 }
            sampleRate := sr
            inited := true
            response := [] }) ∧
      (¬(fGt sr 0 = true ∧ sr ≠ posInf) → exec (.init sr) s = .refused .badSampleRate)

/-- 46_host_commands R196: `RESET(sr, bd) = INIT(sr)` for every bit depth, from any state; it completes for every sample
rate greater than 0 and not +infinity, on a core that was never initialised too. -/
def Obligations.ResetIsInit : Prop :=
  ∀ (bd : BitVec 8) (sr : F64) (s : State),
    exec (.reset bd sr) s = exec (.init sr) s ∧
      (fGt sr 0 = true ∧ sr ≠ posInf →
        ∃ t, exec (.reset bd sr) s = .next t ∧ t.inited = true ∧ t.sampleRate = sr ∧
          t.osc = { osc1 := 0, osc2 := 0, lfo := 0 } ∧ t.trem = { modphase := 0, count := 0 } ∧
          t.filt = { x1 := 0, x2 := 0, y1 := 0, y2 := 0 } ∧ t.env = { stage := .idle, elapsed := 0, level := 0 } ∧
          t.scratch = s.scratch ∧ t.snapshot = s.snapshot ∧ t.out = s.out ∧ t.nodes = s.nodes ∧ t.response = [] ∧
          t.port = s.port)

/-- 20_memory section 2 (idempotence) and 70_reset section 1: what INIT leaves does not depend on the registers before it,
so issuing it again leaves the same registers. -/
def Obligations.InitForgetsThePast : Prop :=
  ∀ (sr : F64) (s s' t t' : State),
    exec (.init sr) s = .next t → exec (.init sr) s' = .next t' → samePersistent t t'

/-- 46_host_commands R198 and 10_state section 3 (R31): a PROC received while `INITED = 0` is refused with NotInitialised,
from every such state; a successful INIT or RESET sets `INITED`, no instruction clears it, and while it is set no PROC is
refused. That `State.reset` is such a state is entry 1's reading (DEDUCED: the reset state is power-on). -/
def Obligations.ProcNeedsInit : Prop :=
  (∀ (p : Snapshot) (s : State), s.inited = false → exec (.proc p) s = .refused .notInitialised) ∧
    State.reset.inited = false ∧
    (∀ (i : Instr) (s t : State), exec i s = .next t →
      (s.inited = true ∨ ∃ sr, i = .init sr ∨ ∃ bd, i = .reset bd sr) → t.inited = true) ∧
    ∀ (p : Snapshot) (s : State) (r : Refusal), s.inited = true → exec (.proc p) s ≠ .refused r

/-- 10_state sections 3 and 4: no instruction but INIT and RESET writes SAMPLE_RATE or INITED, and no instruction takes or
presents a frame. -/
def Obligations.SampleRateOnlyFromReset : Prop :=
  ∀ (i : Instr) (s t : State), exec i s = .next t →
    t.port = s.port ∧
      ((∀ sr, i ≠ .init sr) → (∀ bd sr, i ≠ .reset bd sr) → t.sampleRate = s.sampleRate ∧ t.inited = s.inited)

/-! ### PROC and FRAME -/

/-- 46_host_commands section "PROC" (R197) and 30_encoding R70: once initialised, PROC is FRAME, and its response is the
output frame. -/
def Obligations.ProcIsFrameThenRespond : Prop :=
  ∀ (p : Snapshot) (s : State), s.inited = true →
    outcomesAgree (fun t u => t = { u with response := u.out }) (exec (.proc p) s) (exec (.frame p) s)

/-- 45_frame section 3 (R186) and 30_encoding section 3: the body of PROC is the selected rows of the opcode table run one
after the other: the latch, the mute or oscillator rows, the mix, the LFO, filter and envelope rows, the output, and last
the non-finite check. The model's own in it: the rows as operations on the values of the body (entries 9 and 10), the mute
row's output and the update of `m` inside the rows (entry 14), and SAMPLE_RATE in the check (entry 12). -/
def Obligations.FrameRunsSelectedRows : Prop :=
  ∀ (p : Snapshot) (s : State), ∃ a b,
    runInstrs (selectedOsc p) { s with snapshot := p, nodes := { s.nodes with s1 := 0, s2 := 0 } } = .next a ∧
      runInstrs (selectedLfo p ++ selectedFilt p ++ selectedEnv p)
        { a with nodes := { a.nodes with m := fAdd a.nodes.s1 a.nodes.s2 } } = .next b ∧
      let out := if p.mute then 0 else fMul b.nodes.m p.volume
      let t := { b with nodes := { b.nodes with out := out }, out := List.replicate hw.nChannels out }
      exec (.frame p) s =
        if fIsFinite t.osc.osc1 ∧ fIsFinite t.osc.osc2 ∧ fIsFinite t.osc.lfo ∧ fIsFinite t.trem.modphase ∧
            fIsFinite t.filt.x1 ∧ fIsFinite t.filt.x2 ∧ fIsFinite t.filt.y1 ∧ fIsFinite t.filt.y2 ∧
            fIsFinite t.env.level ∧ fIsFinite t.sampleRate ∧ fIsFinite out
        then .next t else .fault .nonFinite

/-- 45_frame section 2: what a completed PROC leaves unchanged. The oscillators hold under mute or when disabled, the LFO and
the tremolo outside tremolo mode, the filter when disabled; a disabled envelope is idle; the sample rate, INITED and the
pending frames stay; every channel carries the one output, and the response is the output frame. -/
def Obligations.ProcFrameConditions : Prop :=
  ∀ (p : Snapshot) (s t : State), exec (.proc p) s = .next t →
    (p.mute = true ∨ p.osc1En = false → t.osc.osc1 = s.osc.osc1) ∧
      (p.mute = true ∨ p.osc2En = false → t.osc.osc2 = s.osc.osc2) ∧
      (p.lfoEn = false ∨ p.lfoMode = .vibrato → t.osc.lfo = s.osc.lfo ∧ t.trem = s.trem) ∧
      (p.filtEn = false → t.filt = s.filt ∧ t.scratch = s.scratch) ∧
      (p.envEn = false → t.env = { stage := .idle, elapsed := 0, level := 0 }) ∧
      t.sampleRate = s.sampleRate ∧ t.inited = s.inited ∧ t.port = s.port ∧ t.snapshot = p ∧
      t.response = t.out ∧ t.out = List.replicate hw.nChannels t.nodes.out

/-- 45_frame R184: with mute every channel of the output is `+0.0`, whatever the other fields are, and the state evolves as
steps 2 to 7 say: as that of the same command unmuted with both oscillators disabled. -/
def Obligations.MuteForcesOutput : Prop :=
  ∀ (p : Snapshot) (s t : State), p.mute = true → exec (.proc p) s = .next t →
    t.out = List.replicate hw.nChannels 0 ∧ t.response = List.replicate hw.nChannels 0 ∧
      ∀ u, exec (.proc { p with mute := false, osc1En := false, osc2En := false, volume := 0 }) s = .next u →
        samePersistent t u

/-- 45_frame section 4 (R187 (b)) and 43_filter section 2: with the filter and the envelope disabled the output is the mixed
and tremolo signal, `m` after step 5, times the volume, with no other arithmetic: the mix itself with the LFO disabled or in
vibrato mode, and the mix times the tremolo gain in tremolo mode; for the body under every configuration, and for PROC where
it completes. The mute case is MuteForcesOutput. -/
def Obligations.BypassIsTheRawMix : Prop :=
  ∀ (p : Snapshot) (s : State), p.mute = false → p.filtEn = false → p.envEn = false →
    let out (c : Config) : F64 :=
      let s1 := if p.osc1En then wave c p.osc1Wave s.osc.osc1 p.osc1Amp else 0
      let s2 := if p.osc2En then wave c p.osc2Wave s.osc.osc2 p.osc2Amp else 0
      let l := wave c p.lfoWave s.osc.lfo c.lfoAmp
      let tg := fMul l (fAdd one (fMul p.lfoDepth (c.num.cos s.trem.modphase)))
      let m := if p.lfoEn = true ∧ p.lfoMode = .tremolo then fMul (fAdd s1 s2) tg else fAdd s1 s2
      fMul m p.volume
    (∀ c : Config, (frameBody c p s).out = List.replicate c.nChannels (out c)) ∧
      ∀ t, exec (.proc p) s = .next t → t.out = List.replicate hw.nChannels (out hw) ∧ t.response = t.out

/-- 42_tremolo R118: in vibrato mode the LFO step does nothing: whatever its enable bit, waveform, frequency and depth, PROC
has the outcome it has with the LFO disabled, and the snapshot apart the same state; the LFO's phase and the tremolo
registers keep their values. -/
def Obligations.VibratoIsDisabledLfo : Prop :=
  ∀ (p : Snapshot) (w : Waveform) (f d : F64) (s : State), p.lfoMode = .vibrato →
    outcomesAgree (fun t u => t = { u with snapshot := p }) (exec (.proc p) s)
        (exec (.proc { p with lfoEn := false, lfoMode := .tremolo, lfoWave := w, lfoFreq := f, lfoDepth := d }) s) ∧
      ∀ t, exec (.proc p) s = .next t → t.osc.lfo = s.osc.lfo ∧ t.trem = s.trem

/-- 46_host_commands and 45_frame: PROC and FRAME complete in every state whose F64 registers are finite (initialised, for
PROC) when the oscillators are muted or disabled, the LFO disabled or in vibrato mode, the filter and the envelope disabled,
and the volume finite or muted; the next state in full. -/
def Obligations.QuietFrameCompletes : Prop :=
  ∀ (p : Snapshot) (s : State), registersFinite s = true →
    (p.mute = true ∨ p.osc1En = false ∧ p.osc2En = false ∧ fIsFinite p.volume = true) →
    (p.lfoEn = false ∨ p.lfoMode = .vibrato) → p.filtEn = false → p.envEn = false →
      let out : F64 := if p.mute then 0 else fMul 0 p.volume
      let t : State :=
        { s with
          snapshot := p
          env := { stage := .idle, elapsed := 0, level := 0 }
          nodes := { s.nodes with s1 := 0, s2 := 0, m := 0, out := out }
          out := List.replicate hw.nChannels out }
      exec (.frame p) s = .next t ∧
        (s.inited = true → exec (.proc p) s = .next { t with response := List.replicate hw.nChannels out })

/-- 46_host_commands, 45_frame and 41_oscillator: a PROC that runs OSC1 as a square alone completes, for every finite
amplitude, volume in `[0, 1]`, phase in `[0, TWO_PI)` and frequency that keeps the host's duty; its output is the square's
value times the volume. -/
def Obligations.SquareToneCompletes : Prop :=
  ∀ (p : Snapshot) (s : State), s.inited = true → registersFinite s = true →
    p.mute = false → p.osc1En = true → p.osc1Wave = .square → p.osc2En = false → p.lfoEn = false → p.filtEn = false →
    p.envEn = false → fIsFinite p.osc1Amp = true → fLe 0 p.volume = true → fLe p.volume one = true →
    phaseInRange s.osc.osc1 → incInRange s.sampleRate p.osc1Freq →
      ∃ t, exec (.proc p) s = .next t ∧ phaseInRange t.osc.osc1 ∧
        t.response = List.replicate hw.nChannels
          (fMul (fAdd (if fLt s.osc.osc1 PI then p.osc1Amp else fNeg p.osc1Amp) 0) p.volume)

/-- 10_state R27, R40, R41 and section 6: a PROC reads S0 to S12 and INITED and nothing else: two states that agree on
those give outcomes that agree on everything the host can see, whatever their scratch registers, snapshot, output frame and
values of the body. -/
def Obligations.ProcReadsPersistentOnly : Prop :=
  ∀ (p : Snapshot) (s s' : State), samePersistent s s' →
    outcomesAgree sameVisible (exec (.proc p) s) (exec (.proc p) s')

/-! ### FRAME.mute and the oscillators -/

/-- 45_frame R177 and R184, the mute row: both samples and every channel of the output become `+0.0`, no phase moves. The
model's reading of the row (entry 14). -/
def Obligations.MuteRowCompletes : Prop :=
  ∀ s : State,
    exec .frameMute s =
      .next
        { s with
          nodes := { s.nodes with s1 := 0, s2 := 0, out := 0 }
          out := List.replicate hw.nChannels 0 }

/-- 41_oscillator sections 1 to 3, OSC1: each waveform's sample from the phase before the advance, then the advance with
one wrap; nothing else changes. Where the sample goes is the model's own (entry 10). -/
def Obligations.Osc1RowsComplete : Prop :=
  ∀ (f a : F64) (s : State),
    let phi := s.osc.osc1
    let q := fAdd phi (fDiv (fMul TWO_PI f) s.sampleRate)
    let q' := if fGe q TWO_PI then fSub q TWO_PI else q
    let done (v : F64) : Host.Outcome State Fault Refusal :=
      .next { s with osc := { s.osc with osc1 := q' }, nodes := { s.nodes with s1 := v } }
    exec (.genSineOsc1 f a) s = done (hw.num.sin phi) ∧
      exec (.genSquareOsc1 f a) s = done (if fLt phi PI then a else fNeg a) ∧
      exec (.genTriangleOsc1 f a) s =
        done (if fLt phi PI then fMul a (fSub (fDiv (fMul two phi) PI) one)
          else fMul a (fSub three (fDiv (fMul two phi) PI))) ∧
      exec (.genSawtoothOsc1 f a) s = done (fMul a (fSub one (fDiv phi PI))) ∧
      exec (.genSawtoothInverseOsc1 f a) s = done (fMul a (fSub (fDiv phi PI) one))

/-- 41_oscillator sections 1 to 3, OSC2. -/
def Obligations.Osc2RowsComplete : Prop :=
  ∀ (f a : F64) (s : State),
    let phi := s.osc.osc2
    let q := fAdd phi (fDiv (fMul TWO_PI f) s.sampleRate)
    let q' := if fGe q TWO_PI then fSub q TWO_PI else q
    let done (v : F64) : Host.Outcome State Fault Refusal :=
      .next { s with osc := { s.osc with osc2 := q' }, nodes := { s.nodes with s2 := v } }
    exec (.genSineOsc2 f a) s = done (hw.num.sin phi) ∧
      exec (.genSquareOsc2 f a) s = done (if fLt phi PI then a else fNeg a) ∧
      exec (.genTriangleOsc2 f a) s =
        done (if fLt phi PI then fMul a (fSub (fDiv (fMul two phi) PI) one)
          else fMul a (fSub three (fDiv (fMul two phi) PI))) ∧
      exec (.genSawtoothOsc2 f a) s = done (fMul a (fSub one (fDiv phi PI))) ∧
      exec (.genSawtoothInverseOsc2 f a) s = done (fMul a (fSub (fDiv phi PI) one))

/-- 41_oscillator sections 1 to 3 and 42_tremolo section 2, LFO: the amplitude operand is `LFO_AMP = 1.0`. -/
def Obligations.LfoRowsComplete : Prop :=
  ∀ (f : F64) (s : State),
    let phi := s.osc.lfo
    let q := fAdd phi (fDiv (fMul TWO_PI f) s.sampleRate)
    let q' := if fGe q TWO_PI then fSub q TWO_PI else q
    let done (v : F64) : Host.Outcome State Fault Refusal :=
      .next { s with osc := { s.osc with lfo := q' }, nodes := { s.nodes with l := v } }
    exec (.genSineLfo f) s = done (hw.num.sin phi) ∧
      exec (.genSquareLfo f) s = done (if fLt phi PI then one else fNeg one) ∧
      exec (.genTriangleLfo f) s =
        done (if fLt phi PI then fMul one (fSub (fDiv (fMul two phi) PI) one)
          else fMul one (fSub three (fDiv (fMul two phi) PI))) ∧
      exec (.genSawtoothLfo f) s = done (fMul one (fSub one (fDiv phi PI))) ∧
      exec (.genSawtoothInverseLfo f) s = done (fMul one (fSub (fDiv phi PI) one))

/-- 41_oscillator section 2 (R91): on every instance the sine's sample is `NUM.sin` of the phase and does not read the
amplitude (a NaN or infinite one has no effect). That it is `+0.0` at phase `+0.0` and in `[-1, 1]` at every finite phase
the rule gives under SIN_ZERO and SIN_BOUND, which the model builds into NUM (entry 5, DEDUCED). -/
def Obligations.SineIgnoresAmplitude : Prop :=
  ∀ (f a b : F64) (s : State), ∃ t u v,
    exec (.genSineOsc1 f a) s = .next t ∧ exec (.genSineOsc2 f a) s = .next u ∧ exec (.genSineLfo f) s = .next v ∧
      exec (.genSineOsc1 f b) s = .next t ∧ exec (.genSineOsc2 f b) s = .next u ∧
      t.nodes.s1 = hw.num.sin s.osc.osc1 ∧ u.nodes.s2 = hw.num.sin s.osc.osc2 ∧ v.nodes.l = hw.num.sin s.osc.lfo ∧
      hw.num.sin 0 = 0 ∧
      ∀ phi, fIsFinite phi = true → fLe (fNeg one) (hw.num.sin phi) = true ∧ fLe (hw.num.sin phi) one = true

/-- 41_oscillator section 2, the corner cases of the four shapes that read the amplitude: at phase `+0.0` the square and the
sawtooth give `a`, the triangle and the inverse sawtooth `-a`; at `PI` the square gives `-a` and the triangle `a`; a NaN
phase gives the square's `-a`. For every amplitude that is not a NaN. -/
def Obligations.WaveCornerValues : Prop :=
  ∀ a : F64, fIsNaN a = false →
    wave hw .square 0 a = a ∧ wave hw .sawtooth 0 a = a ∧ wave hw .triangle 0 a = fNeg a ∧
      wave hw .sawtoothInverse 0 a = fNeg a ∧ wave hw .square PI a = fNeg a ∧ wave hw .triangle PI a = a ∧
      ∀ phi, fIsNaN phi = true → wave hw .square phi a = fNeg a

/-- 41_oscillator section 2 (R95): for every phase and amplitude the two sawtooths differ only in sign, except that a zero
result may differ in the sign of zero; they are NaN together. -/
def Obligations.SawtoothsAreOpposite : Prop :=
  ∀ phi a : F64,
    let x := wave hw .sawtooth phi a
    let y := wave hw .sawtoothInverse phi a
    (fIsNaN x = true ∧ fIsNaN y = true) ∨ y = fNeg x ∨ (fMag x = 0 ∧ fMag y = 0)

/-- 41_oscillator R98: if before a call the phase is in `[0, TWO_PI)` and the increment as computed is in `[0, TWO_PI)`,
then after the call the phase is in `[0, TWO_PI)`, for every instance and waveform; the reset value meets the premise. -/
def Obligations.WrapInvariant : Prop :=
  phaseInRange 0 ∧
    ∀ (w : Waveform) (f a : F64) (s : State), incInRange s.sampleRate f →
      (phaseInRange s.osc.osc1 → ∃ t, exec (genOsc1 w f a) s = .next t ∧ phaseInRange t.osc.osc1) ∧
        (phaseInRange s.osc.osc2 → ∃ t, exec (genOsc2 w f a) s = .next t ∧ phaseInRange t.osc.osc2) ∧
        (phaseInRange s.osc.lfo → ∃ t, exec (genLfo w f) s = .next t ∧ phaseInRange t.osc.lfo)

/-- 41_oscillator section 3 and 70_reset section 3 (R240): while the host keeps the frequency duty in the frame it presents,
a step keeps all three phases in `[0, TWO_PI)`. -/
def Obligations.PhasesStayInRange : Prop :=
  ∀ s t : State, phasesInRange s → nextFrameDuty s → step s = .next t → phasesInRange t

/-- 41_oscillator section 3, corner cases of the advance, on each of the three instances: a frequency `+0.0` leaves a phase
of `[0, TWO_PI)` with a clear sign bit unchanged, and a NaN frequency makes the phase a NaN; for the sample rates INIT and
RESET accept. -/
def Obligations.AdvanceCornerCases : Prop :=
  ∀ (w : Waveform) (a : F64) (s : State), fGt s.sampleRate 0 = true → fIsFinite s.sampleRate = true →
    (phaseInRange s.osc.osc1 → fSign s.osc.osc1 = false → ∃ t, exec (genOsc1 w 0 a) s = .next t ∧ t.osc = s.osc) ∧
      (phaseInRange s.osc.osc2 → fSign s.osc.osc2 = false → ∃ t, exec (genOsc2 w 0 a) s = .next t ∧ t.osc = s.osc) ∧
      (phaseInRange s.osc.lfo → fSign s.osc.lfo = false → ∃ t, exec (genLfo w 0) s = .next t ∧ t.osc = s.osc) ∧
      ∀ f, fIsNaN f = true → ∃ t u v,
        exec (genOsc1 w f a) s = .next t ∧ exec (genOsc2 w f a) s = .next u ∧ exec (genLfo w f) s = .next v ∧
          fIsNaN t.osc.osc1 = true ∧ fIsNaN u.osc.osc2 = true ∧ fIsNaN v.osc.lfo = true

/-! ### The tremolo -/

/-- 42_tremolo section 1 and 45_frame section 2: TREM's gain from the slow phase before the advance, the slow phase advanced
with the counter before its increment, the counter, and the mixed signal times the result; nothing else changes. That the
row includes the product is the model's reading (entry 14). -/
def Obligations.TremRowCompletes : Prop :=
  ∀ (d : F64) (s : State),
    let gain := fAdd one (fMul d (hw.num.cos s.trem.modphase))
    let tg := fMul s.nodes.l gain
    exec (.trem d) s =
      .next
        { s with
          trem :=
            { modphase :=
                fAdd s.trem.modphase
                  (fDiv (fMul (fMul TWO_PI hw.tremFreq) (toF64 s.trem.count.toNat)) s.sampleRate)
              count :=
                if s.trem.count.toNat + 1 ≥ hw.tremPeriod then 0 else BitVec.ofNat 32 (s.trem.count.toNat + 1) }
          nodes := { s.nodes with tg := tg, m := fMul s.nodes.m tg } }

/-- 42_tremolo R113: the counter is 0 once it reaches the period and else one more, as integers with no overflow, and is
below the period after every call and after INIT. -/
def Obligations.TremCounterCycles : Prop :=
  (∀ (d : F64) (s : State), ∃ t, exec (.trem d) s = .next t ∧
    t.trem.count.toNat = (if s.trem.count.toNat + 1 ≥ hw.tremPeriod then 0 else s.trem.count.toNat + 1) ∧
      t.trem.count.toNat < hw.tremPeriod) ∧
    ∀ (sr : F64) (s t : State), exec (.init sr) s = .next t → t.trem.count.toNat < hw.tremPeriod

/-- 42_tremolo section 1 (R111), corner cases of the amplitude law: depth `+0.0` returns the LFO sample itself for a finite
slow phase; after reset's slow phase `+0.0` the gain is `1.0 + d`; for a depth in `[0, 1]` and an LFO sample 1.0 the result is
in `[0, 2]`. The rule gives these for a finite cosine and under COS_ZERO and COS_BOUND, which the model builds into NUM
(entry 5, DEDUCED). -/
def Obligations.TremoloDepthLaw : Prop :=
  ∀ (d : F64) (s : State), ∃ t u,
    exec (.trem d) s = .next t ∧ exec (.trem 0) s = .next u ∧
      (fIsFinite s.trem.modphase = true → fIsNaN s.nodes.l = false → u.nodes.tg = s.nodes.l) ∧
      (s.trem.modphase = 0 → s.nodes.l = one → fIsNaN d = false → t.nodes.tg = fAdd one d) ∧
      (fIsFinite s.trem.modphase = true → s.nodes.l = one → fLe 0 d = true → fLe d one = true →
        fLe 0 t.nodes.tg = true ∧ fLe t.nodes.tg two = true)

/-- 42_tremolo sections 1 and 2, 43_filter section 2: the LFO-off, vibrato and filter-off rows complete and change
nothing. -/
def Obligations.PassThroughRowsComplete : Prop :=
  ∀ s : State, exec .lfoOff s = .next s ∧ exec .lfoVibrato s = .next s ∧ exec .filtOff s = .next s

/-! ### The filter -/

/-- 43_filter section 1 and 45_frame section 2: FILT on the mixed signal with every intermediate of rules R126 to R131
written out; the coefficient formulas are the spec's supplied value of FILT_COEF (entry 7, PRESUMED), and that the row
writes the mixed signal is the model's reading (entry 14); nothing else changes. -/
def Obligations.FiltRowCompletes : Prop :=
  ∀ (lo hi : F64) (s : State),
    let diff := fSub hi lo
    let bw := if fGe diff hw.bwEps then diff else hw.bwEps
    let fc := fDiv (fAdd hi lo) two
    let q := fDiv fc bw
    let k := hw.num.tan (fDiv (fMul PI fc) s.sampleRate)
    let kq := fDiv k q
    let kk := fMul k k
    let norm := fDiv one (fAdd (fAdd one kq) kk)
    let b0 := fMul kq norm
    let b2 := fNeg b0
    let a1 := fMul (fMul two (fSub kk one)) norm
    let a2 := fMul (fAdd (fSub one kq) kk) norm
    let x := s.nodes.m
    let acc := fSub (fSub (fAdd (fMul b0 x) (fMul b2 s.filt.x2)) (fMul a1 s.filt.y1)) (fMul a2 s.filt.y2)
    let y := fDiv (fMul hw.filtGain acc) hw.filtA0
    exec (.filt lo hi) s =
      .next
        { s with
          filt := { x1 := x, x2 := s.filt.x1, y1 := y, y2 := s.filt.y1 }
          scratch := { bandcenter := fc, bandwidth := bw }
          nodes := { s.nodes with m := y } }

/-- 43_filter section 1 (R131): the history shifts by one call, and the `y` stored is the output of the call. That `x` and `y`
are the mixed signal the row reads and writes is the model's reading (entry 14); the value of `y` is FiltRowCompletes. -/
def Obligations.FilterHistoryShifts : Prop :=
  ∀ (lo hi lo' hi' : F64) (s : State), ∃ t u,
    exec (.filt lo hi) s = .next t ∧ exec (.filt lo' hi') t = .next u ∧
      t.filt.x2 = s.filt.x1 ∧ t.filt.x1 = s.nodes.m ∧ t.filt.y2 = s.filt.y1 ∧ t.filt.y1 = t.nodes.m ∧
      u.filt.x2 = s.nodes.m ∧ u.filt.x1 = t.nodes.m ∧ u.filt.y2 = t.nodes.m ∧ u.filt.y1 = u.nodes.m

/-- 43_filter section 1 (R127) and 60_exceptions section 1 (R212): FILT writes the clamped bandwidth, and for every finite
`BW_EPS > 0` the clamped bandwidth is never below `BW_EPS`, so never zero, negative or NaN: it is `BW_EPS` for every difference
that is not at least `BW_EPS` (a small positive one, a degenerate or unordered pair of cut-offs, a NaN), and the difference
otherwise. -/
def Obligations.BandwidthNeverZero : Prop :=
  ∀ (lo hi : F64) (s : State),
    (∃ t, exec (.filt lo hi) s = .next t ∧ t.scratch.bandwidth = bandwidth hw lo hi) ∧ finitePos hw.bwEps = true ∧
      ∀ c : Config, finitePos c.bwEps = true →
        fGe (bandwidth c lo hi) c.bwEps = true ∧ fGt (bandwidth c lo hi) 0 = true ∧
          (fGe (fSub hi lo) c.bwEps = false → bandwidth c lo hi = c.bwEps) ∧
          (fLe hi lo = true ∨ fIsNaN hi = true ∨ fIsNaN lo = true → bandwidth c lo hi = c.bwEps) ∧
          (fGe (fSub hi lo) c.bwEps = true → bandwidth c lo hi = fSub hi lo)

/-- 43_filter section 1 (R135): for cut-offs 440 and 1500 at 44100 Hz, from a cleared history, FILT completes on the unit
impulse and on every `+0.0` after it, its outputs being the impulse response; and under every valid configuration none of the
first 10,000 outputs exceeds ten times the input, with the tangent correctly rounded and with every tangent for which some
values of `FILT_GAIN`, `FILT_A0` and `BW_EPS` meet that bound. The rule makes this a constraint on those constants, which the
model imposes on its configuration; rule R9 leaves the tangent open (entry 21, DEDUCED). -/
def Obligations.ImpulseResponseBounded : Prop :=
  let lo : F64 := 0x407B800000000000
  let hi : F64 := 0x4097700000000000
  let rate : F64 := 0x40E5888000000000
  let cleared : FiltRegs := { x1 := 0, x2 := 0, y1 := 0, y2 := 0 }
  (∀ (n : Nat) (s : State), s.sampleRate = rate → s.filt = cleared →
    ∃ t, feedFilter lo hi (one :: List.replicate n 0) s = .next t ∧
      (impulseResponse hw (filtCoeffs hw rate lo hi) (n + 1) one cleared).getLast? = some t.nodes.m) ∧
    ∀ (c : Config) (gain a0 eps : F64), ConfigValid c → c.filtCoef = bandpassCoef →
      (c.num.tan (fDiv (fMul PI (bandCenter lo hi)) rate) = 0x3FB1B7CFA45FE5FF ∨
        impulseBounded { c with filtGain := gain, filtA0 := a0, bwEps := eps } = true) →
      ∀ y ∈ impulseResponse c (filtCoeffs c rate lo hi) 10000 one cleared, fIsFinite y = true ∧ |valueOf y| ≤ 10

/-! ### The envelope -/

/-- 44_envelope sections 1 to 4 and 45_frame section 2: ENV with the counts, the stage, the level each stage writes, the
saturating counter, the gain before the update, and the mixed signal times the gain; nothing else changes. The coefficient
`exp(-ln((1 + T) / T) / N)` and the attack target `1 + T` are the spec's from general knowledge (entry 18, PRESUMED), and that
the row includes the product is the model's reading (entry 14). -/
def Obligations.EnvRowCompletes : Prop :=
  ∀ (att dec rel sus : F64) (s : State),
    let a := stageCount s.sampleRate att
    let d := stageCount s.sampleRate dec
    let r := stageCount s.sampleRate rel
    let e := s.env.elapsed.toNat
    let v := s.env.level
    let coef (n : Nat) :=
      hw.num.exp (fDiv (fNeg (hw.num.ln (fDiv (fAdd one hw.envTrunc) hw.envTrunc))) (toF64 n))
    let near := fLe (fAbs (fSub v sus)) hw.envSusEps
    let target := fAdd one hw.envTrunc
    exec (.env att dec rel sus) s =
      .next
        { s with
          env :=
            { stage := if e < a then .attack else if e ≤ a + d then (if near then .sustain else .decay) else .release
              elapsed := BitVec.ofNat 64 (min (e + 1) (2 ^ 64 - 1))
              level :=
                if e < a then fAdd target (fMul (fSub v target) (coef a))
                else if e ≤ a + d then (if near then sus else fAdd sus (fMul (fSub v sus) (coef d)))
                else fMul v (coef r) }
          nodes := { s.nodes with g := v, m := fMul s.nodes.m v } }

/-- 44_envelope R147: a stage count is 1 for a time of less than one sample, negative or NaN, `2^62` from `2^62` samples
on, and else the number of samples rounded toward zero; always from 1 to `2^62`. -/
def Obligations.StageCountClamped : Prop :=
  ∀ sr ms : F64,
    let x := fDiv (fMul sr ms) thousand
    (fGe x one = false → stageCount sr ms = 1) ∧
      (fGe x twoPow62 = true → stageCount sr ms = 2 ^ 62) ∧
      (fGe x one = true → fGe x twoPow62 = false → (stageCount sr ms : ℤ) = ⌊valueOf x⌋) ∧
      1 ≤ stageCount sr ms ∧ stageCount sr ms ≤ 2 ^ 62

/-- 44_envelope R155: the counter goes up by one at the end of every ENV call and stays at `2^64 - 1` once there, where
every time selects Release. -/
def Obligations.ElapsedSaturates : Prop :=
  ∀ (att dec rel sus : F64) (s : State), ∃ t, exec (.env att dec rel sus) s = .next t ∧
    t.env.elapsed.toNat = min (s.env.elapsed.toNat + 1) (2 ^ 64 - 1) ∧ t.env.elapsed ≠ 0 ∧
      (s.env.elapsed.toNat = 2 ^ 64 - 1 → t.env.stage = .release)

/-- 44_envelope R156: ENV_IDLE forces stage Idle, counter 0 and level `+0.0` and touches nothing else, the mixed signal left
unmultiplied; it runs on every PROC with the envelope disabled. -/
def Obligations.IdleRowCompletes : Prop :=
  (∀ s : State, exec .envIdle s = .next { s with env := { stage := .idle, elapsed := 0, level := 0 } }) ∧
    ∀ (p : Snapshot) (s t : State), p.envEn = false → exec (.proc p) s = .next t →
      t.env = { stage := .idle, elapsed := 0, level := 0 }

/-- 44_envelope section 3 (R158): after an idle call the next ENV call is Attack whatever the times, returns gain `+0.0` and
leaves the counter at 1; ENV never selects Idle. -/
def Obligations.EnableStartsAttack : Prop :=
  ∀ (att dec rel sus : F64) (s : State), ∃ i t u,
    exec .envIdle s = .next i ∧ exec (.env att dec rel sus) i = .next t ∧ exec (.env att dec rel sus) s = .next u ∧
      t.env.stage = .attack ∧ t.nodes.g = 0 ∧ t.env.elapsed = 1 ∧ u.env.stage ≠ .idle

/-- 44_envelope section 2 (R153), monotonicity of Release, for every configuration within the constraints: the ratio
`(1 + ENV_TRUNC) / ENV_TRUNC` as computed is 1.0, infinite, or finite and above 1.0, and from a finite level `>= 0` the Release
update does not raise the level and keeps it `>= 0`. At a ratio of 1.0 or infinity (a huge or a tiny `ENV_TRUNC`) R9 says
nothing of the logarithm, nor of the exponential of `-infinity`; there, and only there, a premise gives the values the exact
functions have. The coefficient's formula is entry 18 (PRESUMED). -/
def Obligations.ReleaseNeverRises : Prop :=
  ∀ (c : Config) (n : Nat) (v : F64), ConfigValid c → 1 ≤ n → n ≤ 2 ^ 62 →
    let ratio := fDiv (fAdd one c.envTrunc) c.envTrunc
    (ratio = one ∨ ratio = posInf ∨ fIsFinite ratio = true ∧ fGt ratio one = true) ∧
      ((ratio = one → finiteNonneg (c.num.ln one) = true) →
        (ratio = posInf → c.num.ln posInf = posInf ∧ inUnitInterval (c.num.exp (fNeg posInf)) = true) →
          fIsFinite v = true → fLe 0 v = true →
            fLe 0 (stageLevel c .release v 0 1 1 n) = true ∧ fLe (stageLevel c .release v 0 1 1 n) v = true)

/-! ### Invariants -/

/-- The machine's invariant holds at power-on, and all phases are in range there (the power-on values are the model's
choice, entry 2). -/
def Obligations.PowerOnMeetsInvariant : Prop := Inv State.reset ∧ phasesInRange State.reset

/-- Every step keeps the invariant: the tremolo counter below its period (R25), Idle exactly with counter 0 and level `+0.0`
(R29, R156), once initialised a positive sample rate and finite registers (R32, R220), and one finite value on every
channel (R183). -/
def Obligations.StepKeepsInvariant : Prop := ∀ s t : State, Inv s → step s = .next t → Inv t

/-- Past refusals too: the machine as the host sees it, which drops a refused command and goes on (entry 11), keeps the
invariant. -/
def Obligations.HostStepKeepsInvariant : Prop := ∀ s t : State, Inv s → hostStep s = some t → Inv t

/-! ### Numerics and configuration -/

/-- 00_scope section 5 (R8): on finite operands the four operations deliver the exact result rounded to nearest, ties to
even, and infinity from the overflow bound on. -/
def Obligations.OperationsRoundToNearest : Prop :=
  ∀ a b : F64, fIsFinite a = true → fIsFinite b = true →
    roundsTo (fAdd a b) (valueOf a + valueOf b) ∧ roundsTo (fSub a b) (valueOf a - valueOf b) ∧
      roundsTo (fMul a b) (valueOf a * valueOf b) ∧ (valueOf b ≠ 0 → roundsTo (fDiv a b) (valueOf a / valueOf b))

/-- 00_scope section 5 (R8), the special operands of the IEEE 754 operations: NaN in, NaN out; the invalid operations deliver
NaN; infinities in every position with their sign; a product and a quotient that are no NaN have the product of the signs,
zeros and infinities too; an exact zero of a sum or a difference is `-0.0` only where both terms are negative zeros; negation
and absolute value change the sign bit only. The bits of a delivered NaN are free (entry 6). -/
def Obligations.SpecialOperands : Prop :=
  ∀ a b : F64,
    (fIsNaN a = true ∨ fIsNaN b = true →
      fIsNaN (fAdd a b) = true ∧ fIsNaN (fSub a b) = true ∧ fIsNaN (fMul a b) = true ∧ fIsNaN (fDiv a b) = true) ∧
      (fIsInf a = true → fIsInf b = true →
        fIsNaN (fDiv a b) = true ∧ fIsInf (fMul a b) = true ∧
          (fSign a ≠ fSign b → fIsNaN (fAdd a b) = true ∧ fSub a b = a) ∧
          (fSign a = fSign b → fIsNaN (fSub a b) = true ∧ fAdd a b = a)) ∧
      (fIsInf a = true → fIsFinite b = true →
        fAdd a b = a ∧ fSub a b = a ∧ fAdd b a = a ∧ fSub b a = fNeg a ∧ fMag (fDiv b a) = 0 ∧
          fIsInf (fDiv a b) = true ∧ (valueOf b = 0 → fIsNaN (fMul a b) = true ∧ fIsNaN (fMul b a) = true) ∧
          (valueOf b ≠ 0 → fIsInf (fMul a b) = true ∧ fIsInf (fMul b a) = true)) ∧
      (fIsFinite a = true → valueOf b = 0 → fIsFinite b = true →
        (valueOf a = 0 → fIsNaN (fDiv a b) = true) ∧ (valueOf a ≠ 0 → fIsInf (fDiv a b) = true)) ∧
      (fIsFinite a = true → fIsFinite b = true → valueOf a + valueOf b = 0 →
        fMag (fAdd a b) = 0 ∧ (fSign (fAdd a b) = true ↔ fSign a = true ∧ fSign b = true)) ∧
      (fIsFinite a = true → fIsFinite b = true → valueOf a - valueOf b = 0 →
        fMag (fSub a b) = 0 ∧ (fSign (fSub a b) = true ↔ fSign a = true ∧ fSign b = false)) ∧
      (fIsNaN (fMul a b) = false → fSign (fMul a b) = (fSign a != fSign b)) ∧
      (fIsNaN (fDiv a b) = false → fSign (fDiv a b) = (fSign a != fSign b)) ∧
      fMag (fNeg a) = fMag a ∧ fSign (fNeg a) = (!fSign a) ∧ fMag (fAbs a) = fMag a ∧ fSign (fAbs a) = false

/-- 00_scope R11: for operands that are not NaN the five comparisons are the order of their values, infinities at the ends;
each is false with a NaN operand; both zeros are equal; `max(a, b)` is `a` when `a >= b` and else `b`, so `b` for a NaN `a`. -/
def Obligations.ComparisonsAreIeee : Prop :=
  ∀ a b : F64,
    (fIsNaN a = true ∨ fIsNaN b = true →
      fLt a b = false ∧ fLe a b = false ∧ fGt a b = false ∧ fGe a b = false ∧ fEq a b = false) ∧
      (fIsNaN a = false → fIsNaN b = false →
        (fLt a b = true ↔ extValueOf a < extValueOf b) ∧ (fLe a b = true ↔ extValueOf a ≤ extValueOf b) ∧
          (fGt a b = true ↔ extValueOf a > extValueOf b) ∧ (fGe a b = true ↔ extValueOf a ≥ extValueOf b) ∧
          (fEq a b = true ↔ extValueOf a = extValueOf b)) ∧
      fEq 0 (fNeg 0) = true ∧ fMax a b = (if fGe a b then a else b) ∧ (fIsNaN a = true → fMax a b = b)

/-- 00_scope section 5 (R10): `PI` is the binary64 value nearest to π, `TWO_PI` is exactly `2.0 * PI`, and the literals are
exact. The two bit patterns are the spec's from general knowledge (entry 17, PRESUMED). -/
def Obligations.ConstantsAreExact : Prop :=
  PI = 0x400921FB54442D18 ∧ TWO_PI = 0x401921FB54442D18 ∧ fMul two PI = TWO_PI ∧
    (∀ z, fIsFinite z = true → |((valueOf PI : ℚ) : ℝ) - Real.pi| ≤ |((valueOf z : ℚ) : ℝ) - Real.pi|) ∧
    valueOf TWO_PI = 2 * valueOf PI ∧ valueOf 0 = 0 ∧ valueOf one = 1 ∧ valueOf two = 2 ∧ valueOf three = 3 ∧
    valueOf thousand = 1000

/-- 00_scope R12: `toF64(n)` is the nearest F64, exact for `n <= 2^53`; `trunc(x)` of a finite `x >= 0` is the largest
integer `<= x`; the counters and the stage counts are unsigned integers of 32 and 64 bits. -/
def Obligations.IntegerConversions : Prop :=
  (∀ n : Nat, (n : ℚ) < overflowBound → isNearest (toF64 n) n) ∧
    (∀ n : Nat, n ≤ 2 ^ 53 → valueOf (toF64 n) = n) ∧
    (∀ x : F64, fIsFinite x = true → fLe 0 x = true → (fTrunc x : ℤ) = ⌊valueOf x⌋) ∧
    (∀ s : State, s.trem.count.toNat ≤ 2 ^ 32 - 1 ∧ s.env.elapsed.toNat ≤ 2 ^ 64 - 1) ∧
    ∀ sr ms : F64, stageCount sr ms ≤ 2 ^ 64 - 1

/-- 00_scope sections 4 and 5 (R6, R9) and 43_filter section 1 (R135): the machine's configuration meets every constraint of
rule R6, every named property of rule R9 and the stability constraint, and FILT_COEF is the supplied value. It holds because
the model carries the open values into the constraints (entry 4), builds the properties of R9 into NUM with its own reading
of TAN_POS (entry 5, DEDUCED), imposes R135 (entry 21, DEDUCED) and takes FILT_COEF from R129 (entry 7, PRESUMED). -/
def Obligations.ConfigurationIsValid : Prop := ConfigValid hw ∧ hw.filtCoef = bandpassCoef
end

