-- ==== Sys2Proof/Laws/State.lean ====
section
/-!
SUPPORT. One lemma per field per update of the state, true by definition.
-/

namespace Sys2Proof.Machine

variable (s : State)

/-! ### `setTrem` -/

@[simp] theorem setTrem_osc (r : TremRegs) : (setTrem r s).osc = s.osc := rfl
@[simp] theorem setTrem_trem (r : TremRegs) : (setTrem r s).trem = r := rfl
@[simp] theorem setTrem_filt (r : TremRegs) : (setTrem r s).filt = s.filt := rfl
@[simp] theorem setTrem_env (r : TremRegs) : (setTrem r s).env = s.env := rfl
@[simp] theorem setTrem_sampleRate (r : TremRegs) : (setTrem r s).sampleRate = s.sampleRate := rfl
@[simp] theorem setTrem_inited (r : TremRegs) : (setTrem r s).inited = s.inited := rfl
@[simp] theorem setTrem_scratch (r : TremRegs) : (setTrem r s).scratch = s.scratch := rfl
@[simp] theorem setTrem_snapshot (r : TremRegs) : (setTrem r s).snapshot = s.snapshot := rfl
@[simp] theorem setTrem_out (r : TremRegs) : (setTrem r s).out = s.out := rfl
@[simp] theorem setTrem_nodes (r : TremRegs) : (setTrem r s).nodes = s.nodes := rfl
@[simp] theorem setTrem_response (r : TremRegs) : (setTrem r s).response = s.response := rfl
@[simp] theorem setTrem_port (r : TremRegs) : (setTrem r s).port = s.port := rfl

/-! ### `setFilt` -/

@[simp] theorem setFilt_osc (r : FiltRegs) (t : ScratchRegs) : (setFilt r t s).osc = s.osc := rfl
@[simp] theorem setFilt_trem (r : FiltRegs) (t : ScratchRegs) : (setFilt r t s).trem = s.trem := rfl
@[simp] theorem setFilt_filt (r : FiltRegs) (t : ScratchRegs) : (setFilt r t s).filt = r := rfl
@[simp] theorem setFilt_env (r : FiltRegs) (t : ScratchRegs) : (setFilt r t s).env = s.env := rfl
@[simp] theorem setFilt_sampleRate (r : FiltRegs) (t : ScratchRegs) : (setFilt r t s).sampleRate = s.sampleRate := rfl
@[simp] theorem setFilt_inited (r : FiltRegs) (t : ScratchRegs) : (setFilt r t s).inited = s.inited := rfl
@[simp] theorem setFilt_scratch (r : FiltRegs) (t : ScratchRegs) : (setFilt r t s).scratch = t := rfl
@[simp] theorem setFilt_snapshot (r : FiltRegs) (t : ScratchRegs) : (setFilt r t s).snapshot = s.snapshot := rfl
@[simp] theorem setFilt_out (r : FiltRegs) (t : ScratchRegs) : (setFilt r t s).out = s.out := rfl
@[simp] theorem setFilt_nodes (r : FiltRegs) (t : ScratchRegs) : (setFilt r t s).nodes = s.nodes := rfl
@[simp] theorem setFilt_response (r : FiltRegs) (t : ScratchRegs) : (setFilt r t s).response = s.response := rfl
@[simp] theorem setFilt_port (r : FiltRegs) (t : ScratchRegs) : (setFilt r t s).port = s.port := rfl

/-! ### `setEnv` -/

@[simp] theorem setEnv_osc (r : EnvRegs) : (setEnv r s).osc = s.osc := rfl
@[simp] theorem setEnv_trem (r : EnvRegs) : (setEnv r s).trem = s.trem := rfl
@[simp] theorem setEnv_filt (r : EnvRegs) : (setEnv r s).filt = s.filt := rfl
@[simp] theorem setEnv_env (r : EnvRegs) : (setEnv r s).env = r := rfl
@[simp] theorem setEnv_sampleRate (r : EnvRegs) : (setEnv r s).sampleRate = s.sampleRate := rfl
@[simp] theorem setEnv_inited (r : EnvRegs) : (setEnv r s).inited = s.inited := rfl
@[simp] theorem setEnv_scratch (r : EnvRegs) : (setEnv r s).scratch = s.scratch := rfl
@[simp] theorem setEnv_snapshot (r : EnvRegs) : (setEnv r s).snapshot = s.snapshot := rfl
@[simp] theorem setEnv_out (r : EnvRegs) : (setEnv r s).out = s.out := rfl
@[simp] theorem setEnv_nodes (r : EnvRegs) : (setEnv r s).nodes = s.nodes := rfl
@[simp] theorem setEnv_response (r : EnvRegs) : (setEnv r s).response = s.response := rfl
@[simp] theorem setEnv_port (r : EnvRegs) : (setEnv r s).port = s.port := rfl

/-! ### `latch` -/

@[simp] theorem latch_osc (p : Snapshot) : (latch p s).osc = s.osc := rfl
@[simp] theorem latch_trem (p : Snapshot) : (latch p s).trem = s.trem := rfl
@[simp] theorem latch_filt (p : Snapshot) : (latch p s).filt = s.filt := rfl
@[simp] theorem latch_env (p : Snapshot) : (latch p s).env = s.env := rfl
@[simp] theorem latch_sampleRate (p : Snapshot) : (latch p s).sampleRate = s.sampleRate := rfl
@[simp] theorem latch_inited (p : Snapshot) : (latch p s).inited = s.inited := rfl
@[simp] theorem latch_scratch (p : Snapshot) : (latch p s).scratch = s.scratch := rfl
@[simp] theorem latch_snapshot (p : Snapshot) : (latch p s).snapshot = p := rfl
@[simp] theorem latch_out (p : Snapshot) : (latch p s).out = s.out := rfl
@[simp] theorem latch_nodes (p : Snapshot) : (latch p s).nodes = s.nodes := rfl
@[simp] theorem latch_response (p : Snapshot) : (latch p s).response = s.response := rfl
@[simp] theorem latch_port (p : Snapshot) : (latch p s).port = s.port := rfl

/-! ### `setM` -/

@[simp] theorem setM_osc (v : F64) : (setM v s).osc = s.osc := rfl
@[simp] theorem setM_trem (v : F64) : (setM v s).trem = s.trem := rfl
@[simp] theorem setM_filt (v : F64) : (setM v s).filt = s.filt := rfl
@[simp] theorem setM_env (v : F64) : (setM v s).env = s.env := rfl
@[simp] theorem setM_sampleRate (v : F64) : (setM v s).sampleRate = s.sampleRate := rfl
@[simp] theorem setM_inited (v : F64) : (setM v s).inited = s.inited := rfl
@[simp] theorem setM_scratch (v : F64) : (setM v s).scratch = s.scratch := rfl
@[simp] theorem setM_snapshot (v : F64) : (setM v s).snapshot = s.snapshot := rfl
@[simp] theorem setM_out (v : F64) : (setM v s).out = s.out := rfl
@[simp] theorem setM_nodes (v : F64) : (setM v s).nodes = { s.nodes with m := v } := rfl
@[simp] theorem setM_response (v : F64) : (setM v s).response = s.response := rfl
@[simp] theorem setM_port (v : F64) : (setM v s).port = s.port := rfl

/-! ### `setTg` -/

@[simp] theorem setTg_osc (v : F64) : (setTg v s).osc = s.osc := rfl
@[simp] theorem setTg_trem (v : F64) : (setTg v s).trem = s.trem := rfl
@[simp] theorem setTg_filt (v : F64) : (setTg v s).filt = s.filt := rfl
@[simp] theorem setTg_env (v : F64) : (setTg v s).env = s.env := rfl
@[simp] theorem setTg_sampleRate (v : F64) : (setTg v s).sampleRate = s.sampleRate := rfl
@[simp] theorem setTg_inited (v : F64) : (setTg v s).inited = s.inited := rfl
@[simp] theorem setTg_scratch (v : F64) : (setTg v s).scratch = s.scratch := rfl
@[simp] theorem setTg_snapshot (v : F64) : (setTg v s).snapshot = s.snapshot := rfl
@[simp] theorem setTg_out (v : F64) : (setTg v s).out = s.out := rfl
@[simp] theorem setTg_nodes (v : F64) : (setTg v s).nodes = { s.nodes with tg := v } := rfl
@[simp] theorem setTg_response (v : F64) : (setTg v s).response = s.response := rfl
@[simp] theorem setTg_port (v : F64) : (setTg v s).port = s.port := rfl

/-! ### `setG` -/

@[simp] theorem setG_osc (v : F64) : (setG v s).osc = s.osc := rfl
@[simp] theorem setG_trem (v : F64) : (setG v s).trem = s.trem := rfl
@[simp] theorem setG_filt (v : F64) : (setG v s).filt = s.filt := rfl
@[simp] theorem setG_env (v : F64) : (setG v s).env = s.env := rfl
@[simp] theorem setG_sampleRate (v : F64) : (setG v s).sampleRate = s.sampleRate := rfl
@[simp] theorem setG_inited (v : F64) : (setG v s).inited = s.inited := rfl
@[simp] theorem setG_scratch (v : F64) : (setG v s).scratch = s.scratch := rfl
@[simp] theorem setG_snapshot (v : F64) : (setG v s).snapshot = s.snapshot := rfl
@[simp] theorem setG_out (v : F64) : (setG v s).out = s.out := rfl
@[simp] theorem setG_nodes (v : F64) : (setG v s).nodes = { s.nodes with g := v } := rfl
@[simp] theorem setG_response (v : F64) : (setG v s).response = s.response := rfl
@[simp] theorem setG_port (v : F64) : (setG v s).port = s.port := rfl

/-! ### `setS1` -/

@[simp] theorem setS1_osc (v : F64) : (setS1 v s).osc = s.osc := rfl
@[simp] theorem setS1_trem (v : F64) : (setS1 v s).trem = s.trem := rfl
@[simp] theorem setS1_filt (v : F64) : (setS1 v s).filt = s.filt := rfl
@[simp] theorem setS1_env (v : F64) : (setS1 v s).env = s.env := rfl
@[simp] theorem setS1_sampleRate (v : F64) : (setS1 v s).sampleRate = s.sampleRate := rfl
@[simp] theorem setS1_inited (v : F64) : (setS1 v s).inited = s.inited := rfl
@[simp] theorem setS1_scratch (v : F64) : (setS1 v s).scratch = s.scratch := rfl
@[simp] theorem setS1_snapshot (v : F64) : (setS1 v s).snapshot = s.snapshot := rfl
@[simp] theorem setS1_out (v : F64) : (setS1 v s).out = s.out := rfl
@[simp] theorem setS1_nodes (v : F64) : (setS1 v s).nodes = { s.nodes with s1 := v } := rfl
@[simp] theorem setS1_response (v : F64) : (setS1 v s).response = s.response := rfl
@[simp] theorem setS1_port (v : F64) : (setS1 v s).port = s.port := rfl

/-! ### `setS2` -/

@[simp] theorem setS2_osc (v : F64) : (setS2 v s).osc = s.osc := rfl
@[simp] theorem setS2_trem (v : F64) : (setS2 v s).trem = s.trem := rfl
@[simp] theorem setS2_filt (v : F64) : (setS2 v s).filt = s.filt := rfl
@[simp] theorem setS2_env (v : F64) : (setS2 v s).env = s.env := rfl
@[simp] theorem setS2_sampleRate (v : F64) : (setS2 v s).sampleRate = s.sampleRate := rfl
@[simp] theorem setS2_inited (v : F64) : (setS2 v s).inited = s.inited := rfl
@[simp] theorem setS2_scratch (v : F64) : (setS2 v s).scratch = s.scratch := rfl
@[simp] theorem setS2_snapshot (v : F64) : (setS2 v s).snapshot = s.snapshot := rfl
@[simp] theorem setS2_out (v : F64) : (setS2 v s).out = s.out := rfl
@[simp] theorem setS2_nodes (v : F64) : (setS2 v s).nodes = { s.nodes with s2 := v } := rfl
@[simp] theorem setS2_response (v : F64) : (setS2 v s).response = s.response := rfl
@[simp] theorem setS2_port (v : F64) : (setS2 v s).port = s.port := rfl

/-! ### `setL` -/

@[simp] theorem setL_osc (v : F64) : (setL v s).osc = s.osc := rfl
@[simp] theorem setL_trem (v : F64) : (setL v s).trem = s.trem := rfl
@[simp] theorem setL_filt (v : F64) : (setL v s).filt = s.filt := rfl
@[simp] theorem setL_env (v : F64) : (setL v s).env = s.env := rfl
@[simp] theorem setL_sampleRate (v : F64) : (setL v s).sampleRate = s.sampleRate := rfl
@[simp] theorem setL_inited (v : F64) : (setL v s).inited = s.inited := rfl
@[simp] theorem setL_scratch (v : F64) : (setL v s).scratch = s.scratch := rfl
@[simp] theorem setL_snapshot (v : F64) : (setL v s).snapshot = s.snapshot := rfl
@[simp] theorem setL_out (v : F64) : (setL v s).out = s.out := rfl
@[simp] theorem setL_nodes (v : F64) : (setL v s).nodes = { s.nodes with l := v } := rfl
@[simp] theorem setL_response (v : F64) : (setL v s).response = s.response := rfl
@[simp] theorem setL_port (v : F64) : (setL v s).port = s.port := rfl

/-! ### `zeroSamples` -/

@[simp] theorem zeroSamples_osc : (zeroSamples s).osc = s.osc := rfl
@[simp] theorem zeroSamples_trem : (zeroSamples s).trem = s.trem := rfl
@[simp] theorem zeroSamples_filt : (zeroSamples s).filt = s.filt := rfl
@[simp] theorem zeroSamples_env : (zeroSamples s).env = s.env := rfl
@[simp] theorem zeroSamples_sampleRate : (zeroSamples s).sampleRate = s.sampleRate := rfl
@[simp] theorem zeroSamples_inited : (zeroSamples s).inited = s.inited := rfl
@[simp] theorem zeroSamples_scratch : (zeroSamples s).scratch = s.scratch := rfl
@[simp] theorem zeroSamples_snapshot : (zeroSamples s).snapshot = s.snapshot := rfl
@[simp] theorem zeroSamples_out : (zeroSamples s).out = s.out := rfl
@[simp] theorem zeroSamples_nodes : (zeroSamples s).nodes = { s.nodes with s1 := 0, s2 := 0 } := rfl
@[simp] theorem zeroSamples_response : (zeroSamples s).response = s.response := rfl
@[simp] theorem zeroSamples_port : (zeroSamples s).port = s.port := rfl

/-! ### `writeOut` -/

@[simp] theorem writeOut_osc (n : Nat) (v : F64) : (writeOut n v s).osc = s.osc := rfl
@[simp] theorem writeOut_trem (n : Nat) (v : F64) : (writeOut n v s).trem = s.trem := rfl
@[simp] theorem writeOut_filt (n : Nat) (v : F64) : (writeOut n v s).filt = s.filt := rfl
@[simp] theorem writeOut_env (n : Nat) (v : F64) : (writeOut n v s).env = s.env := rfl
@[simp] theorem writeOut_sampleRate (n : Nat) (v : F64) : (writeOut n v s).sampleRate = s.sampleRate := rfl
@[simp] theorem writeOut_inited (n : Nat) (v : F64) : (writeOut n v s).inited = s.inited := rfl
@[simp] theorem writeOut_scratch (n : Nat) (v : F64) : (writeOut n v s).scratch = s.scratch := rfl
@[simp] theorem writeOut_snapshot (n : Nat) (v : F64) : (writeOut n v s).snapshot = s.snapshot := rfl
@[simp] theorem writeOut_out (n : Nat) (v : F64) : (writeOut n v s).out = List.replicate n v := rfl
@[simp] theorem writeOut_nodes (n : Nat) (v : F64) : (writeOut n v s).nodes = { s.nodes with out := v } := rfl
@[simp] theorem writeOut_response (n : Nat) (v : F64) : (writeOut n v s).response = s.response := rfl
@[simp] theorem writeOut_port (n : Nat) (v : F64) : (writeOut n v s).port = s.port := rfl

/-! ### `resetRegs` -/

@[simp] theorem resetRegs_osc (sr : F64) : (resetRegs sr s).osc = { osc1 := 0, osc2 := 0, lfo := 0 } := rfl
@[simp] theorem resetRegs_trem (sr : F64) : (resetRegs sr s).trem = { modphase := 0, count := 0 } := rfl
@[simp] theorem resetRegs_filt (sr : F64) : (resetRegs sr s).filt = { x1 := 0, x2 := 0, y1 := 0, y2 := 0 } := rfl
@[simp] theorem resetRegs_env (sr : F64) : (resetRegs sr s).env = { stage := .idle, elapsed := 0, level := 0 } := rfl
@[simp] theorem resetRegs_sampleRate (sr : F64) : (resetRegs sr s).sampleRate = sr := rfl
@[simp] theorem resetRegs_inited (sr : F64) : (resetRegs sr s).inited = true := rfl
@[simp] theorem resetRegs_scratch (sr : F64) : (resetRegs sr s).scratch = s.scratch := rfl
@[simp] theorem resetRegs_snapshot (sr : F64) : (resetRegs sr s).snapshot = s.snapshot := rfl
@[simp] theorem resetRegs_out (sr : F64) : (resetRegs sr s).out = s.out := rfl
@[simp] theorem resetRegs_nodes (sr : F64) : (resetRegs sr s).nodes = s.nodes := rfl
@[simp] theorem resetRegs_response (sr : F64) : (resetRegs sr s).response = s.response := rfl
@[simp] theorem resetRegs_port (sr : F64) : (resetRegs sr s).port = s.port := rfl

/-! ### `respond` -/

@[simp] theorem respond_osc (r : List Word) : (respond r s).osc = s.osc := rfl
@[simp] theorem respond_trem (r : List Word) : (respond r s).trem = s.trem := rfl
@[simp] theorem respond_filt (r : List Word) : (respond r s).filt = s.filt := rfl
@[simp] theorem respond_env (r : List Word) : (respond r s).env = s.env := rfl
@[simp] theorem respond_sampleRate (r : List Word) : (respond r s).sampleRate = s.sampleRate := rfl
@[simp] theorem respond_inited (r : List Word) : (respond r s).inited = s.inited := rfl
@[simp] theorem respond_scratch (r : List Word) : (respond r s).scratch = s.scratch := rfl
@[simp] theorem respond_snapshot (r : List Word) : (respond r s).snapshot = s.snapshot := rfl
@[simp] theorem respond_out (r : List Word) : (respond r s).out = s.out := rfl
@[simp] theorem respond_nodes (r : List Word) : (respond r s).nodes = s.nodes := rfl
@[simp] theorem respond_response (r : List Word) : (respond r s).response = r := rfl
@[simp] theorem respond_port (r : List Word) : (respond r s).port = s.port := rfl

/-! ### `presentNext` -/

@[simp] theorem presentNext_osc (f : Frame) : (presentNext f s).osc = s.osc := rfl
@[simp] theorem presentNext_trem (f : Frame) : (presentNext f s).trem = s.trem := rfl
@[simp] theorem presentNext_filt (f : Frame) : (presentNext f s).filt = s.filt := rfl
@[simp] theorem presentNext_env (f : Frame) : (presentNext f s).env = s.env := rfl
@[simp] theorem presentNext_sampleRate (f : Frame) : (presentNext f s).sampleRate = s.sampleRate := rfl
@[simp] theorem presentNext_inited (f : Frame) : (presentNext f s).inited = s.inited := rfl
@[simp] theorem presentNext_scratch (f : Frame) : (presentNext f s).scratch = s.scratch := rfl
@[simp] theorem presentNext_snapshot (f : Frame) : (presentNext f s).snapshot = s.snapshot := rfl
@[simp] theorem presentNext_out (f : Frame) : (presentNext f s).out = s.out := rfl
@[simp] theorem presentNext_nodes (f : Frame) : (presentNext f s).nodes = s.nodes := rfl
@[simp] theorem presentNext_response (f : Frame) : (presentNext f s).response = s.response := rfl
@[simp] theorem presentNext_port (f : Frame) : (presentNext f s).port = f :: s.port := rfl

/-! ### `dropRefused` -/

@[simp] theorem dropRefused_osc : (dropRefused s).osc = s.osc := rfl
@[simp] theorem dropRefused_trem : (dropRefused s).trem = s.trem := rfl
@[simp] theorem dropRefused_filt : (dropRefused s).filt = s.filt := rfl
@[simp] theorem dropRefused_env : (dropRefused s).env = s.env := rfl
@[simp] theorem dropRefused_sampleRate : (dropRefused s).sampleRate = s.sampleRate := rfl
@[simp] theorem dropRefused_inited : (dropRefused s).inited = s.inited := rfl
@[simp] theorem dropRefused_scratch : (dropRefused s).scratch = s.scratch := rfl
@[simp] theorem dropRefused_snapshot : (dropRefused s).snapshot = s.snapshot := rfl
@[simp] theorem dropRefused_out : (dropRefused s).out = s.out := rfl
@[simp] theorem dropRefused_nodes : (dropRefused s).nodes = s.nodes := rfl
@[simp] theorem dropRefused_response : (dropRefused s).response = [] := rfl
@[simp] theorem dropRefused_port : (dropRefused s).port = s.port.tail := rfl

/-! ### `setPhase` and `setSample`: the fields they leave alone, for every instance -/

@[simp] theorem setPhase_trem (o : Osc) (v : F64) : (setPhase o v s).trem = s.trem := by cases o <;> rfl
@[simp] theorem setPhase_filt (o : Osc) (v : F64) : (setPhase o v s).filt = s.filt := by cases o <;> rfl
@[simp] theorem setPhase_env (o : Osc) (v : F64) : (setPhase o v s).env = s.env := by cases o <;> rfl
@[simp] theorem setPhase_sampleRate (o : Osc) (v : F64) : (setPhase o v s).sampleRate = s.sampleRate := by cases o <;> rfl
@[simp] theorem setPhase_inited (o : Osc) (v : F64) : (setPhase o v s).inited = s.inited := by cases o <;> rfl
@[simp] theorem setPhase_scratch (o : Osc) (v : F64) : (setPhase o v s).scratch = s.scratch := by cases o <;> rfl
@[simp] theorem setPhase_snapshot (o : Osc) (v : F64) : (setPhase o v s).snapshot = s.snapshot := by cases o <;> rfl
@[simp] theorem setPhase_out (o : Osc) (v : F64) : (setPhase o v s).out = s.out := by cases o <;> rfl
@[simp] theorem setPhase_nodes (o : Osc) (v : F64) : (setPhase o v s).nodes = s.nodes := by cases o <;> rfl
@[simp] theorem setPhase_response (o : Osc) (v : F64) : (setPhase o v s).response = s.response := by cases o <;> rfl
@[simp] theorem setPhase_port (o : Osc) (v : F64) : (setPhase o v s).port = s.port := by cases o <;> rfl

@[simp] theorem setSample_osc (o : Osc) (v : F64) : (setSample o v s).osc = s.osc := by cases o <;> rfl
@[simp] theorem setSample_trem (o : Osc) (v : F64) : (setSample o v s).trem = s.trem := by cases o <;> rfl
@[simp] theorem setSample_filt (o : Osc) (v : F64) : (setSample o v s).filt = s.filt := by cases o <;> rfl
@[simp] theorem setSample_env (o : Osc) (v : F64) : (setSample o v s).env = s.env := by cases o <;> rfl
@[simp] theorem setSample_sampleRate (o : Osc) (v : F64) : (setSample o v s).sampleRate = s.sampleRate := by cases o <;> rfl
@[simp] theorem setSample_inited (o : Osc) (v : F64) : (setSample o v s).inited = s.inited := by cases o <;> rfl
@[simp] theorem setSample_scratch (o : Osc) (v : F64) : (setSample o v s).scratch = s.scratch := by cases o <;> rfl
@[simp] theorem setSample_snapshot (o : Osc) (v : F64) : (setSample o v s).snapshot = s.snapshot := by cases o <;> rfl
@[simp] theorem setSample_out (o : Osc) (v : F64) : (setSample o v s).out = s.out := by cases o <;> rfl
@[simp] theorem setSample_response (o : Osc) (v : F64) : (setSample o v s).response = s.response := by cases o <;> rfl
@[simp] theorem setSample_port (o : Osc) (v : F64) : (setSample o v s).port = s.port := by cases o <;> rfl

@[simp] theorem setPhase_osc1 (q : F64) : (setPhase .osc1 q s).osc = { s.osc with osc1 := q } := rfl
@[simp] theorem setPhase_osc2 (q : F64) : (setPhase .osc2 q s).osc = { s.osc with osc2 := q } := rfl
@[simp] theorem setPhase_lfo (q : F64) : (setPhase .lfo q s).osc = { s.osc with lfo := q } := rfl
@[simp] theorem setSample_osc1 (v : F64) : (setSample .osc1 v s).nodes = { s.nodes with s1 := v } := rfl
@[simp] theorem setSample_osc2 (v : F64) : (setSample .osc2 v s).nodes = { s.nodes with s2 := v } := rfl
@[simp] theorem setSample_lfo (v : F64) : (setSample .lfo v s).nodes = { s.nodes with l := v } := rfl

/-- A phase read back after its write. -/
@[simp] theorem phaseOf_setPhase (o : Osc) (q : F64) : phaseOf o (setPhase o q s) = q := by cases o <;> rfl

/-- A write of one phase leaves the other instances' phases (R102). -/
theorem phaseOf_setPhase_ne {o o' : Osc} (h : o' ≠ o) (q : F64) : phaseOf o' (setPhase o q s) = phaseOf o' s := by
  cases o <;> cases o' <;> first | rfl | exact absurd rfl h

end Sys2Proof.Machine
end

