-- ==== Sys2Proof/Laws/Body.lean ====
section
/-!
SUPPORT. What each step of the body of PROC writes and what it leaves (45_frame R186): one lemma per step and field, so
that no proof unfolds the body as a whole.
-/

namespace Sys2Proof.Machine

variable (c : Config) (p : Snapshot) (s : State)

/-! ### The component operations -/

section components
variable (o : Osc) (w : Waveform) (f a d lo hi att dec rel sus : F64)

@[simp] theorem runGen_trem : (runGen c o w f a s).trem = s.trem := by simp [runGen, gen]
@[simp] theorem runGen_filt : (runGen c o w f a s).filt = s.filt := by simp [runGen, gen]
@[simp] theorem runGen_env : (runGen c o w f a s).env = s.env := by simp [runGen, gen]
@[simp] theorem runGen_sampleRate : (runGen c o w f a s).sampleRate = s.sampleRate := by simp [runGen, gen]
@[simp] theorem runGen_inited : (runGen c o w f a s).inited = s.inited := by simp [runGen, gen]
@[simp] theorem runGen_scratch : (runGen c o w f a s).scratch = s.scratch := by simp [runGen, gen]
@[simp] theorem runGen_snapshot : (runGen c o w f a s).snapshot = s.snapshot := by simp [runGen, gen]
@[simp] theorem runGen_out : (runGen c o w f a s).out = s.out := by simp [runGen, gen]
@[simp] theorem runGen_response : (runGen c o w f a s).response = s.response := by simp [runGen, gen]
@[simp] theorem runGen_port : (runGen c o w f a s).port = s.port := by simp [runGen, gen]

@[simp] theorem runGen_osc1 : (runGen c .osc1 w f a s).osc =
    { s.osc with osc1 := advance s.sampleRate f s.osc.osc1 } := rfl
@[simp] theorem runGen_osc2 : (runGen c .osc2 w f a s).osc =
    { s.osc with osc2 := advance s.sampleRate f s.osc.osc2 } := rfl
@[simp] theorem runGen_lfo : (runGen c .lfo w f a s).osc =
    { s.osc with lfo := advance s.sampleRate f s.osc.lfo } := rfl
@[simp] theorem runGen_osc1_nodes : (runGen c .osc1 w f a s).nodes =
    { s.nodes with s1 := wave c w s.osc.osc1 a } := rfl
@[simp] theorem runGen_osc2_nodes : (runGen c .osc2 w f a s).nodes =
    { s.nodes with s2 := wave c w s.osc.osc2 a } := rfl
@[simp] theorem runGen_lfo_nodes : (runGen c .lfo w f a s).nodes =
    { s.nodes with l := wave c w s.osc.lfo a } := rfl

/-- Everything TREM does (R110 to R114, R180). -/
theorem runTrem_eq : runTrem c d s =
    { s with
      trem := { modphase := tremPhase c s.sampleRate s.trem.modphase s.trem.count, count := tremCount c s.trem.count }
      nodes :=
        { s.nodes with
          tg := fMul s.nodes.l (tremGain c d s.trem.modphase)
          m := fMul s.nodes.m (fMul s.nodes.l (tremGain c d s.trem.modphase)) } } := rfl

/-- Everything FILT does (R125 to R131, R181). -/
theorem runFilt_eq : runFilt c lo hi s =
    { s with
      filt :=
        { x1 := s.nodes.m, x2 := s.filt.x1
          y1 := filtOutput c (filtCoeffs c s.sampleRate lo hi) s.nodes.m s.filt, y2 := s.filt.y1 }
      scratch := { bandcenter := bandCenter lo hi, bandwidth := bandwidth c lo hi }
      nodes :=
        { s.nodes with m := filtOutput c (filtCoeffs c s.sampleRate lo hi) s.nodes.m s.filt } } := rfl

/-- Everything ENV does (R160, R182). -/
theorem runEnv_eq : runEnv c att dec rel sus s =
    { s with
      env := (env c att dec rel sus s).2.env
      nodes := { s.nodes with g := s.env.level, m := fMul s.nodes.m s.env.level } } := rfl

/-- The envelope registers after ENV (R155, R160). -/
theorem env_env : (env c att dec rel sus s).2.env =
    { stage := envStage c att dec sus s
      elapsed := elapsedNext s.env.elapsed
      level := stageLevel c (envStage c att dec sus s) s.env.level sus (stageCount s.sampleRate att)
        (stageCount s.sampleRate dec) (stageCount s.sampleRate rel) } := rfl

/-- ENV never selects Idle (R158). -/
theorem stageOf_ne_idle (e a n : Nat) (v : F64) : stageOf c e v sus a n ≠ .idle := by
  unfold stageOf; repeat' split
  all_goals decide

/-- The counter is not 0 after ENV (R155, R29). -/
theorem elapsedNext_ne_zero (e : BitVec 64) : elapsedNext e ≠ 0 := by
  intro h
  have h := congrArg BitVec.toNat h
  simp only [elapsedNext, BitVec.toNat_ofNat, show (0 : BitVec 64).toNat = 0 from rfl] at h
  rw [Nat.mod_eq_of_lt (by omega)] at h
  omega

/-- The counter after ENV, as an integer (R155). -/
theorem elapsedNext_toNat (e : BitVec 64) : (elapsedNext e).toNat = min (e.toNat + 1) (2 ^ 64 - 1) := by
  simp only [elapsedNext, BitVec.toNat_ofNat]
  exact Nat.mod_eq_of_lt (by omega)

@[simp] theorem envIdle_eq : envIdle s = { s with env := { stage := .idle, elapsed := 0, level := 0 } } := rfl

end components

/-- The row of a waveform on OSC1 is GEN on OSC1 with that waveform. -/
theorem exec_genOsc1 (w : Waveform) (f a : F64) : exec (genOsc1 w f a) s = .next (runGen hw .osc1 w f a s) := by
  cases w <;> rfl

/-- The row of a waveform on OSC2 is GEN on OSC2 with that waveform. -/
theorem exec_genOsc2 (w : Waveform) (f a : F64) : exec (genOsc2 w f a) s = .next (runGen hw .osc2 w f a s) := by
  cases w <;> rfl

/-- The row of a waveform on the LFO is GEN on the LFO with that waveform and the amplitude LFO_AMP (R115). -/
theorem exec_genLfo (w : Waveform) (f : F64) :
    exec (genLfo w f) s = .next (runGen hw .lfo w f hw.lfoAmp s) := by
  cases w <;> rfl

/-! ### Steps 2 and 3 -/

section oscSteps
@[simp] theorem oscSteps_trem : (oscSteps c p s).trem = s.trem := by unfold oscSteps; repeat' split
                                                                     all_goals simp
@[simp] theorem oscSteps_filt : (oscSteps c p s).filt = s.filt := by unfold oscSteps; repeat' split
                                                                     all_goals simp
@[simp] theorem oscSteps_env : (oscSteps c p s).env = s.env := by unfold oscSteps; repeat' split
                                                                  all_goals simp
@[simp] theorem oscSteps_sampleRate : (oscSteps c p s).sampleRate = s.sampleRate := by
  unfold oscSteps; repeat' split
  all_goals simp
@[simp] theorem oscSteps_inited : (oscSteps c p s).inited = s.inited := by
  unfold oscSteps; repeat' split
  all_goals simp
@[simp] theorem oscSteps_scratch : (oscSteps c p s).scratch = s.scratch := by
  unfold oscSteps; repeat' split
  all_goals simp
@[simp] theorem oscSteps_snapshot : (oscSteps c p s).snapshot = s.snapshot := by
  unfold oscSteps; repeat' split
  all_goals simp
@[simp] theorem oscSteps_out : (oscSteps c p s).out = s.out := by
  unfold oscSteps; repeat' split
  all_goals simp
@[simp] theorem oscSteps_response : (oscSteps c p s).response = s.response := by
  unfold oscSteps; repeat' split
  all_goals simp
@[simp] theorem oscSteps_port : (oscSteps c p s).port = s.port := by
  unfold oscSteps; repeat' split
  all_goals simp

/-- The phases after steps 2 and 3 (R177, R178): an oscillator advances when it is enabled and mute is clear. -/
theorem oscSteps_osc : (oscSteps c p s).osc =
    { osc1 := if !p.mute && p.osc1En then advance s.sampleRate p.osc1Freq s.osc.osc1 else s.osc.osc1
      osc2 := if !p.mute && p.osc2En then advance s.sampleRate p.osc2Freq s.osc.osc2 else s.osc.osc2
      lfo := s.osc.lfo } := by
  unfold oscSteps
  cases p.mute <;> cases p.osc1En <;> cases p.osc2En <;> simp

/-- The samples after steps 2 and 3 (R177, R178). -/
theorem oscSteps_nodes : (oscSteps c p s).nodes =
    { s.nodes with
      s1 := if !p.mute && p.osc1En then wave c p.osc1Wave s.osc.osc1 p.osc1Amp else 0
      s2 := if !p.mute && p.osc2En then wave c p.osc2Wave s.osc.osc2 p.osc2Amp else 0 } := by
  unfold oscSteps
  cases p.mute <;> cases p.osc1En <;> cases p.osc2En <;> simp
end oscSteps

/-- Everything step 4 does (R179). -/
theorem mixStep_eq : mixStep s = { s with nodes := { s.nodes with m := fAdd s.nodes.s1 s.nodes.s2 } } := rfl

@[simp] theorem mixStep_osc : (mixStep s).osc = s.osc := rfl
@[simp] theorem mixStep_trem : (mixStep s).trem = s.trem := rfl
@[simp] theorem mixStep_filt : (mixStep s).filt = s.filt := rfl
@[simp] theorem mixStep_env : (mixStep s).env = s.env := rfl
@[simp] theorem mixStep_sampleRate : (mixStep s).sampleRate = s.sampleRate := rfl
@[simp] theorem mixStep_inited : (mixStep s).inited = s.inited := rfl
@[simp] theorem mixStep_scratch : (mixStep s).scratch = s.scratch := rfl
@[simp] theorem mixStep_snapshot : (mixStep s).snapshot = s.snapshot := rfl
@[simp] theorem mixStep_out : (mixStep s).out = s.out := rfl
@[simp] theorem mixStep_response : (mixStep s).response = s.response := rfl
@[simp] theorem mixStep_port : (mixStep s).port = s.port := rfl
@[simp] theorem mixStep_nodes : (mixStep s).nodes = { s.nodes with m := fAdd s.nodes.s1 s.nodes.s2 } := rfl

/-! ### Steps 5 to 8: each is its component or nothing -/

/-- Step 5 in tremolo mode (R180). -/
theorem lfoStep_tremolo (he : p.lfoEn = true) (hm : p.lfoMode = .tremolo) :
    lfoStep c p s = runTrem c p.lfoDepth (runGen c .lfo p.lfoWave p.lfoFreq c.lfoAmp s) := by simp [lfoStep, he, hm]

/-- Step 5 otherwise (R116, R118). -/
theorem lfoStep_off (h : p.lfoEn = false ∨ p.lfoMode = .vibrato) : lfoStep c p s = s := by
  unfold lfoStep
  rcases h with h | h <;> simp [h]

/-- Step 6 enabled (R181). -/
theorem filtStep_on (h : p.filtEn = true) : filtStep c p s = runFilt c p.lowCut p.highCut s := by simp [filtStep, h]

/-- Step 6 disabled (R132). -/
theorem filtStep_off (h : p.filtEn = false) : filtStep c p s = s := by simp [filtStep, h]

/-- Step 7 enabled (R182). -/
theorem envStep_on (h : p.envEn = true) :
    envStep c p s = runEnv c p.attackMs p.decayMs p.releaseMs p.sustain s := by simp [envStep, h]

/-- Step 7 disabled (R156). -/
theorem envStep_off (h : p.envEn = false) : envStep c p s = envIdle s := by simp [envStep, h]

/-- Everything step 8 does (R183, R184). -/
theorem outStep_eq : outStep c p s =
    { s with
      nodes := { s.nodes with out := if p.mute then 0 else fMul s.nodes.m p.volume }
      out := List.replicate c.nChannels (if p.mute then 0 else fMul s.nodes.m p.volume) } := rfl

section steps
/-- The two ways step 5 goes. -/
theorem lfoStep_cases :
    lfoStep c p s = s ∨
      p.lfoEn = true ∧ p.lfoMode = .tremolo ∧
        lfoStep c p s = runTrem c p.lfoDepth (runGen c .lfo p.lfoWave p.lfoFreq c.lfoAmp s) := by
  cases he : p.lfoEn
  · exact .inl (lfoStep_off c p s (.inl he))
  · cases hm : p.lfoMode
    · exact .inr ⟨rfl, rfl, lfoStep_tremolo c p s he hm⟩
    · exact .inl (lfoStep_off c p s (.inr hm))

@[simp] theorem lfoStep_osc1 : (lfoStep c p s).osc.osc1 = s.osc.osc1 := by
  rcases lfoStep_cases c p s with h | ⟨_, _, h⟩ <;> simp [h, runTrem_eq]
@[simp] theorem lfoStep_osc2 : (lfoStep c p s).osc.osc2 = s.osc.osc2 := by
  rcases lfoStep_cases c p s with h | ⟨_, _, h⟩ <;> simp [h, runTrem_eq]
@[simp] theorem lfoStep_filt : (lfoStep c p s).filt = s.filt := by
  rcases lfoStep_cases c p s with h | ⟨_, _, h⟩ <;> simp [h, runTrem_eq]
@[simp] theorem lfoStep_env : (lfoStep c p s).env = s.env := by
  rcases lfoStep_cases c p s with h | ⟨_, _, h⟩ <;> simp [h, runTrem_eq]
@[simp] theorem lfoStep_sampleRate : (lfoStep c p s).sampleRate = s.sampleRate := by
  rcases lfoStep_cases c p s with h | ⟨_, _, h⟩ <;> simp [h, runTrem_eq]
@[simp] theorem lfoStep_inited : (lfoStep c p s).inited = s.inited := by
  rcases lfoStep_cases c p s with h | ⟨_, _, h⟩ <;> simp [h, runTrem_eq]
@[simp] theorem lfoStep_scratch : (lfoStep c p s).scratch = s.scratch := by
  rcases lfoStep_cases c p s with h | ⟨_, _, h⟩ <;> simp [h, runTrem_eq]
@[simp] theorem lfoStep_snapshot : (lfoStep c p s).snapshot = s.snapshot := by
  rcases lfoStep_cases c p s with h | ⟨_, _, h⟩ <;> simp [h, runTrem_eq]
@[simp] theorem lfoStep_response : (lfoStep c p s).response = s.response := by
  rcases lfoStep_cases c p s with h | ⟨_, _, h⟩ <;> simp [h, runTrem_eq]
@[simp] theorem lfoStep_port : (lfoStep c p s).port = s.port := by
  rcases lfoStep_cases c p s with h | ⟨_, _, h⟩ <;> simp [h, runTrem_eq]

@[simp] theorem filtStep_osc : (filtStep c p s).osc = s.osc := by unfold filtStep; split <;> simp [runFilt_eq]
@[simp] theorem filtStep_trem : (filtStep c p s).trem = s.trem := by unfold filtStep; split <;> simp [runFilt_eq]
@[simp] theorem filtStep_env : (filtStep c p s).env = s.env := by unfold filtStep; split <;> simp [runFilt_eq]
@[simp] theorem filtStep_sampleRate : (filtStep c p s).sampleRate = s.sampleRate := by
  unfold filtStep; split <;> simp [runFilt_eq]
@[simp] theorem filtStep_inited : (filtStep c p s).inited = s.inited := by
  unfold filtStep; split <;> simp [runFilt_eq]
@[simp] theorem filtStep_snapshot : (filtStep c p s).snapshot = s.snapshot := by
  unfold filtStep; split <;> simp [runFilt_eq]
@[simp] theorem filtStep_response : (filtStep c p s).response = s.response := by
  unfold filtStep; split <;> simp [runFilt_eq]
@[simp] theorem filtStep_port : (filtStep c p s).port = s.port := by unfold filtStep; split <;> simp [runFilt_eq]

@[simp] theorem envStep_osc : (envStep c p s).osc = s.osc := by unfold envStep; split <;> simp [runEnv_eq]
@[simp] theorem envStep_trem : (envStep c p s).trem = s.trem := by unfold envStep; split <;> simp [runEnv_eq]
@[simp] theorem envStep_filt : (envStep c p s).filt = s.filt := by unfold envStep; split <;> simp [runEnv_eq]
@[simp] theorem envStep_sampleRate : (envStep c p s).sampleRate = s.sampleRate := by
  unfold envStep; split <;> simp [runEnv_eq]
@[simp] theorem envStep_inited : (envStep c p s).inited = s.inited := by unfold envStep; split <;> simp [runEnv_eq]
@[simp] theorem envStep_scratch : (envStep c p s).scratch = s.scratch := by
  unfold envStep; split <;> simp [runEnv_eq]
@[simp] theorem envStep_snapshot : (envStep c p s).snapshot = s.snapshot := by
  unfold envStep; split <;> simp [runEnv_eq]
@[simp] theorem envStep_response : (envStep c p s).response = s.response := by
  unfold envStep; split <;> simp [runEnv_eq]
@[simp] theorem envStep_port : (envStep c p s).port = s.port := by unfold envStep; split <;> simp [runEnv_eq]
end steps

/-! ### What the body as a whole leaves -/

@[simp] theorem frameBody_sampleRate : (frameBody c p s).sampleRate = s.sampleRate := by
  simp [frameBody, outStep_eq]
@[simp] theorem frameBody_inited : (frameBody c p s).inited = s.inited := by
  simp [frameBody, outStep_eq]
@[simp] theorem frameBody_snapshot : (frameBody c p s).snapshot = p := by
  simp [frameBody, outStep_eq]
@[simp] theorem frameBody_response : (frameBody c p s).response = s.response := by
  simp [frameBody, outStep_eq]
@[simp] theorem frameBody_port : (frameBody c p s).port = s.port := by
  simp [frameBody, outStep_eq]

/-- The LFO's phase and the tremolo registers after step 5 (R180, R116, R118). -/
theorem lfoStep_lfo : (lfoStep c p s).osc.lfo =
    if p.lfoEn = true ∧ p.lfoMode = .tremolo then advance s.sampleRate p.lfoFreq s.osc.lfo else s.osc.lfo := by
  by_cases h : p.lfoEn = true ∧ p.lfoMode = .tremolo
  · rw [if_pos h, lfoStep_tremolo c p s h.1 h.2]
    simp [runTrem_eq]
  · rw [if_neg h]
    have h' : p.lfoEn = false ∨ p.lfoMode = .vibrato := by
      cases he : p.lfoEn <;> cases hm : p.lfoMode <;> simp_all
    rw [lfoStep_off c p s h']

theorem lfoStep_trem : (lfoStep c p s).trem =
    if p.lfoEn = true ∧ p.lfoMode = .tremolo then
      { modphase := tremPhase c s.sampleRate s.trem.modphase s.trem.count, count := tremCount c s.trem.count }
    else s.trem := by
  by_cases h : p.lfoEn = true ∧ p.lfoMode = .tremolo
  · rw [if_pos h, lfoStep_tremolo c p s h.1 h.2]
    simp [runTrem_eq]
  · rw [if_neg h]
    have h' : p.lfoEn = false ∨ p.lfoMode = .vibrato := by
      cases he : p.lfoEn <;> cases hm : p.lfoMode <;> simp_all
    rw [lfoStep_off c p s h']

/-- The phases after the body. -/
theorem frameBody_osc : (frameBody c p s).osc =
    { osc1 := if !p.mute && p.osc1En then advance s.sampleRate p.osc1Freq s.osc.osc1 else s.osc.osc1
      osc2 := if !p.mute && p.osc2En then advance s.sampleRate p.osc2Freq s.osc.osc2 else s.osc.osc2
      lfo := if p.lfoEn = true ∧ p.lfoMode = .tremolo then advance s.sampleRate p.lfoFreq s.osc.lfo
        else s.osc.lfo } := by
  have h : ∀ {r q : OscRegs}, r.osc1 = q.osc1 → r.osc2 = q.osc2 → r.lfo = q.lfo → r = q := by
    rintro ⟨⟩ ⟨⟩ rfl rfl rfl
    rfl
  apply h <;> simp [frameBody, outStep_eq, lfoStep_lfo, oscSteps_osc]

/-- The tremolo registers after the body. -/
theorem frameBody_trem : (frameBody c p s).trem =
    if p.lfoEn = true ∧ p.lfoMode = .tremolo then
      { modphase := tremPhase c s.sampleRate s.trem.modphase s.trem.count, count := tremCount c s.trem.count }
    else s.trem := by
  simp [frameBody, outStep_eq, lfoStep_trem]

/-- The envelope registers after the body. -/
theorem frameBody_env : (frameBody c p s).env =
    if p.envEn then (env c p.attackMs p.decayMs p.releaseMs p.sustain s).2.env
    else { stage := .idle, elapsed := 0, level := 0 } := by
  cases he : p.envEn
  · simp [frameBody, outStep_eq, envStep_off _ _ _ he]
  · simp [frameBody, outStep_eq, envStep_on _ _ _ he, runEnv_eq, env_env, envStage]

/-- A disabled filter holds its history and its scratch registers (R132). -/
theorem frameBody_filt_off (h : p.filtEn = false) :
    (frameBody c p s).filt = s.filt ∧ (frameBody c p s).scratch = s.scratch := by
  simp [frameBody, outStep_eq, filtStep_off _ _ _ h]

/-- Every channel carries the one output (R183). -/
theorem frameBody_out : (frameBody c p s).out = List.replicate c.nChannels (frameBody c p s).nodes.out := by
  simp [frameBody, outStep_eq]

/-! ### The non-finite check and the commands -/

/-- What the check answers when it answers next (R188). -/
theorem checkFinite_next {t : State} (h : checkFinite s = .next t) :
    t = s ∧ registersFinite s = true ∧ fIsFinite s.nodes.out = true := by
  unfold checkFinite nonFinite at h
  split at h
  · cases h
  · next hn => cases h; simpa using hn

/-- Everything INIT and RESET can do (R195). -/
theorem initWith_cases (sr : F64) :
    (badSampleRate sr = true ∧ initWith sr s = .refused .badSampleRate) ∨
      (badSampleRate sr = false ∧ initWith sr s = .next (respond [] (resetRegs sr s))) := by
  unfold initWith; cases badSampleRate sr <;> simp

/-- Everything PROC can do (R197, R198). -/
theorem execProc_cases :
    (s.inited = false ∧ execProc p s = .refused .notInitialised) ∨
      (s.inited = true ∧ execProc p s = .fault .nonFinite) ∨
        (s.inited = true ∧ execProc p s = .next (respond (frameBody hw p s).out (frameBody hw p s)) ∧
          registersFinite (frameBody hw p s) = true ∧ fIsFinite (frameBody hw p s).nodes.out = true) := by
  unfold execProc checkFinite
  cases hi : s.inited
  · simp
  · cases hn : nonFinite (respond (frameBody hw p s).out (frameBody hw p s))
    · right; right
      refine ⟨rfl, by simp, ?_⟩
      simpa [nonFinite, registersFinite, f64Registers] using hn
    · right; left; simp

end Sys2Proof.Machine
end

