-- ==== Sys2Proof/Laws/Decode.lean ====
section
/-!
SUPPORT. The bits of an encoded header, and the enumeration codes read back.
-/

namespace Sys2Proof

@[simp] theorem waveOfCode_waveCode (w : Waveform) : waveOfCode (waveCode w) = some w := by cases w <;> decide

@[simp] theorem modeOfCode_modeCode (m : LfoMode) : modeOfCode (modeCode m) = m := by cases m <;> decide

/-- A waveform is the one whose code is read (R72). -/
theorem waveOfCode_eq_some {c : BitVec 3} {w : Waveform} : waveOfCode c = some w ↔ c = waveCode w := by
  revert c; cases w <;> decide

/-- The reserved codes are 5, 6 and 7 (R75 (c)). -/
theorem waveOfCode_eq_none {c : BitVec 3} : waveOfCode c = none ↔ 5 ≤ c.toNat := by revert c; decide

theorem getLsbD_flagAt (b : Bool) (i : Nat) {j : Nat} (hj : j < 64) :
    (flagAt b i).getLsbD j = (b && decide (i = j)) := by
  cases b
  · simp [flagAt]
  · simp [flagAt, hj]
    omega

theorem getLsbD_waveAt (w : Waveform) (i : Nat) {j : Nat} (hj : j < 64) :
    (waveAt w i).getLsbD j = (decide (i ≤ j) && (waveCode w).getLsbD (j - i)) := by
  simp only [waveAt, BitVec.getLsbD_shiftLeft, BitVec.truncate_eq_setWidth, BitVec.getLsbD_setWidth]
  by_cases h : i ≤ j
  · have h1 : j - i < 64 := by omega
    have h2 : ¬j < i := by omega
    simp [h, hj, h1, h2]
  · have : j < i := by omega
    simp [this, h]

@[simp] theorem getLsbD_waveCode (w : Waveform) {j : Nat} (h : 3 ≤ j) : (waveCode w).getLsbD j = false :=
  BitVec.getLsbD_of_ge _ _ h

/-- Every bit of a PROC header (R68). -/
theorem getLsbD_procHeader (p : Snapshot) {j : Nat} (hj : j < 64) :
    (procHeader p).getLsbD j =
      (decide (j = 1) || (p.mute && decide (2 = j)) || (p.osc1En && decide (3 = j))
        || (decide (4 ≤ j) && (waveCode p.osc1Wave).getLsbD (j - 4)) || (p.osc2En && decide (7 = j))
        || (decide (8 ≤ j) && (waveCode p.osc2Wave).getLsbD (j - 8)) || (p.lfoEn && decide (11 = j))
        || (decide (12 ≤ j) && (waveCode p.lfoWave).getLsbD (j - 12)) || (modeCode p.lfoMode && decide (15 = j))
        || (p.filtEn && decide (16 = j)) || (p.envEn && decide (17 = j))) := by
  have h2 : (0b10 : Word).getLsbD j = decide (j = 1) := by revert j; decide
  simp only [procHeader, BitVec.getLsbD_or, getLsbD_flagAt _ _ hj, getLsbD_waveAt _ _ hj, h2]

/-- The opcode of a PROC header. -/
@[simp] theorem opcodeOf_procHeader (p : Snapshot) : opcodeOf (procHeader p) = 0b10 := by
  apply BitVec.eq_of_getLsbD_eq
  intro j hj
  rw [opcodeOf, BitVec.getLsbD_extractLsb', getLsbD_procHeader p (by omega)]
  interval_cases j <;> simp

@[simp] theorem o1waveOf_procHeader (p : Snapshot) : o1waveOf (procHeader p) = waveCode p.osc1Wave := by
  apply BitVec.eq_of_getLsbD_eq
  intro j hj
  rw [o1waveOf, BitVec.getLsbD_extractLsb', getLsbD_procHeader p (by omega)]
  interval_cases j <;> simp

@[simp] theorem o2waveOf_procHeader (p : Snapshot) : o2waveOf (procHeader p) = waveCode p.osc2Wave := by
  apply BitVec.eq_of_getLsbD_eq
  intro j hj
  rw [o2waveOf, BitVec.getLsbD_extractLsb', getLsbD_procHeader p (by omega)]
  interval_cases j <;> simp

@[simp] theorem lfowaveOf_procHeader (p : Snapshot) : lfowaveOf (procHeader p) = waveCode p.lfoWave := by
  apply BitVec.eq_of_getLsbD_eq
  intro j hj
  rw [lfowaveOf, BitVec.getLsbD_extractLsb', getLsbD_procHeader p (by omega)]
  interval_cases j <;> simp

/-- The flags of a PROC header (R68). -/
theorem procHeader_flags (p : Snapshot) :
    (procHeader p).getLsbD 2 = p.mute ∧ (procHeader p).getLsbD 3 = p.osc1En ∧ (procHeader p).getLsbD 7 = p.osc2En ∧
      (procHeader p).getLsbD 11 = p.lfoEn ∧ (procHeader p).getLsbD 15 = modeCode p.lfoMode ∧
      (procHeader p).getLsbD 16 = p.filtEn ∧ (procHeader p).getLsbD 17 = p.envEn := by
  refine ⟨?_, ?_, ?_, ?_, ?_, ?_, ?_⟩ <;> rw [getLsbD_procHeader p (by decide)] <;> simp

/-! The flags as `simp` spells them. -/

@[simp] theorem procHeader_bit2 (p : Snapshot) : (procHeader p)[2] = p.mute := (procHeader_flags p).1
@[simp] theorem procHeader_bit3 (p : Snapshot) : (procHeader p)[3] = p.osc1En := (procHeader_flags p).2.1
@[simp] theorem procHeader_bit7 (p : Snapshot) : (procHeader p)[7] = p.osc2En := (procHeader_flags p).2.2.1
@[simp] theorem procHeader_bit11 (p : Snapshot) : (procHeader p)[11] = p.lfoEn := (procHeader_flags p).2.2.2.1
@[simp] theorem procHeader_bit15 (p : Snapshot) : (procHeader p)[15] = modeCode p.lfoMode := (procHeader_flags p).2.2.2.2.1
@[simp] theorem procHeader_bit16 (p : Snapshot) : (procHeader p)[16] = p.filtEn := (procHeader_flags p).2.2.2.2.2.1
@[simp] theorem procHeader_bit17 (p : Snapshot) : (procHeader p)[17] = p.envEn := (procHeader_flags p).2.2.2.2.2.2

/-- A PROC header's reserved bits are clear (R68). -/
@[simp] theorem procHeader_reserved (p : Snapshot) : procHeader p &&& 0xFFFFFFFFFFFC0000#64 = 0#64 := by
  apply BitVec.eq_of_getLsbD_eq
  intro j hj
  rw [BitVec.getLsbD_and, getLsbD_procHeader p hj]
  interval_cases j <;> simp

end Sys2Proof
end

