-- ==== Sys2Proof/Laws/Float.lean ====
section
/-!
SUPPORT. What the binary64 operations rest on: the grid of representable magnitudes, rounding to it, and the order.
-/

namespace Sys2Proof.Machine

/-! ### Sign and magnitude -/

theorem fMag_lt (x : F64) : fMag x < 2 ^ 63 := Nat.mod_lt _ (by decide)

theorem fMag_fMake (neg : Bool) {m : Nat} (h : m < 2 ^ 63) : fMag (fMake neg m) = m := by
  simp only [fMag, fMake, BitVec.toNat_ofNat]
  cases neg <;> simp <;> omega

theorem fSign_fMake (neg : Bool) {m : Nat} (h : m < 2 ^ 63) : fSign (fMake neg m) = neg := by
  simp only [fSign, fMake, BitVec.getLsbD_ofNat]
  cases neg
  · simp [Nat.testBit_lt_two_pow h]
  · have : Nat.testBit (2 ^ 63 + m) 63 = true := by
      rw [Nat.testBit_two_pow_add_eq, Nat.testBit_lt_two_pow h]; rfl
    simpa using this

theorem fSign_eq_decide (x : F64) : fSign x = decide (2 ^ 63 ≤ x.toNat) := by
  have hx := x.isLt
  simp only [fSign, BitVec.getLsbD, Nat.testBit_eq_decide_div_mod_eq]
  congr 1
  simp only [eq_iff_iff]
  omega

/-- A value is its sign and its magnitude. -/
theorem fMake_eta (x : F64) : fMake (fSign x) (fMag x) = x := by
  have hx := x.isLt
  apply BitVec.eq_of_toNat_eq
  rw [fSign_eq_decide]
  simp only [fMake, fMag, BitVec.toNat_ofNat]
  by_cases h : 2 ^ 63 ≤ x.toNat
  · simp only [h, decide_true, if_true]; omega
  · simp only [h, decide_false]; simp; omega

theorem eq_of_sign_mag {x y : F64} (hs : fSign x = fSign y) (hm : fMag x = fMag y) : x = y := by
  rw [← fMake_eta x, ← fMake_eta y, hs, hm]

theorem fMag_eq_setWidth (x : F64) : fMag x = (x.setWidth 63).toNat := by simp [fMag]

@[simp] theorem fSign_fNeg (x : F64) : fSign (fNeg x) = !fSign x := by
  simp [fSign, fNeg]

@[simp] theorem fMag_fNeg (x : F64) : fMag (fNeg x) = fMag x := by
  rw [fMag_eq_setWidth, fMag_eq_setWidth, fNeg, BitVec.setWidth_xor]
  simp

@[simp] theorem fSign_fAbs (x : F64) : fSign (fAbs x) = false := by
  simp [fSign, fAbs]

@[simp] theorem fMag_fAbs (x : F64) : fMag (fAbs x) = fMag x := by
  rw [fMag_eq_setWidth, fMag_eq_setWidth, fAbs, BitVec.setWidth_and]
  congr 1
  rw [show (0x7FFFFFFFFFFFFFFF : BitVec 64).setWidth 63 = BitVec.allOnes 63 by decide]
  exact BitVec.and_allOnes

@[simp] theorem fMag_zero : fMag 0#64 = 0 := by decide
@[simp] theorem fSign_zero : fSign 0#64 = false := by decide
@[simp] theorem fInt_zero : fInt 0#64 = 0 := by decide
@[simp] theorem fKey_zero : fKey 0#64 = 0 := by decide
@[simp] theorem fIsFinite_zero : fIsFinite 0#64 = true := by decide

/-! ### The grid of representable magnitudes -/

/-- Magnitude bits built from a shift and a significand. -/
theorem magUnits_shift {k m : Nat} (hlo : k = 0 ∨ 2 ^ 52 ≤ m) (hhi : m ≤ 2 ^ 53) :
    magUnits (k * 2 ^ 52 + m) = m * 2 ^ k := by
  unfold magUnits
  rcases Nat.lt_or_ge m (2 ^ 52) with h | h
  · obtain rfl : k = 0 := by omega
    rw [if_pos (by omega)]
    omega
  · rcases Nat.lt_or_ge m (2 ^ 53) with h' | h'
    · have h1 : (k * 2 ^ 52 + m) / 2 ^ 52 = k + 1 := by omega
      have h2 : (k * 2 ^ 52 + m) % 2 ^ 52 = m - 2 ^ 52 := by omega
      rw [h1, h2, if_neg (by omega), Nat.add_sub_cancel, show 2 ^ 52 + (m - 2 ^ 52) = m by omega]
    · obtain rfl : m = 2 ^ 53 := by omega
      have h1 : (k * 2 ^ 52 + 2 ^ 53) / 2 ^ 52 = k + 2 := by omega
      have h2 : (k * 2 ^ 52 + 2 ^ 53) % 2 ^ 52 = 0 := by omega
      rw [h1, h2, if_neg (by omega), show k + 2 - 1 = k + 1 by omega]
      ring

/-- Every magnitude is a shift and a significand, the significand normal unless the shift is 0. -/
theorem mag_split (b : Nat) :
    ∃ k m, b = k * 2 ^ 52 + m ∧ (k = 0 ∨ 2 ^ 52 ≤ m) ∧ m < 2 ^ 53 := by
  rcases Nat.lt_or_ge b (2 ^ 53) with h | h
  · exact ⟨0, b, by omega, .inl rfl, h⟩
  · exact ⟨b / 2 ^ 52 - 1, b % 2 ^ 52 + 2 ^ 52, by omega, .inr (by omega), by omega⟩

theorem magUnits_lt_succ (b : Nat) : magUnits b < magUnits (b + 1) := by
  obtain ⟨k, m, rfl, hlo, hhi⟩ := mag_split b
  rw [magUnits_shift hlo (by omega), Nat.add_assoc, magUnits_shift (by omega) (by omega)]
  exact Nat.mul_lt_mul_of_pos_right (Nat.lt_succ_self m) (by positivity)

/-- The order of magnitudes is the order of their bits. -/
theorem magUnits_strictMono : StrictMono magUnits := strictMono_nat_of_lt_succ magUnits_lt_succ

@[simp] theorem magUnits_lt_iff {a b : Nat} : magUnits a < magUnits b ↔ a < b := magUnits_strictMono.lt_iff_lt

@[simp] theorem magUnits_le_iff {a b : Nat} : magUnits a ≤ magUnits b ↔ a ≤ b := magUnits_strictMono.le_iff_le

@[simp] theorem magUnits_zero : magUnits 0 = 0 := by decide

/-! ### Rounding -/

/-- `divRNE` is a nearest integer. -/
theorem divRNE_bounds {n d : Nat} (hd : 0 < d) :
    2 * n ≤ (2 * divRNE n d + 1) * d ∧ 2 * divRNE n d * d ≤ 2 * n + d := by
  have h := Nat.div_add_mod n d
  have hlt := Nat.mod_lt n hd
  unfold divRNE
  generalize n / d = q at *
  generalize n % d = r at *
  subst h
  split
  · next hc =>
    have : 2 * r ≤ d := by omega
    constructor <;> nlinarith
  · next hc =>
    have : d ≤ 2 * r := by omega
    constructor <;> nlinarith

/-- The quotient is within half a unit, and a tie leaves an even result. -/
theorem divRNE_tie {n d : Nat} (hd : 0 < d)
    (h : 2 * n = (2 * divRNE n d + 1) * d ∨ 2 * divRNE n d * d = 2 * n + d) : divRNE n d % 2 = 0 := by
  have hn := Nat.div_add_mod n d
  have hlt := Nat.mod_lt n hd
  revert h
  unfold divRNE
  generalize n / d = q at *
  generalize n % d = r at *
  subst hn
  split
  · next hc =>
    intro h
    have hr : 2 * r = d := by
      rcases h with h | h <;> nlinarith
    omega
  · next hc =>
    intro h
    have hr : 2 * r = d := by
      rcases h with h | h <;> nlinarith
    omega

/-- Where the quotient lies: below the shift's binade top, and at least its bottom when there is a shift. -/
theorem roundShift_bounds {n d : Nat} (hd : 0 < d) :
    n < 2 ^ 53 * (d * 2 ^ roundShift n d) ∧
      (roundShift n d = 0 ∨ 2 ^ 52 * (d * 2 ^ roundShift n d) ≤ n) := by
  set k := roundShift n d with hk
  have hup : n / d < 2 ^ (Nat.log2 (n / d) + 1) := Nat.lt_log2_self
  have hle : Nat.log2 (n / d) + 1 ≤ 53 + k := by simp only [hk, roundShift]; omega
  have h1 : n / d < 2 ^ (53 + k) := lt_of_lt_of_le hup (Nat.pow_le_pow_right (by decide) hle)
  constructor
  · have := (Nat.div_lt_iff_lt_mul hd).1 h1
    calc n < 2 ^ (53 + k) * d := this
      _ = 2 ^ 53 * (d * 2 ^ k) := by ring
  · rcases Nat.eq_zero_or_pos k with h0 | hpos
    · exact .inl h0
    · right
      have hne : n / d ≠ 0 := by
        intro h0
        simp [hk, roundShift, h0] at hpos
      have hlow : 2 ^ Nat.log2 (n / d) ≤ n / d := Nat.log2_self_le hne
      have heq : Nat.log2 (n / d) = 52 + k := by simp only [hk, roundShift] at hpos ⊢; omega
      rw [heq] at hlow
      have := (Nat.le_div_iff_mul_le hd).1 hlow
      calc 2 ^ 52 * (d * 2 ^ k) = 2 ^ (52 + k) * d := by ring
        _ ≤ n := this

/-- Rounding before the overflow cut. -/
def roundMagRaw (n d : Nat) : Nat := roundShift n d * 2 ^ 52 + divRNE n (d * 2 ^ roundShift n d)

theorem roundMag_eq (n d : Nat) : roundMag n d = min (roundMagRaw n d) infMag := rfl

/-- The rounded significand stays in its binade. -/
theorem roundSig_bounds {n d : Nat} (hd : 0 < d) :
    (roundShift n d = 0 ∨ 2 ^ 52 ≤ divRNE n (d * 2 ^ roundShift n d)) ∧
      divRNE n (d * 2 ^ roundShift n d) ≤ 2 ^ 53 := by
  obtain ⟨hup, hlow⟩ := roundShift_bounds (n := n) hd
  set D := d * 2 ^ roundShift n d with hD
  have hDpos : 0 < D := by positivity
  obtain ⟨hb1, hb2⟩ := divRNE_bounds (n := n) hDpos
  constructor
  · rcases hlow with h | h
    · exact .inl h
    · right
      by_contra hc
      have h2 : divRNE n D + 1 ≤ 2 ^ 52 := by omega
      nlinarith
  · by_contra hc
    have h2 : 2 ^ 53 + 1 ≤ divRNE n D := by omega
    nlinarith

/-- The units of the rounded magnitude. -/
theorem magUnits_roundMagRaw {n d : Nat} (hd : 0 < d) :
    magUnits (roundMagRaw n d) = divRNE n (d * 2 ^ roundShift n d) * 2 ^ roundShift n d :=
  magUnits_shift (roundSig_bounds hd).1 (roundSig_bounds hd).2

/-- `divRNE` is monotone in the quotient. -/
theorem divRNE_mono {n n' d d' : Nat} (hd : 0 < d) (hd' : 0 < d') (h : n * d' ≤ n' * d) :
    divRNE n d ≤ divRNE n' d' := by
  obtain ⟨_, a2⟩ := divRNE_bounds (n := n) hd
  obtain ⟨b1, _⟩ := divRNE_bounds (n := n') hd'
  have t1 := divRNE_tie (n := n) hd
  have t2 := divRNE_tie (n := n') hd'
  generalize divRNE n d = m at *
  generalize divRNE n' d' = m' at *
  by_contra hc
  have hlt : m' + 1 ≤ m := by omega
  have hdd : 0 < d * d' := Nat.mul_pos hd hd'
  have c1 : 2 * m * d * d' ≤ (2 * n + d) * d' := Nat.mul_le_mul_right d' a2
  have c2 : 2 * n' * d ≤ (2 * m' + 1) * d' * d := Nat.mul_le_mul_right d b1
  have hm : m = m' + 1 := by
    by_contra hne
    have : m' + 2 ≤ m := by omega
    nlinarith
  subst hm
  have e1 : 2 * (m' + 1) * d = 2 * n + d := by
    have : 2 * (m' + 1) * d * d' = (2 * n + d) * d' := by nlinarith
    exact Nat.eq_of_mul_eq_mul_right hd' this
  have e2 : 2 * n' = (2 * m' + 1) * d' := by
    have : 2 * n' * d = (2 * m' + 1) * d' * d := by nlinarith
    exact Nat.eq_of_mul_eq_mul_right hd this
  have p1 := t1 (.inr e1)
  have p2 := t2 (.inl e2)
  omega

theorem roundShift_mono {n n' d d' : Nat} (hd : 0 < d) (hd' : 0 < d') (h : n * d' ≤ n' * d) :
    roundShift n d ≤ roundShift n' d' := by
  have hq : n / d ≤ n' / d' := by
    rw [Nat.le_div_iff_mul_le hd']
    have h1 := Nat.div_mul_le_self n d
    have : n / d * d' * d ≤ n' * d := by nlinarith
    exact Nat.le_of_mul_le_mul_right this hd
  have : Nat.log2 (n / d) ≤ Nat.log2 (n' / d') := by
    rw [Nat.log2_eq_log_two, Nat.log2_eq_log_two]
    exact Nat.log_mono_right hq
  unfold roundShift
  omega

/-- Rounding is monotone in the quotient. -/
theorem roundMagRaw_mono {n n' d d' : Nat} (hd : 0 < d) (hd' : 0 < d') (h : n * d' ≤ n' * d) :
    roundMagRaw n d ≤ roundMagRaw n' d' := by
  obtain ⟨hlo, hhi⟩ := roundSig_bounds (n := n) hd
  obtain ⟨hlo', hhi'⟩ := roundSig_bounds (n := n') hd'
  have hk := roundShift_mono hd hd' h
  unfold roundMagRaw
  rcases Nat.lt_or_eq_of_le hk with hk | hk
  · omega
  · rw [← hk]
    refine Nat.add_le_add_left (divRNE_mono (by positivity) (by positivity) ?_) _
    calc n * (d' * 2 ^ roundShift n d) = n * d' * 2 ^ roundShift n d := by ring
      _ ≤ n' * d * 2 ^ roundShift n d := Nat.mul_le_mul_right _ h
      _ = n' * (d * 2 ^ roundShift n d) := by ring

theorem roundMag_mono {n n' d d' : Nat} (hd : 0 < d) (hd' : 0 < d') (h : n * d' ≤ n' * d) :
    roundMag n d ≤ roundMag n' d' := by
  rw [roundMag_eq, roundMag_eq]
  exact min_le_min_right _ (roundMagRaw_mono hd hd' h)

/-- The rounded significand is the nearest multiple of the unit; a tie leaves it even. -/
theorem divRNE_nearest {n d : Nat} (hd : 0 < d) (j : Nat) :
    |((divRNE n d * d : Nat) : Int) - n| ≤ |((j * d : Nat) : Int) - n| ∧
      (|((divRNE n d * d : Nat) : Int) - n| = |((j * d : Nat) : Int) - n| → j ≠ divRNE n d →
        divRNE n d % 2 = 0) := by
  obtain ⟨b1, b2⟩ := divRNE_bounds (n := n) hd
  have t := divRNE_tie (n := n) hd
  generalize divRNE n d = m at *
  rcases Nat.lt_trichotomy j m with hj | rfl | hj
  · have h1 : (j + 1) * d ≤ m * d := Nat.mul_le_mul_right d hj
    have h2 : (j + 1) * d = j * d + d := by ring
    have h3 : 2 * m * d = 2 * (m * d) := by ring
    have h4 : (2 * m + 1) * d = 2 * (m * d) + d := by ring
    generalize j * d = x at *
    generalize m * d = y at *
    rw [h2] at h1
    refine ⟨?_, fun he _ => t (.inr ?_)⟩
    · rcases abs_cases ((y : Int) - n) with ⟨e1, _⟩ | ⟨e1, _⟩ <;>
        rcases abs_cases ((x : Int) - n) with ⟨e2, _⟩ | ⟨e2, _⟩ <;> rw [e1, e2] <;> omega
    rcases abs_eq_abs.1 he with he | he <;> omega
  · exact ⟨le_refl _, fun _ h => absurd rfl h⟩
  · have h1 : (m + 1) * d ≤ j * d := Nat.mul_le_mul_right d hj
    have h2 : (m + 1) * d = m * d + d := by ring
    have h3 : 2 * m * d = 2 * (m * d) := by ring
    have h4 : (2 * m + 1) * d = 2 * (m * d) + d := by ring
    generalize j * d = x at *
    generalize m * d = y at *
    rw [h2] at h1
    refine ⟨?_, fun he _ => t (.inl ?_)⟩
    · rcases abs_cases ((y : Int) - n) with ⟨e1, _⟩ | ⟨e1, _⟩ <;>
        rcases abs_cases ((x : Int) - n) with ⟨e2, _⟩ | ⟨e2, _⟩ <;> rw [e1, e2] <;> omega
    rcases abs_eq_abs.1 he with he | he <;> omega

/-- The rounded magnitude is a nearest grid point; at a tie its last bit is 0. Distances are scaled by `d`. -/
theorem roundMagRaw_nearest {n d : Nat} (hd : 0 < d) (b : Nat) :
    |((magUnits (roundMagRaw n d) * d : Nat) : Int) - n| ≤ |((magUnits b * d : Nat) : Int) - n| ∧
      (|((magUnits (roundMagRaw n d) * d : Nat) : Int) - n| = |((magUnits b * d : Nat) : Int) - n| →
        b ≠ roundMagRaw n d → roundMagRaw n d % 2 = 0) := by
  obtain ⟨hup, hlow⟩ := roundShift_bounds (n := n) hd
  have hraw : roundMagRaw n d % 2 = divRNE n (d * 2 ^ roundShift n d) % 2 := by
    unfold roundMagRaw; omega
  rw [hraw, magUnits_roundMagRaw hd]
  set k := roundShift n d with hk
  have hD : 0 < d * 2 ^ k := by positivity
  have hu : divRNE n (d * 2 ^ k) * 2 ^ k * d = divRNE n (d * 2 ^ k) * (d * 2 ^ k) := by ring
  rw [hu]
  obtain ⟨k', m', rfl, hlo', hhi'⟩ := mag_split b
  rw [magUnits_shift hlo' (le_of_lt hhi')]
  rcases Nat.lt_or_ge k' k with hlt | hge
  · have hn : 2 ^ 52 * (d * 2 ^ k) ≤ n := by
      rcases hlow with h | h
      · omega
      · exact h
    have hsmall : m' * 2 ^ k' * d < 2 ^ 52 * (d * 2 ^ k) := by
      have h1 : m' * 2 ^ k' < 2 ^ 53 * 2 ^ k' := Nat.mul_lt_mul_of_pos_right hhi' (by positivity)
      have h2 : 2 ^ 53 * 2 ^ k' ≤ 2 ^ 52 * 2 ^ k := by
        rw [← pow_add, ← pow_add]
        exact Nat.pow_le_pow_right (by decide) (by omega)
      calc m' * 2 ^ k' * d < 2 ^ 52 * 2 ^ k * d := Nat.mul_lt_mul_of_pos_right (lt_of_lt_of_le h1 h2) hd
        _ = 2 ^ 52 * (d * 2 ^ k) := by ring
    have hnear := (divRNE_nearest (n := n) hD (2 ^ 52)).1
    have hstrict : |((2 ^ 52 * (d * 2 ^ k) : Nat) : Int) - n| < |((m' * 2 ^ k' * d : Nat) : Int) - n| := by
      generalize 2 ^ 52 * (d * 2 ^ k) = x at *
      generalize m' * 2 ^ k' * d = y at *
      rcases abs_cases ((y : Int) - n) with ⟨e1, _⟩ | ⟨e1, _⟩ <;>
        rcases abs_cases ((x : Int) - n) with ⟨e2, _⟩ | ⟨e2, _⟩ <;> rw [e1, e2] <;> omega
    exact ⟨le_of_lt (lt_of_le_of_lt hnear hstrict), fun he => absurd he (ne_of_lt (lt_of_le_of_lt hnear hstrict))⟩
  · have hj : m' * 2 ^ k' * d = m' * 2 ^ (k' - k) * (d * 2 ^ k) := by
      have : 2 ^ k' = 2 ^ (k' - k) * 2 ^ k := by rw [← pow_add, Nat.sub_add_cancel hge]
      rw [this]; ring
    rw [hj]
    obtain ⟨h1, h2⟩ := divRNE_nearest (n := n) hD (m' * 2 ^ (k' - k))
    refine ⟨h1, fun he hne => h2 he fun hc => hne ?_⟩
    apply magUnits_strictMono.injective
    rw [magUnits_roundMagRaw hd, magUnits_shift hlo' (le_of_lt hhi'), ← hk, ← hc]
    have : 2 ^ k' = 2 ^ (k' - k) * 2 ^ k := by rw [← pow_add, Nat.sub_add_cancel hge]
    rw [this]; ring

/-- A representable magnitude rounds to itself. -/
theorem roundMagRaw_exact {d : Nat} (hd : 0 < d) (b : Nat) : roundMagRaw (magUnits b * d) d = b := by
  have h := (roundMagRaw_nearest (n := magUnits b * d) hd b).1
  rw [sub_self, abs_zero] at h
  have h0 := abs_eq_zero.1 (le_antisymm h (abs_nonneg _))
  have h1 : magUnits (roundMagRaw (magUnits b * d) d) * d = magUnits b * d := by omega
  exact magUnits_strictMono.injective (Nat.eq_of_mul_eq_mul_right hd h1)

theorem roundMag_exact {d : Nat} (hd : 0 < d) {b : Nat} (hb : b ≤ infMag) : roundMag (magUnits b * d) d = b := by
  rw [roundMag_eq, roundMagRaw_exact hd]; omega

/-- A quotient at most a representable magnitude rounds to at most that magnitude. -/
theorem roundMag_le {n d b : Nat} (hd : 0 < d) (h : n ≤ magUnits b * d) : roundMag n d ≤ b := by
  have h1 := roundMagRaw_mono (n := n) (n' := magUnits b * d) hd hd (Nat.mul_le_mul_right d h)
  rw [roundMagRaw_exact hd] at h1
  rw [roundMag_eq]; omega

/-- A quotient at least a representable magnitude rounds to at least that magnitude. -/
theorem le_roundMag {n d b : Nat} (hd : 0 < d) (hb : b ≤ infMag) (h : magUnits b * d ≤ n) : b ≤ roundMag n d := by
  have h1 := roundMagRaw_mono (n := magUnits b * d) (n' := n) hd hd (Nat.mul_le_mul_right d h)
  rw [roundMagRaw_exact hd] at h1
  rw [roundMag_eq]; omega

theorem roundMag_le_inf (n d : Nat) : roundMag n d ≤ infMag := Nat.min_le_right _ _

theorem roundMag_lt_pow (n d : Nat) : roundMag n d < 2 ^ 63 := lt_of_le_of_lt (roundMag_le_inf n d) (by decide)

@[simp] theorem roundMag_zero {d : Nat} (hd : 0 < d) : roundMag 0 d = 0 := by
  have := roundMag_le (n := 0) (b := 0) hd (by simp)
  omega

/-! ### Order and value -/

theorem fIsFinite_iff {x : F64} : fIsFinite x = true ↔ fMag x < infMag := by simp [fIsFinite]

theorem fIsNaN_iff {x : F64} : fIsNaN x = true ↔ infMag < fMag x := by simp [fIsNaN]

theorem not_nan_of_finite {x : F64} (h : fIsFinite x = true) : fIsNaN x = false := by
  rw [fIsFinite_iff] at h
  simp [fIsNaN]; omega

theorem not_inf_of_finite {x : F64} (h : fIsFinite x = true) : fIsInf x = false := by
  rw [fIsFinite_iff] at h
  simp [fIsInf]; omega

/-- The integer of units orders as the bits do. -/
theorem fInt_lt_iff {a b : F64} : fInt a < fInt b ↔ fKey a < fKey b := by
  have h1 := @magUnits_lt_iff (fMag a) (fMag b)
  have h2 := @magUnits_lt_iff (fMag b) (fMag a)
  have h3 := @magUnits_lt_iff 0 (fMag a)
  have h4 := @magUnits_lt_iff 0 (fMag b)
  simp only [magUnits_zero] at h3 h4
  unfold fInt fKey
  cases fSign a <;> cases fSign b <;> simp <;> omega

theorem fInt_le_iff {a b : F64} : fInt a ≤ fInt b ↔ fKey a ≤ fKey b := by
  rw [← not_lt, fInt_lt_iff, not_lt]

theorem fLt_iff {a b : F64} : fLt a b = true ↔ fIsNaN a = false ∧ fIsNaN b = false ∧ fKey a < fKey b := by
  simp [fLt, and_assoc]

theorem fLe_iff {a b : F64} : fLe a b = true ↔ fIsNaN a = false ∧ fIsNaN b = false ∧ fKey a ≤ fKey b := by
  simp [fLe, and_assoc]

/-- What an exact sum rounds to. -/
theorem roundInt_mag (z : Bool) (s : Int) : fMag (roundInt z s) = roundMag s.natAbs 1 := by
  unfold roundInt
  split
  · next h => subst h; rw [fMag_fMake _ (by decide)]; simp
  · exact fMag_fMake _ (roundMag_lt_pow _ _)

/-- The sum of finite operands is the rounded exact sum (R8). -/
theorem fAdd_finite {a b : F64} (ha : fIsFinite a = true) (hb : fIsFinite b = true) :
    fAdd a b = roundInt (fSign a && fSign b) (fInt a + fInt b) := by
  simp [fAdd, addFrom, not_nan_of_finite ha, not_nan_of_finite hb, not_inf_of_finite ha, not_inf_of_finite hb]

theorem fInt_fNeg (x : F64) : fInt (fNeg x) = -fInt x := by
  unfold fInt
  cases h : fSign x <;> simp [h]

theorem fIsFinite_fNeg (x : F64) : fIsFinite (fNeg x) = fIsFinite x := by simp [fIsFinite]

/-- The difference of finite operands is the rounded exact difference (R8). -/
theorem fSub_finite {a b : F64} (ha : fIsFinite a = true) (hb : fIsFinite b = true) :
    fSub a b = roundInt (fSign a && !fSign b) (fInt a - fInt b) := by
  have hb' : fIsInf (fNeg b) = false := by
    apply not_inf_of_finite; rw [fIsFinite_fNeg]; exact hb
  simp [fSub, addFrom, not_nan_of_finite ha, not_nan_of_finite hb, not_inf_of_finite ha, hb', fInt_fNeg,
    sub_eq_add_neg]

/-- The product of finite operands is the rounded exact product (R8). -/
theorem fMul_finite {a b : F64} (ha : fIsFinite a = true) (hb : fIsFinite b = true) :
    fMul a b = fMake (fSign a != fSign b) (roundMag (magUnits (fMag a) * magUnits (fMag b)) (2 ^ 1074)) := by
  simp only [fMul, not_nan_of_finite ha, not_nan_of_finite hb, not_inf_of_finite ha, not_inf_of_finite hb,
    Bool.or_false, Bool.false_eq_true, if_false]

/-- The quotient of finite operands, the divisor not zero, is the rounded exact quotient (R8). -/
theorem fDiv_finite {a b : F64} (ha : fIsFinite a = true) (hb : fIsFinite b = true) (h0 : fMag b ≠ 0) :
    fDiv a b = fMake (fSign a != fSign b) (roundMag (magUnits (fMag a) * 2 ^ 1074) (magUnits (fMag b))) := by
  simp only [fDiv, not_nan_of_finite ha, not_nan_of_finite hb, not_inf_of_finite ha, not_inf_of_finite hb,
    Bool.or_false, Bool.false_eq_true, if_false, beq_iff_eq, h0]

/-- The NaN an operation delivers is a NaN. -/
@[simp] theorem fIsNaN_fNaN (op : FloatOp) (a b : F64) : fIsNaN (fNaN op a b) = true := by
  unfold fNaN; split
  · assumption
  · decide

/-- NaN in, NaN out. -/
theorem fAdd_nan {a b : F64} (h : fIsNaN a = true ∨ fIsNaN b = true) : fIsNaN (fAdd a b) = true := by
  rcases h with h | h <;> simp [fAdd, h]

theorem fSub_nan {a b : F64} (h : fIsNaN a = true ∨ fIsNaN b = true) : fIsNaN (fSub a b) = true := by
  rcases h with h | h <;> simp [fSub, h]

theorem fMul_nan {a b : F64} (h : fIsNaN a = true ∨ fIsNaN b = true) : fIsNaN (fMul a b) = true := by
  rcases h with h | h <;> simp [fMul, h]

theorem fDiv_nan {a b : F64} (h : fIsNaN a = true ∨ fIsNaN b = true) : fIsNaN (fDiv a b) = true := by
  rcases h with h | h <;> simp [fDiv, h]

/-- A value is a NaN, an infinity or finite. -/
theorem class_cases (x : F64) : fIsNaN x = true ∨ fIsInf x = true ∨ fIsFinite x = true := by
  rw [fIsNaN_iff, fIsFinite_iff]
  simp only [fIsInf, beq_iff_eq]
  omega

theorem magUnits_pos {m : Nat} (h : 0 < m) : 0 < magUnits m := by
  have := magUnits_lt_iff (a := 0) (b := m)
  simp only [magUnits_zero] at this
  exact this.2 h

theorem magUnits_eq_zero {m : Nat} : magUnits m = 0 ↔ m = 0 := by
  constructor
  · intro h
    by_contra h0
    exact absurd h (Nat.pos_iff_ne_zero.1 (magUnits_pos (Nat.pos_of_ne_zero h0)))
  · rintro rfl; simp

/-- `1.0` is `2^1074` units. -/
theorem magUnits_one : magUnits (fMag one) = 2 ^ 1074 := by decide +kernel

/-- An F64 made from a sign and a rounded magnitude is no NaN. -/
theorem fIsNaN_make_roundMag (b : Bool) (n d : Nat) : fIsNaN (fMake b (roundMag n d)) = false := by
  have h := roundMag_le_inf n d
  simp only [fIsNaN, fMag_fMake b (roundMag_lt_pow n d), decide_eq_false_iff_not]
  omega

/-- Multiplying by `1.0` changes no value (R8). -/
theorem fMul_one {a : F64} (h : fIsNaN a = false) : fMul a one = a := by
  rcases class_cases a with h1 | h1 | h1
  · rw [h] at h1; cases h1
  · have h2 : fMag a = infMag := by simpa [fIsInf] using h1
    simp only [fMul, h, h1, show fIsNaN one = false by decide, h2, Bool.or_false, Bool.true_or, if_true,
      Bool.false_eq_true, if_false, show (infMag == 0) = false by decide, show (fMag one == 0) = false by decide]
    apply eq_of_sign_mag
    · rw [fSign_fMake _ (by decide)]; simp [show fSign one = false by decide]
    · rw [fMag_fMake _ (by decide), h2]
  · rw [fMul_finite h1 (by decide), magUnits_one,
      roundMag_exact (by positivity) (by have := fIsFinite_iff.1 h1; omega)]
    apply eq_of_sign_mag
    · rw [fSign_fMake _ (fMag_lt a)]; simp [show fSign one = false by decide]
    · rw [fMag_fMake _ (fMag_lt a)]

/-- Multiplication is commutative but for the bits of a NaN. -/
theorem fMul_comm {a b : F64} (ha : fIsFinite a = true) (hb : fIsFinite b = true) : fMul a b = fMul b a := by
  rw [fMul_finite ha hb, fMul_finite hb ha, Nat.mul_comm]
  cases fSign a <;> cases fSign b <;> rfl

/-- A rounded exact sum that is a representable value is that value. -/
theorem roundInt_fInt {x : F64} (hx : fIsFinite x = true) (h0 : fInt x ≠ 0) (z : Bool) : roundInt z (fInt x) = x := by
  have hf := fIsFinite_iff.1 hx
  have hm : (fInt x).natAbs = magUnits (fMag x) := by unfold fInt; split <;> simp
  have hs : decide (fInt x < 0) = fSign x := by
    have hz : fMag x ≠ 0 := by
      intro h; apply h0; unfold fInt; simp [h]
    have := magUnits_pos (Nat.pos_of_ne_zero hz)
    unfold fInt
    cases fSign x <;> simp
    omega
  have hr := roundMag_exact (d := 1) (by decide) (b := fMag x) (by omega)
  rw [Nat.mul_one] at hr
  unfold roundInt
  rw [if_neg h0, hm, hs, hr]
  exact fMake_eta x

/-- An open value normalised by its constraint meets it. -/
theorem constrained_ok {ok : F64 → Bool} {x dflt : F64} (h : ok dflt = true) : ok (constrained ok x dflt) = true := by
  unfold constrained; split <;> assumption

/-! ### Finite results -/

theorem fIsFinite_nan {x : F64} (h : fIsNaN x = true) : fIsFinite x = false := by
  cases hf : fIsFinite x
  · rfl
  · rw [not_nan_of_finite hf] at h; cases h

theorem fIsFinite_inf {x : F64} (h : fIsInf x = true) : fIsFinite x = false := by
  cases hf : fIsFinite x
  · rfl
  · rw [not_inf_of_finite hf] at h; cases h

theorem fIsFinite_make_inf (z : Bool) : fIsFinite (fMake z infMag) = false := by cases z <;> decide

theorem fIsFinite_fNaN (op : FloatOp) (a b : F64) : fIsFinite (fNaN op a b) = false := fIsFinite_nan (fIsNaN_fNaN op a b)

theorem fIsNaN_fNeg (x : F64) : fIsNaN (fNeg x) = fIsNaN x := by simp [fIsNaN]

theorem fIsInf_fNeg (x : F64) : fIsInf (fNeg x) = fIsInf x := by simp [fIsInf]

/-- A sum is finite only where both terms are. -/
theorem finite_of_addFrom {op : FloatOp} {a b : F64} (ha : fIsNaN a = false) (hb : fIsNaN b = false)
    (h : fIsFinite (addFrom op a b) = true) : fIsFinite a = true ∧ fIsFinite b = true := by
  rcases class_cases a with h1 | h1 | h1
  · rw [ha] at h1; cases h1
  · rw [addFrom, if_pos h1] at h
    split at h
    · rw [fIsFinite_fNaN] at h; cases h
    · rw [fIsFinite_inf h1] at h; cases h
  · rcases class_cases b with h2 | h2 | h2
    · rw [hb] at h2; cases h2
    · rw [addFrom, if_neg (by rw [not_inf_of_finite h1]; decide), if_pos h2, fIsFinite_inf h2] at h; cases h
    · exact ⟨h1, h2⟩

theorem finite_of_fAdd {a b : F64} (h : fIsFinite (fAdd a b) = true) : fIsFinite a = true ∧ fIsFinite b = true := by
  by_cases hn : fIsNaN a = true ∨ fIsNaN b = true
  · rw [fIsFinite_nan (fAdd_nan hn)] at h; cases h
  · simp only [not_or, Bool.not_eq_true] at hn
    simp only [fAdd, hn.1, hn.2, Bool.or_false, Bool.false_eq_true, if_false] at h
    exact finite_of_addFrom hn.1 hn.2 h

theorem finite_of_fSub {a b : F64} (h : fIsFinite (fSub a b) = true) : fIsFinite a = true ∧ fIsFinite b = true := by
  by_cases hn : fIsNaN a = true ∨ fIsNaN b = true
  · rw [fIsFinite_nan (fSub_nan hn)] at h; cases h
  · simp only [not_or, Bool.not_eq_true] at hn
    simp only [fSub, hn.1, hn.2, Bool.or_false, Bool.false_eq_true, if_false] at h
    have := finite_of_addFrom hn.1 (by rw [fIsNaN_fNeg]; exact hn.2) h
    rwa [fIsFinite_fNeg] at this

/-- A product is finite only where both factors are. -/
theorem finite_of_fMul {a b : F64} (h : fIsFinite (fMul a b) = true) : fIsFinite a = true ∧ fIsFinite b = true := by
  by_cases hn : fIsNaN a = true ∨ fIsNaN b = true
  · rw [fIsFinite_nan (fMul_nan hn)] at h; cases h
  · simp only [not_or, Bool.not_eq_true] at hn
    by_cases hi : fIsInf a = true ∨ fIsInf b = true
    · simp only [fMul, hn.1, hn.2, Bool.or_false, Bool.false_eq_true, if_false, Bool.or_eq_true, hi, if_true] at h
      split at h
      · rw [fIsFinite_fNaN] at h; cases h
      · rw [fIsFinite_make_inf] at h; cases h
    · simp only [not_or, Bool.not_eq_true] at hi
      constructor
      · rcases class_cases a with h1 | h1 | h1 <;> simp_all
      · rcases class_cases b with h1 | h1 | h1 <;> simp_all

/-- A quotient is finite only where its dividend is. -/
theorem finite_of_fDiv {a b : F64} (h : fIsFinite (fDiv a b) = true) : fIsFinite a = true := by
  rcases class_cases a with h1 | h1 | h1
  · rw [fIsFinite_nan (fDiv_nan (.inl h1))] at h; cases h
  · by_cases hb : fIsNaN b = true
    · rw [fIsFinite_nan (fDiv_nan (.inr hb))] at h; cases h
    · have ha : fIsNaN a = false := by
        simp only [fIsInf, beq_iff_eq] at h1; simp [fIsNaN, h1]
      simp only [fDiv, ha, Bool.eq_false_iff.2 hb, h1, Bool.or_false, Bool.false_eq_true, if_false, if_true] at h
      split at h
      · rw [fIsFinite_fNaN] at h; cases h
      · rw [fIsFinite_make_inf] at h; cases h
  · exact h1

/-! ### Magnitudes of results -/

theorem fInt_natAbs (x : F64) : (fInt x).natAbs = magUnits (fMag x) := by unfold fInt; split <;> simp

/-- The magnitude of a sum of finite terms is at most one whose units bound the sum of the terms' units. -/
theorem fMag_fAdd_le {a b : F64} (ha : fIsFinite a = true) (hb : fIsFinite b = true) {m : Nat}
    (h : (fInt a + fInt b).natAbs ≤ magUnits m) : fMag (fAdd a b) ≤ m := by
  rw [fAdd_finite ha hb, roundInt_mag]
  exact roundMag_le (by decide) (by simpa using h)

theorem fMag_fSub_le {a b : F64} (ha : fIsFinite a = true) (hb : fIsFinite b = true) {m : Nat}
    (h : (fInt a - fInt b).natAbs ≤ magUnits m) : fMag (fSub a b) ≤ m := by
  rw [fSub_finite ha hb, roundInt_mag]
  exact roundMag_le (by decide) (by simpa using h)

/-- A zero changes no magnitude in a sum. -/
theorem fMag_fAdd_zero {a b : F64} (ha : fIsFinite a = true) (hb : fMag b = 0) : fMag (fAdd a b) = fMag a := by
  have h0 : fInt b = 0 := by unfold fInt; simp [hb]
  rw [fAdd_finite ha (fIsFinite_iff.2 (by rw [hb]; decide)), roundInt_mag, h0, add_zero, fInt_natAbs]
  have := roundMag_exact (d := 1) (by decide) (b := fMag a) (by have := fIsFinite_iff.1 ha; omega)
  simpa using this

theorem fMag_zero_fAdd {a b : F64} (ha : fMag a = 0) (hb : fIsFinite b = true) : fMag (fAdd a b) = fMag b := by
  have h0 : fInt a = 0 := by unfold fInt; simp [ha]
  rw [fAdd_finite (fIsFinite_iff.2 (by rw [ha]; decide)) hb, roundInt_mag, h0, zero_add, fInt_natAbs]
  have := roundMag_exact (d := 1) (by decide) (b := fMag b) (by have := fIsFinite_iff.1 hb; omega)
  simpa using this

theorem fMag_fSub_zero {a b : F64} (ha : fIsFinite a = true) (hb : fMag b = 0) : fMag (fSub a b) = fMag a := by
  have h0 : fInt b = 0 := by unfold fInt; simp [hb]
  rw [fSub_finite ha (fIsFinite_iff.2 (by rw [hb]; decide)), roundInt_mag, h0, sub_zero, fInt_natAbs]
  have := roundMag_exact (d := 1) (by decide) (b := fMag a) (by have := fIsFinite_iff.1 ha; omega)
  simpa using this

/-- A product with a zero is a zero. -/
theorem fMag_fMul_zero {a b : F64} (ha : fIsFinite a = true) (hb : fIsFinite b = true) (h : fMag a = 0 ∨ fMag b = 0) :
    fMag (fMul a b) = 0 := by
  have h0 : magUnits (fMag a) * magUnits (fMag b) = 0 := by
    rcases h with h | h <;> simp [h]
  rw [fMul_finite ha hb, h0, roundMag_zero (by positivity), fMag_fMake _ (by decide)]

theorem fMag_fMul_le {a b : F64} (ha : fIsFinite a = true) (hb : fIsFinite b = true) {m : Nat}
    (h : magUnits (fMag a) * magUnits (fMag b) ≤ magUnits m * 2 ^ 1074) : fMag (fMul a b) ≤ m := by
  rw [fMul_finite ha hb, fMag_fMake _ (roundMag_lt_pow _ _)]
  exact roundMag_le (by positivity) h

theorem fMag_fDiv_le {a b : F64} (ha : fIsFinite a = true) (hb : fIsFinite b = true) (h0 : fMag b ≠ 0) {m : Nat}
    (h : magUnits (fMag a) * 2 ^ 1074 ≤ magUnits m * magUnits (fMag b)) : fMag (fDiv a b) ≤ m := by
  rw [fDiv_finite ha hb h0, fMag_fMake _ (roundMag_lt_pow _ _)]
  exact roundMag_le (magUnits_pos (Nat.pos_of_ne_zero h0)) h

theorem finite_of_le {x : F64} {m : Nat} (h : fMag x ≤ m) (hm : m < infMag) : fIsFinite x = true :=
  fIsFinite_iff.2 (lt_of_le_of_lt h hm)

end Sys2Proof.Machine
end

