-- ==== Sys2Proof/Laws/Filter.lean ====
section
/-!
SUPPORT. The filter's impulse response (43_filter R135): a silent filter meets the constraint wherever any filter over the same
functions does, and the two ways the machine's configuration meets it.
-/

namespace Sys2Proof.Machine

@[simp] theorem length_impulseResponse (c : Config) (k : Coeffs) (n : Nat) (x : F64) (h : FiltRegs) :
    (impulseResponse c k n x h).length = n := by
  induction n generalizing x h with
  | zero => rfl
  | succ n ih => simp [impulseResponse, ih]

/-! ### A silent filter -/

/-- A word is `0` or `1.0`. -/
def Binary (x : F64) : Prop := x = 0 ∨ x = one

/-- The coefficients are finite. -/
def CoeffsFinite (k : Coeffs) : Prop :=
  fIsFinite k.b0 = true ∧ fIsFinite k.b2 = true ∧ fIsFinite k.a1 = true ∧ fIsFinite k.a2 = true

/-- A finite coefficient times `0` or `1.0` is finite, and a zero where the factor is. -/
theorem fMul_binary {b x : F64} (hb : fIsFinite b = true) (hx : Binary x) :
    fIsFinite (fMul b x) = true ∧ (x = 0 → fMag (fMul b x) = 0) := by
  rcases hx with rfl | rfl
  · have h := fMag_fMul_zero hb (b := 0) (by decide) (.inr (by decide))
    exact ⟨finite_of_le h.le (by decide), fun _ => h⟩
  · rw [fMul_one (not_nan_of_finite hb)]
    exact ⟨hb, fun h => absurd h (by decide)⟩

/-- A finite coefficient times a zero is a zero. -/
theorem fMag_fMul_zeroMag {a y : F64} (ha : fIsFinite a = true) (hy : fMag y = 0) : fMag (fMul a y) = 0 :=
  fMag_fMul_zero ha (finite_of_le hy.le (by decide)) (.inr hy)

/-- What a silent filter's history holds while an impulse passes through it: at most one `1.0`, and zeros. -/
structure Passing (x : F64) (h : FiltRegs) : Prop where
  binX : Binary x
  binX1 : Binary h.x1
  binX2 : Binary h.x2
  lone : x = 0 ∨ h.x1 = 0 ∧ h.x2 = 0
  lone' : h.x1 = 0 ∨ h.x2 = 0
  y1 : fMag h.y1 = 0
  y2 : fMag h.y2 = 0

/-- The impulse and a cleared history. -/
theorem passing_impulse : Passing one { x1 := 0, x2 := 0, y1 := 0, y2 := 0 } where
  binX := .inr rfl
  binX1 := .inl rfl
  binX2 := .inl rfl
  lone := .inr ⟨rfl, rfl⟩
  lone' := .inl rfl
  y1 := by decide
  y2 := by decide

/-- A silent filter with finite coefficients answers a zero. -/
theorem silent_output {c : Config} (hg : c.filtGain = 0) (ha : c.filtA0 = one) {k : Coeffs} (hk : CoeffsFinite k)
    {x : F64} {h : FiltRegs} (p : Passing x h) : fMag (filtOutput c k x h) = 0 := by
  have b0 := fMul_binary hk.1 p.binX
  have b2 := fMul_binary hk.2.1 p.binX2
  have hs : fIsFinite (fAdd (fMul k.b0 x) (fMul k.b2 h.x2)) = true := by
    rcases p.lone with h0 | h0
    · exact fIsFinite_iff.2 (by rw [fMag_zero_fAdd (b0.2 h0) b2.1]; exact fIsFinite_iff.1 b2.1)
    · exact fIsFinite_iff.2 (by rw [fMag_fAdd_zero b0.1 (b2.2 h0.2)]; exact fIsFinite_iff.1 b0.1)
  have h1 := fMag_fSub_zero hs (fMag_fMul_zeroMag hk.2.2.1 p.y1)
  have hs1 := fIsFinite_iff.2 (h1.trans_lt (fIsFinite_iff.1 hs))
  have h2 := fMag_fSub_zero hs1 (fMag_fMul_zeroMag hk.2.2.2 p.y2)
  have hs2 := fIsFinite_iff.2 (h2.trans_lt (fIsFinite_iff.1 hs1))
  have hz := fMag_fMul_zero (a := 0) (by decide) hs2 (.inl (by decide))
  have hd := fMag_fDiv_le (b := one) (m := 0) (finite_of_le hz.le (by decide)) (by decide) (by decide)
    (by rw [hz, magUnits_zero, Nat.zero_mul]; exact Nat.zero_le _)
  unfold filtOutput
  rw [hg, ha]
  omega

theorem Passing.shift {c : Config} (hg : c.filtGain = 0) (ha : c.filtA0 = one) {k : Coeffs} (hk : CoeffsFinite k)
    {x : F64} {h : FiltRegs} (p : Passing x h) : Passing 0 (filtShift x (filtOutput c k x h) h) where
  binX := .inl rfl
  binX1 := p.binX
  binX2 := p.binX1
  lone := .inl rfl
  lone' := p.lone.imp_right And.left
  y1 := silent_output hg ha hk p
  y2 := p.y1

/-- A silent filter with finite coefficients answers an impulse with zeros. -/
theorem silent_response {c : Config} (hg : c.filtGain = 0) (ha : c.filtA0 = one) {k : Coeffs} (hk : CoeffsFinite k)
    (n : Nat) {x : F64} {h : FiltRegs} (p : Passing x h) : (impulseResponse c k n x h).all withinTen = true := by
  induction n generalizing x h with
  | zero => rfl
  | succ n ih =>
    have h0 : withinTen (filtOutput c k x h) = true := by
      have hf : fMag (fAbs (filtOutput c k x h)) = 0 := by simpa using silent_output hg ha hk p
      have he : fAbs (filtOutput c k x h) = 0 := eq_of_sign_mag (by simp) (by rw [hf]; decide)
      rw [withinTen, he]
      decide
    rw [impulseResponse, List.all_cons, h0, ih (p.shift hg ha hk)]
    rfl

/-! ### The coefficients of a bounded response -/

/-- A value within ten is finite. -/
theorem finite_of_withinTen {y : F64} (h : withinTen y = true) : fIsFinite y = true := by
  obtain ⟨_, _, hk⟩ := fLe_iff.1 h
  have hs : fSign (fAbs y) = false := by simp
  have h10 : fKey stabBound = 0x4024000000000000 := by decide
  simp only [fKey, hs, Bool.false_eq_true, if_false] at hk
  rw [← fKey, h10] at hk
  have hm : fMag (fAbs y) = fMag y := by simp
  exact finite_of_le (m := 0x4024000000000000) (by omega) (by decide)

/-- A filter whose response rule R135 bounds has finite coefficients: the first output reads them all. -/
theorem coeffsFinite_of_bounded {c : Config} (h : impulseBounded c = true) :
    CoeffsFinite (filtCoeffs c stabRate stabLow stabHigh) := by
  unfold impulseBounded at h
  rw [show (10000 : Nat) = 9999 + 1 from rfl, impulseResponse, List.all_cons, Bool.and_eq_true] at h
  have h1 := (finite_of_fMul (finite_of_fDiv (finite_of_withinTen h.1))).2
  have h2 := finite_of_fSub h1
  have h3 := finite_of_fSub h2.1
  have h4 := finite_of_fAdd h3.1
  exact ⟨(finite_of_fMul h4.1).1, (finite_of_fMul h4.2).1, (finite_of_fMul h3.2).1, (finite_of_fMul h2.2).1⟩

/-- A factor of at most `1.0` in magnitude keeps a product finite. -/
theorem finite_fMul_unit {a b : F64} (ha : fIsFinite a = true) (hb : fMag b ≤ fMag one) : fIsFinite (fMul a b) = true := by
  refine finite_of_le (fMag_fMul_le ha (finite_of_le hb (by decide)) (Nat.mul_le_mul_left _ ?_)) (fIsFinite_iff.1 ha)
  rw [← magUnits_one]
  exact magUnits_le_iff.2 hb

/-- A sum of finite terms with clear signs has the magnitude of its terms at least, a clear sign, and is no NaN. -/
theorem fAdd_nonneg {a b : F64} (ha : fIsFinite a = true) (hb : fIsFinite b = true) (sa : fSign a = false)
    (sb : fSign b = false) : fMag a ≤ fMag (fAdd a b) ∧ fSign (fAdd a b) = false ∧ fIsNaN (fAdd a b) = false := by
  have hm : (fInt a + fInt b).natAbs = magUnits (fMag a) + magUnits (fMag b) := by
    simp only [fInt, sa, sb, Bool.false_eq_true, if_false]; omega
  have hi := fIsFinite_iff.1 ha
  have h1 : fMag (fAdd a b) = roundMag (magUnits (fMag a) + magUnits (fMag b)) 1 := by
    rw [fAdd_finite ha hb, roundInt_mag, hm]
  refine ⟨?_, ?_, ?_⟩
  · rw [h1]; exact le_roundMag (by decide) hi.le (by omega)
  · rw [fAdd_finite ha hb, roundInt]
    split
    · rw [fSign_fMake _ (by decide), sa]; rfl
    · rw [fSign_fMake _ (roundMag_lt_pow _ _), decide_eq_false_iff_not]
      simp only [fInt, sa, sb, Bool.false_eq_true, if_false]
      omega
  · have := roundMag_le_inf (magUnits (fMag a) + magUnits (fMag b)) 1
    cases hn : fIsNaN (fAdd a b)
    · rfl
    · rw [fIsNaN_iff] at hn; omega

/-- The reciprocal of a value of at least `1.0` in magnitude is at most `1.0`. -/
theorem fMag_recip_le {d : F64} (hn : fIsNaN d = false) (hd : fMag one ≤ fMag d) : fMag (fDiv one d) ≤ fMag one := by
  rcases class_cases d with h | h | h
  · rw [hn] at h; cases h
  · have : fMag (fDiv one d) = 0 := by
      simp only [fDiv, hn, h, show fIsNaN one = false by decide, show fIsInf one = false by decide, Bool.or_false,
        Bool.false_eq_true, if_false, if_true]
      exact fMag_fMake _ (by decide)
    omega
  · have h1 : 0 < fMag one := by decide
    refine fMag_fDiv_le (by decide) h (by omega) (Nat.mul_le_mul_left _ ?_)
    rw [← magUnits_one]
    exact magUnits_le_iff.2 hd

/-- `Q` of the least bandwidth, `970.0 / 1060.0`. -/
def leastQ : F64 := 0x3FED4873ECADE305

/-- A finite value `> 0` has a clear sign. -/
theorem fSign_of_finitePos {x : F64} (h : finitePos x = true) : fSign x = false := by
  obtain ⟨_, _, hk⟩ := fLt_iff.1 (Bool.and_eq_true_iff.1 h).2
  have h0 : fKey 0 = 0 := by decide
  cases hs : fSign x
  · rfl
  · simp only [fKey, hs, if_true] at hk
    rw [← fKey, h0] at hk
    omega

/-- The units of a factor whose square is finite. -/
theorem units_of_finite_sq {k : F64} (h : fIsFinite (fMul k k) = true) : magUnits (fMag k) < 2 ^ 1586 := by
  have hk := (finite_of_fMul h).1
  have hm := fIsFinite_iff.1 h
  rw [fMul_finite hk hk, fMag_fMake _ (roundMag_lt_pow _ _)] at hm
  by_contra hc
  have h2 : 2 ^ 1586 * 2 ^ 1586 = magUnits infMag * 2 ^ 1074 := by decide +kernel
  have := le_roundMag (b := infMag) (show 0 < 2 ^ 1074 by positivity) le_rfl
    (h2.symm.le.trans (Nat.mul_le_mul (not_lt.1 hc) (not_lt.1 hc)))
  omega

/-- The units of a value whose double is finite. -/
theorem units_of_finite_double {d : F64} (h : fIsFinite (fMul two d) = true) : magUnits (fMag d) < 2 ^ 2097 := by
  have hd := (finite_of_fMul h).2
  have hm := fIsFinite_iff.1 h
  rw [fMul_finite (by decide) hd, fMag_fMake _ (roundMag_lt_pow _ _)] at hm
  by_contra hc
  have h2 : magUnits (fMag two) * 2 ^ 2097 = magUnits infMag * 2 ^ 1074 := by decide +kernel
  have := le_roundMag (b := infMag) (show 0 < 2 ^ 1074 by positivity) le_rfl
    (h2.symm.le.trans (Nat.mul_le_mul_left _ (not_lt.1 hc)))
  omega

/-- The units of a value `x >= 0` for which `x - 1.0` is below `2^1023`. -/
theorem units_of_sub_one {x : F64} (hx : fIsFinite x = true) (hs : fSign x = false)
    (h : magUnits (fMag (fSub x one)) < 2 ^ 2097) : magUnits (fMag x) < 2 ^ 2097 + 2 ^ 1074 := by
  have hb : magUnits 0x7FE0000000000000 = 2 ^ 2097 := by decide +kernel
  rw [← hb, magUnits_lt_iff, fSub_finite hx (by decide), roundInt_mag] at h
  by_contra hc
  have hi : fInt x - fInt one = (magUnits (fMag x) : Int) - (magUnits (fMag one) : Int) := by
    simp only [fInt, hs, show fSign one = false by decide, Bool.false_eq_true, if_false]
  have := le_roundMag (b := 0x7FE0000000000000) (d := 1) (n := (fInt x - fInt one).natAbs) (by decide) (by decide)
    (by rw [hb, hi, magUnits_one]; omega)
  omega

/-- The coefficients of rule R129 are finite at the least bandwidth wherever they are finite at any. -/
theorem coeffsFinite_least {k q : F64} (hpos : fSign k = false) (h : CoeffsFinite (bandpassCoef k q)) :
    CoeffsFinite (bandpassCoef k leastQ) := by
  obtain ⟨-, -, h3, -⟩ := h
  have h4 := (finite_of_fMul h3).1
  have h5 := (finite_of_fMul h4).2
  have hkk := (finite_of_fSub h5).1
  have hk := (finite_of_fMul hkk).1
  have skk : fSign (fMul k k) = false := by
    rw [fMul_finite hk hk, fSign_fMake _ (roundMag_lt_pow _ _)]; cases fSign k <;> rfl
  have ukk := units_of_sub_one hkk skk (units_of_finite_double h4)
  have q0 : fMag leastQ ≠ 0 := by decide
  have hq : fIsFinite leastQ = true := by decide
  have b513 : magUnits 0x6000000000000000 = 2 ^ 1587 := by decide +kernel
  have b514 : magUnits 0x6010000000000000 = 2 ^ 1588 := by decide +kernel
  have btop : magUnits 0x7FE8000000000000 = 3 * 2 ^ 2096 := by decide +kernel
  have mkq : fMag (fDiv k leastQ) ≤ 0x6000000000000000 := by
    refine fMag_fDiv_le hk hq q0 ((Nat.mul_le_mul_right _ (units_of_finite_sq hkk).le).trans ?_)
    rw [b513]
    decide +kernel
  have hkq := finite_of_le mkq (by decide)
  have skq : fSign (fDiv k leastQ) = false := by
    rw [fDiv_finite hk hq q0, fSign_fMake _ (roundMag_lt_pow _ _), hpos]; decide
  have ukq : magUnits (fMag (fDiv k leastQ)) ≤ 2 ^ 1587 := b513 ▸ magUnits_le_iff.2 mkq
  have ikq : fInt (fDiv k leastQ) = magUnits (fMag (fDiv k leastQ)) := by simp [fInt, skq]
  have i1 : fInt one = ((2 ^ 1074 : Nat) : Int) := by
    rw [← magUnits_one]; simp only [fInt, show fSign one = false by decide, Bool.false_eq_true, if_false]
  have ikk : fInt (fMul k k) = magUnits (fMag (fMul k k)) := by simp [fInt, skk]
  have p1 : 2 ^ 1074 + 2 ^ 1587 ≤ 2 ^ 1588 := by decide +kernel
  have p2 : 2 ^ 1588 + (2 ^ 2097 + 2 ^ 1074) ≤ 3 * 2 ^ 2096 := by decide +kernel
  have hone := fAdd_nonneg (a := one) (by decide) hkq (by decide) skq
  have hsum : fIsFinite (fAdd one (fDiv k leastQ)) = true :=
    finite_of_le (m := 0x6010000000000000) (fMag_fAdd_le (by decide) hkq (by rw [i1, ikq, b514]; omega)) (by decide)
  have hden := fAdd_nonneg hsum hkk hone.2.1 skk
  have hnorm := fMag_recip_le hden.2.2 (hone.1.trans hden.1)
  have mdiff : fMag (fSub one (fDiv k leastQ)) ≤ 0x6010000000000000 :=
    fMag_fSub_le (by decide) hkq (by rw [i1, ikq, b514]; omega)
  have hdiff := finite_of_le mdiff (by decide)
  have udiff : magUnits (fMag (fSub one (fDiv k leastQ))) ≤ 2 ^ 1588 := b514 ▸ magUnits_le_iff.2 mdiff
  have idiff := fInt_natAbs (fSub one (fDiv k leastQ))
  have hnum : fIsFinite (fAdd (fSub one (fDiv k leastQ)) (fMul k k)) = true :=
    finite_of_le (m := 0x7FE8000000000000) (fMag_fAdd_le hdiff hkk (by rw [ikk, btop]; omega)) (by decide)
  have hb0 := finite_fMul_unit hkq hnorm
  exact ⟨hb0, by rw [show (bandpassCoef k leastQ).b2 = fNeg _ from rfl, fIsFinite_fNeg]; exact hb0,
    finite_fMul_unit h4 hnorm, finite_fMul_unit hnum hnorm⟩

/-- Where some values of the constants meet rule R135, those of the silent filter do (entry 21). -/
theorem impulseBounded_calmed_of {c : Config} (hf : c.filtCoef = bandpassCoef) (hn : NumValid c.num)
    (h : impulseBounded c = true) : impulseBounded (calmed c) = true := by
  have hq : fDiv (bandCenter stabLow stabHigh) (bandwidth (calmed c) stabLow stabHigh) = leastQ := by
    show fDiv (bandCenter stabLow stabHigh) (fMax (fSub stabHigh stabLow) one) = _
    decide +kernel
  have ht := hn.tanPos (fDiv (fMul PI (bandCenter stabLow stabHigh)) stabRate) (by decide +kernel) (by decide +kernel)
  have hk := coeffsFinite_of_bounded h
  unfold filtCoeffs at hk
  rw [hf] at hk
  unfold impulseBounded filtCoeffs
  rw [hq, show (calmed c).filtCoef = bandpassCoef from hf]
  exact silent_response rfl rfl (coeffsFinite_least (fSign_of_finitePos ht) hk) _ passing_impulse

/-- With the correctly rounded tangent of rule R126's example the silent filter meets rule R135, so a valid configuration does. -/
theorem impulseBounded_of_tan {c : Config} (hf : c.filtCoef = bandpassCoef) (hs : filterStable c = true)
    (ht : c.num.tan (fDiv (fMul PI (bandCenter stabLow stabHigh)) stabRate) = 0x3FB1B7CFA45FE5FF) :
    impulseBounded c = true := by
  have hq : fDiv (bandCenter stabLow stabHigh) (bandwidth (calmed c) stabLow stabHigh) = leastQ := by
    show fDiv (bandCenter stabLow stabHigh) (fMax (fSub stabHigh stabLow) one) = _
    decide +kernel
  have hk : CoeffsFinite (bandpassCoef 0x3FB1B7CFA45FE5FF leastQ) := by unfold CoeffsFinite; decide +kernel
  have hc : impulseBounded (calmed c) = true := by
    unfold impulseBounded filtCoeffs
    rw [hq, show (calmed c).filtCoef = bandpassCoef from hf, show (calmed c).num = c.num from rfl, ht]
    exact silent_response rfl rfl hk _ passing_impulse
  unfold filterStable at hs
  rwa [hc, Bool.not_true, Bool.false_or] at hs

/-- The silent filter meets the constraint, whatever the functions. -/
theorem filterStable_calmed (c : Config) : filterStable (calmed c) = true := by
  show (!impulseBounded (calmed c) || impulseBounded (calmed c)) = true
  cases impulseBounded (calmed c) <;> rfl

/-- The machine's configuration is the open one, where that meets rule R135, or the silent one. -/
theorem hw_cases : (filterStable hwOpen = true ∧ hw = hwOpen) ∨ (filterStable hwOpen = false ∧ hw = calmed hwOpen) := by
  unfold hw ifStable
  cases filterStable hwOpen
  · exact .inr ⟨rfl, rfl⟩
  · exact .inl ⟨rfl, rfl⟩

/-- The `BW_EPS` of the machine is finite and `> 0` (R6). -/
theorem hw_bwEps : finitePos hw.bwEps = true := by
  rcases hw_cases with ⟨_, h⟩ | ⟨_, h⟩ <;> rw [h]
  · have hd : finitePos one = true := by decide
    unfold hwOpen constrained
    dsimp only
    split <;> assumption
  · decide

/-- One operand fed is one FILT. -/
theorem feedFilter_cons (lo hi x : F64) (xs : List F64) (s : State) :
    Safety.feedFilter lo hi (x :: xs) s =
      Safety.feedFilter lo hi xs (runFilt hw lo hi { s with nodes := { s.nodes with m := x } }) := rfl

end Sys2Proof.Machine
end

