-- ==== Sys2Proof/Laws/PerInstr.lean ====
section
/-!
SUPPORT. The per-instruction family `EncodeWellFormed`: every instruction's frame fits a row of the opcode map with every
waveform code defined (30_encoding R74, R75).
-/

namespace Sys2Proof.Laws

/-- A PROC frame fits PROC's row of the opcode map, and its waveform codes are defined. -/
theorem encodeProc_wellFormed (p : Snapshot) : (encodeProc p).wellFormed = true := by
  have hlen : (encodeProc p).length = 14 := rfl
  have hhead : (encodeProc p).headD 0 = procHeader p := rfl
  have hmask : procHeader p &&& 0xFFFFFFFFFFFC0003#64 = 0x2#64 := by
    apply BitVec.eq_of_getLsbD_eq
    intro j hj
    rw [BitVec.getLsbD_and, getLsbD_procHeader p hj]
    interval_cases j <;> simp
  have hcode (w : Waveform) : (waveCode w).toNat < 5 := by cases w <;> decide
  have h1 : (procHeader p >>> 4).toNat % 8 < 5 := by
    have := hcode p.osc1Wave
    rw [← o1waveOf_procHeader] at this
    simpa [o1waveOf] using this
  have h2 : (procHeader p >>> 8).toNat % 8 < 5 := by
    have := hcode p.osc2Wave
    rw [← o2waveOf_procHeader] at this
    simpa [o2waveOf] using this
  have h3 : (procHeader p >>> 12).toNat % 8 < 5 := by
    have := hcode p.lfoWave
    rw [← lfowaveOf_procHeader] at this
    simpa [lfowaveOf] using this
  have hfit : procRow.fits (encodeProc p) = true := by
    rw [CommandRow.fits, hhead, hlen]
    simp [procRow, hmask]
  have hwave : waveCodesOk ((encodeProc p).headD 0) = true := by
    rw [hhead, waveCodesOk]
    simp only [h1, h2, h3, decide_true, Bool.and_self]
  rw [Frame.wellFormed, hfit, hwave]
  simp

namespace EncodeWellFormed

/-- The instruction's frame is a well-formed command frame. -/
def Statement (i : Instr) : Prop := (encode i).wellFormed = true

theorem init (sr : F64) : Statement (.init sr) := by
  simp [Statement, encode, Frame.wellFormed, CommandRow.fits, initRow]

theorem reset (bitDepth : BitVec 8) (sr : F64) : Statement (.reset bitDepth sr) := by
  have h : (0b01#64 ||| (bitDepth.zeroExtend 64 <<< 8)) &&& 0xFFFFFFFFFFFF00FF#64 = 1#64 := by
    apply BitVec.eq_of_getLsbD_eq
    intro j hj
    interval_cases j <;> simp
  simp at h
  simp [Statement, encode, Frame.wellFormed, CommandRow.fits, resetRow, h]

theorem proc (p : Snapshot) : Statement (.proc p) := encodeProc_wellFormed _

theorem frame (p : Snapshot) : Statement (.frame p) := encodeProc_wellFormed _

theorem frameMute : Statement .frameMute := encodeProc_wellFormed _

theorem genSineOsc1 (f a : F64) : Statement (.genSineOsc1 f a) := encodeProc_wellFormed _

theorem genSquareOsc1 (f a : F64) : Statement (.genSquareOsc1 f a) := encodeProc_wellFormed _

theorem genTriangleOsc1 (f a : F64) : Statement (.genTriangleOsc1 f a) := encodeProc_wellFormed _

theorem genSawtoothOsc1 (f a : F64) : Statement (.genSawtoothOsc1 f a) := encodeProc_wellFormed _

theorem genSawtoothInverseOsc1 (f a : F64) : Statement (.genSawtoothInverseOsc1 f a) := encodeProc_wellFormed _

theorem genSineOsc2 (f a : F64) : Statement (.genSineOsc2 f a) := encodeProc_wellFormed _

theorem genSquareOsc2 (f a : F64) : Statement (.genSquareOsc2 f a) := encodeProc_wellFormed _

theorem genTriangleOsc2 (f a : F64) : Statement (.genTriangleOsc2 f a) := encodeProc_wellFormed _

theorem genSawtoothOsc2 (f a : F64) : Statement (.genSawtoothOsc2 f a) := encodeProc_wellFormed _

theorem genSawtoothInverseOsc2 (f a : F64) : Statement (.genSawtoothInverseOsc2 f a) := encodeProc_wellFormed _

theorem genSineLfo (f : F64) : Statement (.genSineLfo f) := encodeProc_wellFormed _

theorem genSquareLfo (f : F64) : Statement (.genSquareLfo f) := encodeProc_wellFormed _

theorem genTriangleLfo (f : F64) : Statement (.genTriangleLfo f) := encodeProc_wellFormed _

theorem genSawtoothLfo (f : F64) : Statement (.genSawtoothLfo f) := encodeProc_wellFormed _

theorem genSawtoothInverseLfo (f : F64) : Statement (.genSawtoothInverseLfo f) := encodeProc_wellFormed _

theorem trem (d : F64) : Statement (.trem d) := encodeProc_wellFormed _

theorem lfoVibrato : Statement .lfoVibrato := encodeProc_wellFormed _

theorem lfoOff : Statement .lfoOff := encodeProc_wellFormed _

theorem filt (lowCut highCut : F64) : Statement (.filt lowCut highCut) := encodeProc_wellFormed _

theorem filtOff : Statement .filtOff := encodeProc_wellFormed _

theorem env (attackMs decayMs releaseMs sustain : F64) : Statement (.env attackMs decayMs releaseMs sustain) := encodeProc_wellFormed _

theorem envIdle : Statement .envIdle := encodeProc_wellFormed _

end EncodeWellFormed

end Sys2Proof.Laws
end

