-- ==== Sys2Proof/Laws/Step.lean ====
section
/-!
SUPPORT. Everything a step can do, said once: how it comes to a next state, a fault or a refusal.
-/

namespace Sys2Proof.Machine

/-- What the decoder can answer when it accepts: one of the three commands, with its fields as the frame spells them. -/
theorem decode_ok_cases {f : Frame} {i : Instr} (h : decode f = .ok i) :
    i = .init (frameWord f 1) ∨ i = .reset (bitDepthOf (frameWord f 0)) (frameWord f 1) ∨
      ∃ w1 w2 wl, i = .proc (snapshotOf f w1 w2 wl) := by
  unfold decode at h
  split at h
  · cases h
  · split at h
    · cases h
    · split at h
      · cases h
      · split at h
        · cases h
        · unfold decodeFields at h
          split at h
          · cases h; exact .inl rfl
          · split at h
            · cases h; exact .inr (.inl rfl)
            · split at h
              · next w1 w2 wl _ _ _ => cases h; exact .inr (.inr ⟨w1, w2, wl, rfl⟩)
              · cases h

/-- How a step comes to a next state: the core is idle, or a command has completed. -/
theorem step_next {s t : State} (h : step s = .next t) :
    (s.port = [] ∧ t = s) ∨
      ∃ f rest i, s.port = f :: rest ∧ decode f = .ok i ∧ exec i { s with port := rest } = .next t := by
  unfold step takeFrame at h
  cases hp : s.port with
  | nil => rw [hp] at h; cases h; exact .inl ⟨rfl, rfl⟩
  | cons f rest =>
    rw [hp] at h
    simp only at h
    cases hd : decode f with
    | error e => rw [hd] at h; cases h
    | ok i => rw [hd] at h; exact .inr ⟨f, rest, i, rfl, hd, h⟩

/-- How a step comes to a fault. -/
theorem step_fault {s : State} {r : Fault} (h : step s = .fault r) :
    ∃ f rest i, s.port = f :: rest ∧ decode f = .ok i ∧ exec i { s with port := rest } = .fault r := by
  unfold step takeFrame at h
  cases hp : s.port with
  | nil => rw [hp] at h; cases h
  | cons f rest =>
    rw [hp] at h
    simp only at h
    cases hd : decode f with
    | error e => rw [hd] at h; cases h
    | ok i => rw [hd] at h; exact ⟨f, rest, i, rfl, hd, h⟩

/-- How a step comes to a refusal: the decoder's, or the command's. -/
theorem step_refused {s : State} {r : Refusal} (h : step s = .refused r) :
    ∃ f rest, s.port = f :: rest ∧
      ((∃ e, decode f = .error e ∧ r = refusalOf e) ∨
        ∃ i, decode f = .ok i ∧ exec i { s with port := rest } = .refused r) := by
  unfold step takeFrame at h
  cases hp : s.port with
  | nil => rw [hp] at h; cases h
  | cons f rest =>
    rw [hp] at h
    simp only at h
    refine ⟨f, rest, rfl, ?_⟩
    cases hd : decode f with
    | error e => rw [hd] at h; cases h; exact .inl ⟨e, rfl, rfl⟩
    | ok i => rw [hd] at h; exact .inr ⟨i, rfl, h⟩

end Sys2Proof.Machine
end

