-- ==== Sys2Proof/Tests/Slice0.lean ====
section
/-!
SUPPORT. The model's own tests: what the checks refuse, words written out from the spec's encodings, single steps against
spec/95_test_vectors.md, and for every obligation with hypotheses a state and operands that meet them.
-/

namespace Sys2Proof.Tests

open Sys2Proof Sys2Proof.Machine Sys2Proof.Safety

/-! Each `decide +kernel` waits for the declarations before it; elaborated at once they would hold a thread each. -/

set_option Elab.async false

/-! ### Helpers -/

/-- `n` zero words. -/
def zeros (n : Nat) : List Word := List.replicate n 0

/-- The frame decodes to the instruction. -/
def decodesTo (f : Frame) (i : Instr) : Bool :=
  match decode f with
  | .ok j => decide (j = i)
  | .error _ => false

/-- The decoder refuses the frame for this reason. -/
def refuses (f : Frame) (e : DecodeError) : Bool :=
  match decode f with
  | .ok _ => false
  | .error d => decide (d = e)

/-- The frame decodes to a PROC command that selects the row. -/
def selects (f : Frame) (i : Instr) : Bool :=
  match decode f with
  | .ok (.proc p) => (selected p).contains i
  | _ => false

/-- A property of the next state. -/
def after (o : Host.Outcome State Fault Refusal) (p : State → Bool) : Bool :=
  match o with
  | .next t => p t
  | .fault _ => false
  | .refused _ => false

/-- The outcome is this refusal. -/
def refusedFor (o : Host.Outcome State Fault Refusal) (r : Refusal) : Bool :=
  match o with
  | .refused q => decide (q = r)
  | .next _ => false
  | .fault _ => false

/-- The outcome is the fault. -/
def faulted (o : Host.Outcome State Fault Refusal) : Bool :=
  match o with
  | .fault _ => true
  | .next _ => false
  | .refused _ => false

/-- A core just initialised with `SAMPLE_RATE = 8.0`, as the test vectors have it. -/
def ready : State :=
  { State.reset with sampleRate := 0x4020000000000000, inited := true }

/-- The phase registers all at one value. -/
def atPhase (x : F64) : State := { ready with osc := { osc1 := x, osc2 := x, lfo := x } }

/-- `NUM` for the vectors that give a value: `coef(1) = 0.5` (V22) and the tangent of V13. -/
def stubNum : NumFns where
  sin := fun _ => 0
  cos := fun _ => one
  tan := fun _ => 0x3FB1B7CFA45FE5FF
  exp := fun _ => 0x3FE0000000000000
  ln := fun _ => one

/-- The reference constants with that `NUM`. -/
def stub : Config := refConfig stubNum

/-- A valid configuration with a given `ENV_TRUNC`: the silent filter, and a logarithm that is infinite at infinity. -/
def calmRelease (T : F64) : Config :=
  calmed { stub with envTrunc := T, num := { stubNum with ln := fun x => if x = posInf then posInf else one } }

/-- A PROC with OSC1 a square of frequency `f` and amplitude `a`, volume `v`. -/
def tone (f a v : F64) : Snapshot :=
  { Snapshot.blank with osc1En := true, osc1Wave := .square, osc1Freq := f, osc1Amp := a, volume := v }

/-- V8's PROC: OSC1 and the LFO squares of 1 Hz, tremolo depth 0.5. -/
def tremTone : Snapshot :=
  { tone one one one with lfoEn := true, lfoWave := .square, lfoFreq := one, lfoDepth := 0x3FE0000000000000 }

/-! ### WellFormed refuses an ill-formed term for each of its checks -/

/-- INIT of three words. -/
theorem test_ill_init_length : Frame.wellFormed [0, 0x40E5888000000000, 0] = false := by decide
/-- INIT with reserved bit 2 set. -/
theorem test_ill_init_reserved : Frame.wellFormed [0x4, 0x40E5888000000000] = false := by decide
/-- RESET of one word. -/
theorem test_ill_reset_length : Frame.wellFormed [0x1801] = false := by decide
/-- RESET with reserved bit 16 set. -/
theorem test_ill_reset_reserved : Frame.wellFormed [0x10001, 0x40E7700000000000] = false := by decide
/-- PROC of 13 words. -/
theorem test_ill_proc_length : Frame.wellFormed (0x2 :: zeros 12) = false := by decide
/-- PROC with reserved bit 18 set. -/
theorem test_ill_proc_reserved : Frame.wellFormed (0x40002 :: zeros 13) = false := by decide
/-- PROC with waveform code 5 for OSC1. -/
theorem test_ill_proc_o1wave : Frame.wellFormed (0x52 :: zeros 13) = false := by decide
/-- PROC with waveform code 6 for OSC2. -/
theorem test_ill_proc_o2wave : Frame.wellFormed (0x602 :: zeros 13) = false := by decide
/-- PROC with waveform code 7 for the LFO. -/
theorem test_ill_proc_lfowave : Frame.wellFormed (0x7002 :: zeros 13) = false := by decide
/-- The reserved opcode. -/
theorem test_ill_opcode : Frame.wellFormed [0x3, 0] = false := by decide
/-- An operation inside PROC is no command. -/
theorem test_ill_operation : Instr.wellFormed .envIdle = false := by decide
/-- Well-formed frames and commands are accepted. -/
theorem test_well_formed :
    Frame.wellFormed [0, 0x40E5888000000000] = true ∧ Frame.wellFormed [0xFF01, 0x40E7700000000000] = true ∧
      Frame.wellFormed (0x3CCCE :: zeros 13) = true ∧ Instr.wellFormed (.init 0) = true := by decide

/-! ### Decoding, from words written out (30_encoding R66 to R69, R80; 95_test_vectors V2) -/

/-- R80: `INIT sr=44100`. -/
theorem test_decode_init : decodesTo [0x0000000000000000, 0x40E5888000000000] (.init 0x40E5888000000000) = true := by decide
/-- V2: `RESET sr=48000 bits=255`; `bitDepth` is `W[0][15:8]`. -/
theorem test_decode_reset : decodesTo [0x000000000000FF01, 0x40E7700000000000] (.reset 255 0x40E7700000000000) = true := by
  decide
/-- R68, R69, each field at its own word: flags 1, 0 alternating from `mute`, waveforms 1, 2, 3, and scalar `n` in `W[n]`. -/
theorem test_decode_proc :
    decodesTo [0b1_0_1_011_0_010_1_001_0_1_10, 1, 2, 3, 4, 5, 6, 7, 8, 9, 10, 11, 12, 13]
      (.proc
        { mute := true, osc1En := false, osc1Wave := .square, osc1Freq := 2, osc1Amp := 3, osc2En := true
          osc2Wave := .triangle, osc2Freq := 4, osc2Amp := 5, lfoEn := false, lfoWave := .sawtooth, lfoFreq := 6
          lfoMode := .vibrato, lfoDepth := 7, filtEn := false, lowCut := 8, highCut := 9, envEn := true, attackMs := 10
          decayMs := 11, releaseMs := 12, sustain := 13, volume := 1 }) = true := by decide
/-- FRAME is every PROC. -/
theorem test_row_frame : selects (0x2 :: zeros 13) (.frame Snapshot.blank) = true := by decide

/-! The header of each row of the opcode table, its own operands in their words (30_encoding section 3, R68, R69). -/

theorem test_row_genSineOsc1 :
    selects [0x000000000000000A, 0, 0x1111111111111111, 0x2222222222222222, 0, 0, 0, 0, 0, 0, 0, 0, 0, 0]
      (.genSineOsc1 0x1111111111111111 0x2222222222222222) = true := by decide

theorem test_row_genSquareOsc1 :
    selects [0x000000000000001A, 0, 0x1111111111111111, 0x2222222222222222, 0, 0, 0, 0, 0, 0, 0, 0, 0, 0]
      (.genSquareOsc1 0x1111111111111111 0x2222222222222222) = true := by decide

theorem test_row_genTriangleOsc1 :
    selects [0x000000000000002A, 0, 0x1111111111111111, 0x2222222222222222, 0, 0, 0, 0, 0, 0, 0, 0, 0, 0]
      (.genTriangleOsc1 0x1111111111111111 0x2222222222222222) = true := by decide

theorem test_row_genSawtoothOsc1 :
    selects [0x000000000000003A, 0, 0x1111111111111111, 0x2222222222222222, 0, 0, 0, 0, 0, 0, 0, 0, 0, 0]
      (.genSawtoothOsc1 0x1111111111111111 0x2222222222222222) = true := by decide

theorem test_row_genSawtoothInverseOsc1 :
    selects [0x000000000000004A, 0, 0x1111111111111111, 0x2222222222222222, 0, 0, 0, 0, 0, 0, 0, 0, 0, 0]
      (.genSawtoothInverseOsc1 0x1111111111111111 0x2222222222222222) = true := by decide

theorem test_row_genSineOsc2 :
    selects [0x0000000000000082, 0, 0, 0, 0x1111111111111111, 0x2222222222222222, 0, 0, 0, 0, 0, 0, 0, 0]
      (.genSineOsc2 0x1111111111111111 0x2222222222222222) = true := by decide

theorem test_row_genSquareOsc2 :
    selects [0x0000000000000182, 0, 0, 0, 0x1111111111111111, 0x2222222222222222, 0, 0, 0, 0, 0, 0, 0, 0]
      (.genSquareOsc2 0x1111111111111111 0x2222222222222222) = true := by decide

theorem test_row_genTriangleOsc2 :
    selects [0x0000000000000282, 0, 0, 0, 0x1111111111111111, 0x2222222222222222, 0, 0, 0, 0, 0, 0, 0, 0]
      (.genTriangleOsc2 0x1111111111111111 0x2222222222222222) = true := by decide

theorem test_row_genSawtoothOsc2 :
    selects [0x0000000000000382, 0, 0, 0, 0x1111111111111111, 0x2222222222222222, 0, 0, 0, 0, 0, 0, 0, 0]
      (.genSawtoothOsc2 0x1111111111111111 0x2222222222222222) = true := by decide

theorem test_row_genSawtoothInverseOsc2 :
    selects [0x0000000000000482, 0, 0, 0, 0x1111111111111111, 0x2222222222222222, 0, 0, 0, 0, 0, 0, 0, 0]
      (.genSawtoothInverseOsc2 0x1111111111111111 0x2222222222222222) = true := by decide

theorem test_row_genSineLfo :
    selects [0x0000000000000802, 0, 0, 0, 0, 0, 0x1111111111111111, 0, 0, 0, 0, 0, 0, 0]
      (.genSineLfo 0x1111111111111111) = true := by decide

theorem test_row_genSquareLfo :
    selects [0x0000000000001802, 0, 0, 0, 0, 0, 0x1111111111111111, 0, 0, 0, 0, 0, 0, 0]
      (.genSquareLfo 0x1111111111111111) = true := by decide

theorem test_row_genTriangleLfo :
    selects [0x0000000000002802, 0, 0, 0, 0, 0, 0x1111111111111111, 0, 0, 0, 0, 0, 0, 0]
      (.genTriangleLfo 0x1111111111111111) = true := by decide

theorem test_row_genSawtoothLfo :
    selects [0x0000000000003802, 0, 0, 0, 0, 0, 0x1111111111111111, 0, 0, 0, 0, 0, 0, 0]
      (.genSawtoothLfo 0x1111111111111111) = true := by decide

theorem test_row_genSawtoothInverseLfo :
    selects [0x0000000000004802, 0, 0, 0, 0, 0, 0x1111111111111111, 0, 0, 0, 0, 0, 0, 0]
      (.genSawtoothInverseLfo 0x1111111111111111) = true := by decide

theorem test_row_frameMute :
    selects [0x0000000000000006, 0, 0, 0, 0, 0, 0, 0, 0, 0, 0, 0, 0, 0]
      (.frameMute) = true := by decide

theorem test_row_trem :
    selects [0x0000000000000802, 0, 0, 0, 0, 0, 0, 0x1111111111111111, 0, 0, 0, 0, 0, 0]
      (.trem 0x1111111111111111) = true := by decide

theorem test_row_lfoVibrato :
    selects [0x0000000000008802, 0, 0, 0, 0, 0, 0, 0, 0, 0, 0, 0, 0, 0]
      (.lfoVibrato) = true := by decide

theorem test_row_lfoOff :
    selects [0x0000000000000002, 0, 0, 0, 0, 0, 0, 0, 0, 0, 0, 0, 0, 0]
      (.lfoOff) = true := by decide

theorem test_row_filt :
    selects [0x0000000000010002, 0, 0, 0, 0, 0, 0, 0, 0x1111111111111111, 0x2222222222222222, 0, 0, 0, 0]
      (.filt 0x1111111111111111 0x2222222222222222) = true := by decide

theorem test_row_filtOff :
    selects [0x0000000000000002, 0, 0, 0, 0, 0, 0, 0, 0, 0, 0, 0, 0, 0]
      (.filtOff) = true := by decide

theorem test_row_env :
    selects [0x0000000000020002, 0, 0, 0, 0, 0, 0, 0, 0, 0, 0x1111111111111111, 0x2222222222222222, 0x3333333333333333, 0x4444444444444444]
      (.env 0x1111111111111111 0x2222222222222222 0x3333333333333333 0x4444444444444444) = true := by decide

theorem test_row_envIdle :
    selects [0x0000000000000002, 0, 0, 0, 0, 0, 0, 0, 0, 0, 0, 0, 0, 0]
      (.envIdle) = true := by decide

/-! What the decoder refuses (V2). -/

theorem test_refuse_empty : refuses [] .badLength = true := by decide
theorem test_refuse_length_first : refuses [0x3] .badLength = true := by decide
theorem test_refuse_opcode : refuses [0x3, 0] .badOpcode = true ∧ refuses (0x3 :: zeros 13) .badOpcode = true := by decide
theorem test_refuse_format_length :
    refuses [0x2, 0x40E5888000000000] .badLength = true ∧ refuses (0 :: zeros 13) .badLength = true := by decide
theorem test_refuse_reserved :
    refuses [0x4, 0x40E5888000000000] .reservedBits = true ∧ refuses [0x41, 0x40E7700000000000] .reservedBits = true ∧
      refuses (0x40002 :: zeros 13) .reservedBits = true ∧ refuses (0x40052 :: zeros 13) .reservedBits = true := by decide
theorem test_refuse_waveform :
    refuses (0x52 :: zeros 13) .badWaveform = true ∧ refuses (0x7002 :: zeros 13) .badWaveform = true := by decide

/-! The opcode table's numbering (entry 13). -/

/-- INIT with `sampleRate` in the second word. -/
theorem test_table_init : decodeTableWord 128 (0x40E5888000000000 * 2 ^ 64) = some (.init 0x40E5888000000000) := by decide
/-- A header alone: the operand words are zeros. -/
theorem test_table_header_only :
    decodeTableWord 64 0x1801 = some (.reset 24 0) ∧ decodeTableWord 64 0x3 = none ∧
      (decodeTableWord 64 0x2).isSome = true := by decide
/-- The placed word is what the next step runs: INIT is accepted from power-on. -/
theorem test_fetch_word :
    after (step (State.reset.withFetchWord 128 (0x40E5888000000000 * 2 ^ 64)))
      (fun t => t.sampleRate == 0x40E5888000000000 && t.inited && t.port.isEmpty) = true := by decide +kernel

/-! ### Single steps (95_test_vectors) -/

/-- V25: INIT clears what a run has left. -/
theorem test_init_rezeroes :
    after (exec (.init 0x40E5888000000000)
        { ready with trem := { modphase := one, count := 3 }, env := { stage := .release, elapsed := 9, level := one } })
      (fun t => t.trem == { modphase := 0, count := 0 } && t.env == { stage := .idle, elapsed := 0, level := 0 }
        && t.sampleRate == 0x40E5888000000000) = true := by decide +kernel
/-- V25: zero, `-0.0`, negative, infinite and NaN rates are refused; the smallest subnormal is accepted. -/
theorem test_init_bad_rates :
    refusedFor (exec (.init 0) ready) .badSampleRate = true ∧
      refusedFor (exec (.init 0x8000000000000000) ready) .badSampleRate = true ∧
      refusedFor (exec (.init 0xC0E5888000000000) ready) .badSampleRate = true ∧
      refusedFor (exec (.init 0x7FF0000000000000) ready) .badSampleRate = true ∧
      refusedFor (exec (.init 0x7FF8000000000000) ready) .badSampleRate = true ∧
      after (exec (.init 1) ready) (fun t => t.sampleRate == 1) = true := by decide +kernel
/-- V25: RESET from power-on is accepted. -/
theorem test_reset_power_on :
    after (exec (.reset 16 0x40E7700000000000) State.reset)
      (fun t => t.inited && t.sampleRate == 0x40E7700000000000 && t.response.isEmpty) = true := by decide +kernel
/-- V25: PROC from power-on is refused. -/
theorem test_proc_power_on : refusedFor (exec (.proc Snapshot.blank) State.reset) .notInitialised = true := by decide
/-- V24 row 1: square 0.5 and sawtooth 0.25 mixed, volume 0.5. -/
theorem test_proc_mix :
    after
      (exec
        (.proc
          { Snapshot.blank with
            osc1En := true, osc1Wave := .square, osc1Freq := one, osc1Amp := 0x3FE0000000000000, osc2En := true
            osc2Wave := .sawtooth, osc2Freq := two, osc2Amp := 0x3FD0000000000000, volume := 0x3FE0000000000000 })
        ready)
      (fun t => t.nodes.out == 0x3FD8000000000000 && t.osc.osc1 == 0x3FE921FB54442D18) = true := by decide +kernel
/-- V26 rows 1 and 3: an infinite amplitude faults, and so does the overflow of `1e308 + 1e308` in the mix. -/
theorem test_frame_faults :
    faulted (exec (.frame (tone one 0x7FF0000000000000 one)) ready) = true ∧
      faulted
          (exec
            (.frame
              { tone one 0x7FE1CCF385EBC8A0 one with
                osc2En := true, osc2Wave := .square, osc2Freq := one, osc2Amp := 0x7FE1CCF385EBC8A0 }) ready) = true := by decide +kernel
/-- V26: under mute an infinite amplitude is not read. -/
theorem test_frame_mute :
    after (exec (.frame { tone one 0x7FF0000000000000 one with mute := true }) ready)
      (fun t => t.nodes.out == 0 && t.osc.osc1 == 0) = true := by decide +kernel
/-- R184: the mute row forces the output. -/
theorem test_frameMute_row :
    after (exec .frameMute { ready with nodes := { ready.nodes with s1 := one, out := one } })
      (fun t => t.nodes.out == 0 && t.nodes.s1 == 0 && t.osc == ready.osc) = true := by decide +kernel

/-- V3 call 7: the phase `7PI/4` wraps to exactly `+0.0`; V4: the square at `PI` is `-a`. -/
theorem test_square_osc1 :
    after (exec (.genSquareOsc1 one 0x3FE0000000000000) (atPhase 0x4015FDBBE9BBA775))
        (fun t => t.nodes.s1 == 0xBFE0000000000000 && t.osc.osc1 == 0 && t.osc.osc2 == 0x4015FDBBE9BBA775) = true ∧
      after (exec (.genSquareOsc1 one 0x3FE0000000000000) (atPhase PI)) (fun t => t.nodes.s1 == 0xBFE0000000000000) = true := by
  decide +kernel
/-- V4: the triangle at `PI` and just below `TWO_PI`. -/
theorem test_triangle_osc1 :
    after (exec (.genTriangleOsc1 one 0x3FE0000000000000) (atPhase PI)) (fun t => t.nodes.s1 == 0x3FE0000000000000) = true ∧
      after (exec (.genTriangleOsc1 one 0x3FE0000000000000) (atPhase 0x401921FB54442D17))
        (fun t => t.nodes.s1 == 0xBFDFFFFFFFFFFFFC && t.osc.osc1 == 0x3FE921FB54442D10) = true := by decide +kernel
/-- V4: the sawtooth at `PI` with a negative amplitude is `-0.0`. -/
theorem test_sawtooth_osc1 :
    after (exec (.genSawtoothOsc1 one 0xBFF0000000000000) (atPhase PI)) (fun t => t.nodes.s1 == 0x8000000000000000) = true := by
  decide +kernel
/-- V4: the inverse sawtooth just below `TWO_PI`. -/
theorem test_sawtoothInverse_osc1 :
    after (exec (.genSawtoothInverseOsc1 one 0x3FE0000000000000) (atPhase 0x401921FB54442D17))
      (fun t => t.nodes.s1 == 0x3FDFFFFFFFFFFFFE) = true := by decide +kernel
/-- R91: the sine at phase `+0.0` is `+0.0`, a NaN amplitude not read. -/
theorem test_sine_osc1 :
    after (exec (.genSineOsc1 one 0x7FF8000000000000) ready) (fun t => t.nodes.s1 == 0) = true := by decide +kernel
/-- V3 on OSC2, calls 1 and 5; only OSC2's phase moves. -/
theorem test_osc2 :
    after (exec (.genSquareOsc2 one 0x3FE0000000000000) (atPhase 0x400F6A7A2955385E))
        (fun t => t.nodes.s2 == 0xBFE0000000000000 && t.osc.osc1 == 0x400F6A7A2955385E) = true ∧
      after (exec (.genTriangleOsc2 one 0x3FE0000000000000) (atPhase 0x3FE921FB54442D18))
        (fun t => t.nodes.s2 == 0xBFD0000000000000 && t.osc.osc2 == 0x3FF921FB54442D18) = true ∧
      after (exec (.genSawtoothOsc2 one 0x3FE0000000000000) (atPhase 0x3FE921FB54442D18))
        (fun t => t.nodes.s2 == 0x3FD8000000000000) = true ∧
      after (exec (.genSawtoothInverseOsc2 one 0x3FE0000000000000) (atPhase 0x3FE921FB54442D18))
        (fun t => t.nodes.s2 == 0xBFD8000000000000) = true ∧
      after (exec (.genSineOsc2 one one) ready) (fun t => t.nodes.s2 == 0) = true := by decide +kernel
/-- V3 on the LFO with amplitude 1.0; V5: a frequency of -1 runs the phase below zero. -/
theorem test_lfo :
    after (exec (.genSquareLfo one) (atPhase 0x400F6A7A2955385E)) (fun t => t.nodes.l == 0xBFF0000000000000) = true ∧
      after (exec (.genTriangleLfo one) (atPhase 0x3FE921FB54442D18)) (fun t => t.nodes.l == 0xBFE0000000000000) = true ∧
      after (exec (.genSawtoothLfo 0xBFF0000000000000) ready)
        (fun t => t.nodes.l == one && t.osc.lfo == 0xBFE921FB54442D18) = true ∧
      after (exec (.genSawtoothInverseLfo one) (atPhase 0x3FE921FB54442D18)) (fun t => t.nodes.l == 0xBFE8000000000000) = true ∧
      after (exec (.genSineLfo one) ready) (fun t => t.nodes.l == 0) = true := by decide +kernel

/-- V7, other operands at slow phase `+0.0`: `TREM(-1.0, 1.0) = -2.0`, and the mixed signal is multiplied by it. -/
theorem test_trem :
    after (exec (.trem one) { ready with nodes := { ready.nodes with l := 0xBFF0000000000000, m := 0x3FE0000000000000 } })
      (fun t => t.nodes.tg == 0xC000000000000000 && t.nodes.m == 0xBFF0000000000000) = true := by decide +kernel
/-- V7 calls 2 and 3 under the reference constants: the slow phase moves with the counter before it, and the counter wraps. -/
theorem test_trem_advance :
    tremPhase stub 0x4020000000000000 0x3FE921FB54442D18 2 = 0x4002D97C7F3321D2 ∧ tremCount stub 2 = 3 ∧
      tremPhase stub 0x4020000000000000 0x4002D97C7F3321D2 3 = 0x4012D97C7F3321D2 ∧ tremCount stub 3 = 0 := by decide +kernel
/-- R116, R118, R132: three rows that change nothing. -/
theorem test_pass_through :
    after (exec .lfoOff (atPhase one)) (fun t => t == atPhase one) = true ∧
      after (exec .lfoVibrato (atPhase one)) (fun t => t == atPhase one) = true ∧
      after (exec .filtOff (atPhase one)) (fun t => t == atPhase one) = true := by decide +kernel

/-- V13 row 1 and V14 calls 0 to 5: the coefficients and the impulse response. -/
theorem test_filt :
    filtCoeffs stub 0x40E5888000000000 0x407B800000000000 0x4097700000000000 =
        { b0 := 0x3FB1EBB422FADCE4, b2 := 0xBFB1EBB422FADCE4, a1 := 0xBFFD79E59FE4BF7C, a2 := 0x3FEB8512F74148C8 } ∧
      impulseResponse stub (filtCoeffs stub stabRate stabLow stabHigh) 6 one { x1 := 0, x2 := 0, y1 := 0, y2 := 0 } =
        [0x3FB1EBB422FADCE4, 0x3FC081DF1923F8C3, 0x3FBB7D3474C0E474, 0x3FB63FE8D8E3A86F, 0x3FB15963BBB6A835,
          0x3FA9A77CF92E72BE] := by decide +kernel
/-- R131: FILT shifts the history, and the reversed cut-offs leave the centre frequency 970. -/
theorem test_filt_row :
    after (exec (.filt 0x4097700000000000 0x407B800000000000)
        { ready with
          filt := { x1 := one, x2 := two, y1 := three, y2 := 0 }, nodes := { ready.nodes with m := thousand } })
      (fun t => t.filt.x1 == thousand && t.filt.x2 == one && t.filt.y2 == three
        && t.scratch.bandcenter == 0x408E500000000000) = true := by decide +kernel

/-- V19: stage counts at `SAMPLE_RATE = 8.0`, the floor and the ceiling. -/
theorem test_stage_counts :
    stageCount 0x4020000000000000 0x405F400000000000 = 1 ∧ stageCount 0x4020000000000000 0x406F400000000000 = 2 ∧
      stageCount 0x4020000000000000 0xC049000000000000 = 1 ∧ countOf 0x7FF8000000000000 = 1 ∧
      stageCount 0x4020000000000000 0x7FF0000000000000 = 2 ^ 62 := by decide +kernel
/-- V22 calls 0 to 3 and V19's Release: stage and level, given `coef(1) = 0.5`. -/
theorem test_env_stages :
    (env { stub with envSusEps := 0x3FD0000000000000 } 0x405F400000000000 0x405F400000000000 0x405F400000000000
        0x3FE0000000000000 ready).2.env = { stage := .attack, elapsed := 1, level := one } ∧
      (env { stub with envSusEps := 0x3FD0000000000000 } 0x405F400000000000 0x405F400000000000 0x405F400000000000
          0x3FE0000000000000 { ready with env := { stage := .decay, elapsed := 2, level := 0x3FE8000000000000 } }).2.env =
        { stage := .sustain, elapsed := 3, level := 0x3FE0000000000000 } ∧
      (env stub 0x405F400000000000 0x405F400000000000 0x405F400000000000
          0x3FE0000000000000 { ready with env := { stage := .decay, elapsed := 2, level := 0x3FE8000000000000 } }).2.env =
        { stage := .decay, elapsed := 3, level := 0x3FE4000000000000 } ∧
      (env stub 0x405F400000000000 0x405F400000000000 0x405F400000000000
          0x3FE0000000000000 { ready with env := { stage := .sustain, elapsed := 3, level := 0x3FE0000000000000 } }).2.env =
        { stage := .release, elapsed := 4, level := 0x3FD0000000000000 } := by decide +kernel
/-- R154, R182: the gain is the level before the update, and multiplies the signal. -/
theorem test_env_row :
    after (exec (.env 0 0 0 0)
        { ready with env := { stage := .attack, elapsed := 1, level := 0x3FE0000000000000 }, nodes := { ready.nodes with m := two } })
      (fun t => t.nodes.g == 0x3FE0000000000000 && t.nodes.m == one && t.env.elapsed == 2) = true := by decide +kernel
/-- V23 sample 3: idling zeroes the counter and the level and leaves the signal. -/
theorem test_envIdle_row :
    after (exec .envIdle
        { ready with env := { stage := .sustain, elapsed := 3, level := 0x3FE0000000000000 }, nodes := { ready.nodes with m := one } })
      (fun t => t.env == { stage := .idle, elapsed := 0, level := 0 } && t.nodes.m == one) = true := by decide +kernel

/-- R78, R79: the text form; a group turned off keeps its fields (V24 row 3), and `REP` repeats. -/
theorem test_assembler :
    (assemble ["PROC osc1=off,square,1,0.5 osc2=saw,2,0.25 vol=1".toList]).map (fun fs => fs.map (fun f => f.headD 0)) =
        some [0x0000000000000392] ∧
      (assemble ["REP 3: INIT sr=8".toList]).map List.length = some 3 ∧ assemble ["PROC osc1=sine,440,1".toList] = none := by
  decide +kernel

/-! ### A state and operands that meet every hypothesis of each obligation -/

/-- A next state from a test of the outcome. -/
theorem exists_next {o : Host.Outcome State Fault Refusal} (h : after o (fun _ => true) = true) : ∃ t, o = .next t := by
  cases o with
  | next t => exact ⟨t, rfl⟩
  | fault r => cases h
  | refused r => cases h

/-- A fault from a test of the outcome. -/
theorem exists_fault {o : Host.Outcome State Fault Refusal} (h : faulted o = true) : ∃ r, o = .fault r := by
  cases o with
  | next t => cases h
  | fault r => exact ⟨r, rfl⟩
  | refused r => cases h

/-- A refusal from a test of the outcome. -/
theorem refused_of_test {o : Host.Outcome State Fault Refusal} {r : Refusal} (h : refusedFor o r = true) :
    o = .refused r := by
  cases o with
  | next t => cases h
  | fault q => cases h
  | refused q => rw [of_decide_eq_true h]

/-- A command from a test of the decoder. -/
theorem decode_of_test {f : Frame} {i : Instr} (h : decodesTo f i = true) : decode f = .ok i := by
  unfold decodesTo at h
  split at h
  · next j hj => rw [hj, of_decide_eq_true h]
  · cases h

/-- A decoder refusal from a test of it. -/
theorem refuse_of_test {f : Frame} {e : DecodeError} (h : refuses f e = true) : decode f = .error e := by
  unfold refuses at h
  split at h
  · cases h
  · next d hd => rw [hd, of_decide_eq_true h]

/-- `ready` with one frame presented. -/
def given (f : Frame) : State := { ready with port := [f] }

/-- `DecoderChecksInOrder`: a frame for each clause, at the ends of the lengths and codes. -/
theorem test_witness_DecoderChecksInOrder :
    ([] : Frame).length ≠ 2 ∧ ([0x3, 0] : Frame).length = 2 ∧ (0x3 : Word).toNat % 4 = 3 ∧
      ([0x2, 0] : Frame).length ≠ 14 ∧ (0x2 : Word).toNat % 4 = 2 ∧ (0x4 : Word).toNat / 4 ≠ 0 ∧
      (0x41 : Word).toNat / 4 % 64 ≠ 0 ∧ (0x10001 : Word).toNat / 2 ^ 16 ≠ 0 ∧ (0x40002 : Word).toNat / 2 ^ 18 ≠ 0 ∧
      (0x52 : Word).toNat / 2 ^ 18 = 0 ∧ ¬(0x52 : Word).toNat / 2 ^ 4 % 8 < 5 ∧ (0x4442 : Word).toNat / 2 ^ 18 = 0 ∧
      (0x4442 : Word).toNat / 2 ^ 4 % 8 < 5 ∧ (0x4442 : Word).toNat / 2 ^ 12 % 8 < 5 := by decide

theorem test_witness_DecodeEncodeCommand : Instr.wellFormed (.reset 255 one) = true := by decide
theorem test_witness_EncodeDecodeFrame : decode [0x1801, 0x40E7700000000000] = .ok (.reset 24 0x40E7700000000000) :=
  decode_of_test (by decide)
theorem test_witness_OperationFrameSelectsIt : Instr.wellFormed (.env one two three 0) = false := by decide
theorem test_witness_TableWordDecodes : Instr.wellFormed (.proc (tone one one one)) = true := by decide

/-- `StepRunsDecodedFrame`: an idle core, a frame that decodes, a frame for each of the decoder's reasons. -/
theorem test_witness_StepRunsDecodedFrame :
    ready.port = [] ∧ (given [0, one]).port = [[0, one]] ∧ decode [0, one] = .ok (.init one) ∧
      decode [] = .error .badLength ∧ decode [0x3, 0] = .error .badOpcode ∧ decode [0x4, 0] = .error .reservedBits ∧
      decode (0x52 :: zeros 13) = .error .badWaveform :=
  ⟨rfl, rfl, decode_of_test (by decide), refuse_of_test (by decide), refuse_of_test (by decide), refuse_of_test (by decide),
    refuse_of_test (by decide)⟩

/-- `RefusalsAreTheClosedList` and `HostStepKeepsInvariant` past a refusal: a step refused for each reason. -/
theorem test_witness_RefusalsAreTheClosedList :
    step (given []) = .refused .badLength ∧ step (given [0x3, 0]) = .refused .badOpcode ∧
      step (given [0x4, 0]) = .refused .reservedBits ∧ step (given (0x52 :: zeros 13)) = .refused .badWaveform ∧
      step (given [0, 0]) = .refused .badSampleRate ∧ step (given [0x1, 0]) = .refused .badSampleRate ∧
      step { State.reset with port := [0x2 :: zeros 13] } = .refused .notInitialised :=
  ⟨refused_of_test (by decide +kernel), refused_of_test (by decide +kernel), refused_of_test (by decide +kernel),
    refused_of_test (by decide +kernel), refused_of_test (by decide +kernel), refused_of_test (by decide +kernel),
    refused_of_test (by decide +kernel)⟩

/-- `OnlyProcFaults`: a PROC of an infinite amplitude. -/
theorem test_witness_OnlyProcFaults :
    ∃ r, step (given [0x1A, one, one, posInf, 0, 0, 0, 0, 0, 0, 0, 0, 0, 0]) = .fault r :=
  exists_fault (by decide +kernel)

/-- `InitWritesEveryRegister`, `ResetIsInit`: the smallest accepted rate, the largest, and both zeros and ends refused. -/
theorem test_witness_InitWritesEveryRegister :
    (fGt 1 0 = true ∧ (1 : F64) ≠ posInf) ∧ (fGt 0x7FEFFFFFFFFFFFFF 0 = true ∧ (0x7FEFFFFFFFFFFFFF : F64) ≠ posInf) ∧
      ¬(fGt 0 0 = true ∧ (0 : F64) ≠ posInf) ∧ ¬(fGt posInf 0 = true ∧ posInf ≠ posInf) := by decide
theorem test_witness_ResetIsInit : fGt 1 0 = true ∧ (1 : F64) ≠ posInf := by decide
theorem test_witness_InitForgetsThePast :
    (∃ t, exec (.init one) ready = .next t) ∧ ∃ t, exec (.init one) (atPhase one) = .next t :=
  ⟨exists_next (by decide +kernel), exists_next (by decide +kernel)⟩
/-- `ProcNeedsInit`: both values of `INITED`, an INIT and a RESET that complete. -/
theorem test_witness_ProcNeedsInit :
    State.reset.inited = false ∧ ready.inited = true ∧ (∃ t, exec (.init one) State.reset = .next t) ∧
      ∃ t, exec (.reset 24 one) State.reset = .next t :=
  ⟨rfl, rfl, exists_next (by decide +kernel), exists_next (by decide +kernel)⟩
theorem test_witness_SampleRateOnlyFromReset :
    (∃ t, exec .envIdle ready = .next t) ∧ (∀ sr, Instr.envIdle ≠ .init sr) ∧ ∀ bd sr, Instr.envIdle ≠ .reset bd sr :=
  ⟨⟨_, rfl⟩, by simp, by simp⟩

/-- `ProcIsFrameThenRespond`: an initialised core; the PROC completes there. -/
theorem test_witness_ProcIsFrameThenRespond : ready.inited = true ∧ ∃ t, exec (.proc (tone one one one)) ready = .next t :=
  ⟨rfl, exists_next (by decide +kernel)⟩
/-- `ProcFrameConditions`: a PROC that completes under mute, and one that completes with everything disabled. -/
theorem test_witness_ProcFrameConditions :
    (∃ t, exec (.proc { tone one one one with mute := true }) ready = .next t) ∧
      (tone one one one).osc2En = false ∧ (tone one one one).lfoEn = false ∧ (tone one one one).filtEn = false ∧
      (tone one one one).envEn = false ∧ ∃ t, exec (.proc (tone one one one)) ready = .next t :=
  ⟨exists_next (by decide +kernel), rfl, rfl, rfl, rfl, exists_next (by decide +kernel)⟩
theorem test_witness_MuteForcesOutput :
    ({ tone one one one with mute := true } : Snapshot).mute = true ∧
      (∃ t, exec (.proc { tone one one one with mute := true }) ready = .next t) ∧
      ∃ u, exec (.proc { tone one one one with mute := false, osc1En := false, osc2En := false, volume := 0 }) ready = .next u :=
  ⟨rfl, exists_next (by decide +kernel), exists_next (by decide +kernel)⟩
/-- `BypassIsTheRawMix`: the LFO disabled, where the PROC completes, and in tremolo mode. -/
theorem test_witness_BypassIsTheRawMix :
    (tone one one one).mute = false ∧ (tone one one one).filtEn = false ∧ (tone one one one).envEn = false ∧
      (tone one one one).lfoEn = false ∧ (∃ t, exec (.proc (tone one one one)) ready = .next t) ∧
      tremTone.mute = false ∧ tremTone.filtEn = false ∧ tremTone.envEn = false ∧ tremTone.lfoEn = true ∧
      tremTone.lfoMode = .tremolo :=
  ⟨rfl, rfl, rfl, rfl, exists_next (by decide +kernel), rfl, rfl, rfl, rfl, rfl⟩
/-- `BypassIsTheRawMix` in tremolo mode: the PROC completes for every `TREM_FREQ` whose product with `TWO_PI` is finite. -/
theorem test_witness_BypassIsTheRawMix_tremolo (h : fIsFinite (fMul TWO_PI hw.tremFreq) = true) :
    ∃ t, exec (.proc tremTone) ready = .next t := by
  have hp : fIsFinite (frameBody hw tremTone ready).trem.modphase = true := by
    have hz : ∀ x : F64, fIsFinite x = true → fMul x 0 = fMake (fSign x) 0 := by
      intro x hx
      rw [fMul_finite hx (by decide), show fMag 0 = 0 by decide, magUnits_zero, Nat.mul_zero, roundMag_zero (by positivity)]
      simp
    have ht : (frameBody hw tremTone ready).trem.modphase =
        fAdd 0 (fDiv (fMul (fMul TWO_PI hw.tremFreq) (toF64 0)) 0x4020000000000000) := rfl
    rw [ht, show toF64 0 = 0 by decide +kernel, hz _ h]
    cases fSign (fMul TWO_PI hw.tremFreq) <;> decide +kernel
  have hn : nonFinite (respond (frameBody hw tremTone ready).out (frameBody hw tremTone ready)) = false := by
    simp only [nonFinite, registersFinite, f64Registers, List.all_cons, List.all_nil, respond_osc, respond_trem,
      respond_filt, respond_env, respond_sampleRate, respond_nodes, hp, Bool.not_eq_false', Bool.and_eq_true,
      Bool.and_true, Bool.true_and]
    decide +kernel
  exact ⟨_, by rw [exec, execProc, if_pos (by rfl), checkFinite, if_neg (by rw [hn]; decide)]⟩

theorem test_witness_VibratoIsDisabledLfo :
    ({ tone one one one with lfoEn := true, lfoMode := .vibrato } : Snapshot).lfoMode = .vibrato ∧
      ∃ t, exec (.proc { tone one one one with lfoEn := true, lfoMode := .vibrato }) ready = .next t :=
  ⟨rfl, exists_next (by decide +kernel)⟩
/-- `QuietFrameCompletes`: unmuted with the largest finite volume, and muted with a NaN one. -/
theorem test_witness_QuietFrameCompletes :
    registersFinite ready = true ∧ ready.inited = true ∧ Snapshot.blank.osc1En = false ∧ Snapshot.blank.osc2En = false ∧
      fIsFinite 0x7FEFFFFFFFFFFFFF = true ∧ Snapshot.blank.lfoEn = false ∧ Snapshot.blank.filtEn = false ∧
      Snapshot.blank.envEn = false ∧
      ({ Snapshot.blank with mute := true, volume := 0x7FF8000000000000 } : Snapshot).mute = true := by decide +kernel
/-- `SquareToneCompletes`: volume 1.0 and phase `+0.0`, the ends of their ranges. -/
theorem test_witness_SquareToneCompletes :
    ready.inited = true ∧ registersFinite ready = true ∧ (tone one one one).mute = false ∧
      (tone one one one).osc1En = true ∧ (tone one one one).osc1Wave = .square ∧ (tone one one one).osc2En = false ∧
      (tone one one one).lfoEn = false ∧ (tone one one one).filtEn = false ∧ (tone one one one).envEn = false ∧
      fIsFinite one = true ∧ fLe 0 one = true ∧ fLe one one = true ∧ fLe 0 ready.osc.osc1 = true ∧
      fLt ready.osc.osc1 TWO_PI = true ∧ fLe 0 (phaseInc ready.sampleRate one) = true ∧
      fLt (phaseInc ready.sampleRate one) TWO_PI = true := by decide +kernel
/-- `ProcReadsPersistentOnly`: two states that differ in everything but the persistent registers. -/
theorem test_witness_ProcReadsPersistentOnly :
    samePersistent ready
      { ready with
        scratch := { bandcenter := one, bandwidth := one }, snapshot := tone one one one, out := [one], response := [one]
        nodes := { s1 := one, s2 := one, m := one, l := one, tg := one, g := one, out := one } } :=
  ⟨rfl, rfl, rfl, rfl, rfl, rfl⟩

/-- `WaveCornerValues`: an infinite amplitude, and a NaN phase. -/
theorem test_witness_WaveCornerValues : fIsNaN posInf = false ∧ fIsNaN 0x7FF8000000000000 = true := by decide
/-- `WrapInvariant`: increment `+0.0`, and phases at both ends of the range. -/
theorem test_witness_WrapInvariant :
    incInRange ready.sampleRate 0 ∧ incInRange ready.sampleRate 0x401FFFFFFFFFFFFE ∧ phaseInRange (atPhase 0).osc.osc1 ∧
      phaseInRange (atPhase 0x401921FB54442D17).osc.osc2 ∧ phaseInRange (atPhase 0x401921FB54442D17).osc.lfo := by
  unfold incInRange phaseInRange
  decide +kernel
/-- `PhasesStayInRange`: an initialised core whose next frame keeps the duty. -/
theorem test_witness_PhasesStayInRange :
    phasesInRange (given [0, one]) ∧ nextFrameDuty (given [0, one]) ∧ ∃ t, step (given [0, one]) = .next t := by
  refine ⟨?_, ?_, exists_next (by decide +kernel)⟩
  · unfold phasesInRange phaseInRange
    decide +kernel
  · intro f rest p hp hd
    have hf : f = [0, one] := by cases hp; rfl
    have h2 : decode [0, one] = .ok (.init one) := decode_of_test (by decide)
    rw [hf, h2] at hd
    cases hd
/-- `AdvanceCornerCases`: the smallest sample rate, phases at both ends with a clear sign, a NaN frequency. -/
theorem test_witness_AdvanceCornerCases :
    fGt 1 0 = true ∧ fIsFinite 1 = true ∧ fLe 0 0x401921FB54442D17 = true ∧ fLt 0x401921FB54442D17 TWO_PI = true ∧
      fSign 0x401921FB54442D17 = false ∧ fLe 0 0 = true ∧ fLt 0 TWO_PI = true ∧ fSign 0 = false ∧
      fIsNaN 0x7FF8000000000000 = true := by decide +kernel

/-- `TremoloDepthLaw`: slow phase `+0.0`, an LFO sample 1.0 and an infinite one, depths 0 and 1. -/
theorem test_witness_TremoloDepthLaw :
    fIsFinite ready.trem.modphase = true ∧ fIsNaN posInf = false ∧ ready.trem.modphase = 0 ∧
      ({ ready with nodes := { ready.nodes with l := one } } : State).nodes.l = one ∧ fIsNaN one = false ∧
      fLe 0 0 = true ∧ fLe 0 one = true ∧ fLe one one = true := by decide +kernel
theorem test_witness_TremCounterCycles : ∃ t, exec (.init one) ready = .next t := exists_next (by decide +kernel)
/-- `BandwidthNeverZero`: equal and reversed cut-offs, a NaN one; under the reference `BW_EPS` a difference between 0 and it
(V13 row 4), one at it and an infinite one. -/
theorem test_witness_BandwidthNeverZero :
    finitePos stub.bwEps = true ∧ fLe one one = true ∧ fLe one two = true ∧ fIsNaN 0x7FF8000000000000 = true ∧
      fGt (fSub 0x408F400000431BDF thousand) 0 = true ∧
      fGe (fSub 0x408F400000431BDF thousand) stub.bwEps = false ∧ fGe (fSub stub.bwEps 0) stub.bwEps = true ∧
      fGe (fSub posInf 0) stub.bwEps = true := by decide +kernel
/-- A configuration with the silent filter is valid for every valid `ENV_TRUNC`. -/
theorem calmRelease_valid {T : F64} (hT : finitePos T = true) : ConfigValid (calmRelease T) := by
  exact {
    nChannels := .inr rfl
    lfoAmp := rfl
    tremFreq := (by decide : finiteNonneg one = true)
    tremPeriod := (by decide : 1 ≤ 4 ∧ 4 ≤ 2 ^ 32)
    filtGain := (by decide : fIsFinite 0 = true)
    filtA0 := (by decide : finiteNonzero one = true)
    bwEps := (by decide : finitePos one = true)
    envTrunc := hT
    envSusEps := (by decide : finiteNonneg 0x3F50000000000000 = true)
    num := {
      sinZero := rfl
      cosZero := rfl
      sinBound := fun _ _ => (by decide : inUnitBall 0 = true)
      cosBound := fun _ _ => (by decide : inUnitBall one = true)
      expRange := fun _ _ _ => (by decide : inUnitInterval 0x3FE0000000000000 = true)
      lnPos := by
        intro x hx _
        have hne : x ≠ posInf := by rintro rfl; exact absurd hx (by decide)
        show finitePos (if x = posInf then posInf else one) = true
        rw [if_neg hne]
        decide
      tanPos := fun _ _ _ => (by decide : finitePos 0x3FB1B7CFA45FE5FF = true) }
    stable := filterStable_calmed _ }

/-- `ImpulseResponseBounded`: the first sample, a cleared history at 44100 Hz; a valid configuration with the correctly rounded
tangent, and constants that meet the bound. -/
theorem test_witness_ImpulseResponseBounded :
    ({ ready with sampleRate := 0x40E5888000000000 } : State).sampleRate = 0x40E5888000000000 ∧
      ({ ready with sampleRate := 0x40E5888000000000 } : State).filt = { x1 := 0, x2 := 0, y1 := 0, y2 := 0 } ∧
      ConfigValid (calmRelease one) ∧ (calmRelease one).filtCoef = bandpassCoef ∧
      (calmRelease one).num.tan (fDiv (fMul PI (bandCenter 0x407B800000000000 0x4097700000000000)) 0x40E5888000000000) =
        0x3FB1B7CFA45FE5FF ∧
      impulseBounded { calmRelease one with filtGain := 0, filtA0 := one, bwEps := one } = true :=
  ⟨rfl, rfl, calmRelease_valid (by decide), rfl, rfl, impulseBounded_of_tan rfl (filterStable_calmed _) rfl⟩

/-- `StageCountClamped`: `x` just below 1, at 1, at `2^62` and a NaN is no operand of the middle clause. -/
theorem test_witness_StageCountClamped :
    fGe (fDiv (fMul 0x4020000000000000 0x405F39999999999A) thousand) one = false ∧
      fGe (fDiv (fMul 0x4020000000000000 0x405F400000000000) thousand) one = true ∧
      fGe (fDiv (fMul 0x4020000000000000 0x405F400000000000) thousand) twoPow62 = false ∧
      fGe (fDiv (fMul twoPow62 thousand) thousand) twoPow62 = true := by decide +kernel
/-- `ElapsedSaturates`: the counter at its ceiling. -/
theorem test_witness_ElapsedSaturates :
    ({ ready with env := { stage := .release, elapsed := 0xFFFFFFFFFFFFFFFF, level := 0 } } : State).env.elapsed.toNat =
      2 ^ 64 - 1 := by decide
theorem test_witness_IdleRowCompletes :
    (tone one one one).envEn = false ∧ ∃ t, exec (.proc (tone one one one)) ready = .next t :=
  ⟨rfl, exists_next (by decide +kernel)⟩
/-- `ReleaseNeverRises`: a valid configuration for each of the three ratios, an ordinary `ENV_TRUNC`, the largest and the
smallest, with the premises met; counts 1 and `2^62`, levels `+0.0` and the largest. -/
theorem test_witness_ReleaseNeverRises :
    (∀ T, finitePos T = true → ConfigValid (calmRelease T)) ∧ finitePos one = true ∧
      fGt (fDiv (fAdd one one) one) one = true ∧ finitePos 0x7FEFFFFFFFFFFFFF = true ∧
      fDiv (fAdd one 0x7FEFFFFFFFFFFFFF) 0x7FEFFFFFFFFFFFFF = one ∧ finitePos 1 = true ∧
      fDiv (fAdd one 1) 1 = posInf ∧ finiteNonneg ((calmRelease one).num.ln one) = true ∧
      (calmRelease one).num.ln posInf = posInf ∧
      inUnitInterval ((calmRelease one).num.exp (fNeg posInf)) = true ∧ 1 ≤ 1 ∧ 1 ≤ 2 ^ 62 ∧ fIsFinite 0 = true ∧
      fLe 0 0 = true ∧ fIsFinite 0x7FEFFFFFFFFFFFFF = true ∧ fLe 0 0x7FEFFFFFFFFFFFFF = true := by
  exact ⟨fun T hT => calmRelease_valid hT, by decide +kernel⟩

/-- `StepKeepsInvariant`, `HostStepKeepsInvariant`: an initialised core that meets the invariant, with a PROC to run. -/
theorem test_witness_StepKeepsInvariant :
    Inv (given [0x1A, one, one, one, 0, 0, 0, 0, 0, 0, 0, 0, 0, 0]) ∧
      (∃ t, step (given [0x1A, one, one, one, 0, 0, 0, 0, 0, 0, 0, 0, 0, 0]) = .next t) ∧
      ∃ t, hostStep (given [0x3, 0]) = some t := by
  refine ⟨⟨?_, ?_, ?_, .inl rfl⟩, exists_next (by decide +kernel), ?_⟩
  · exact Nat.succ_pos _
  · unfold idleMeansZero; decide +kernel
  · intro _; decide +kernel
  · have h : step (given [0x3, 0]) = .refused .badOpcode := refused_of_test (by decide +kernel)
    exact ⟨_, by unfold hostStep; rw [h]⟩

/-- `OperationsRoundToNearest`: finite operands, a divisor that is not zero, a product past the overflow bound and one at the
bottom of the subnormals. -/
theorem test_witness_OperationsRoundToNearest :
    fIsFinite 0x7FEFFFFFFFFFFFFF = true ∧ fIsFinite 1 = true ∧ valueOf 1 ≠ 0 ∧
      overflowBound ≤ |valueOf 0x7FEFFFFFFFFFFFFF * valueOf 0x7FEFFFFFFFFFFFFF| ∧ |valueOf 1 * valueOf 1| < overflowBound := by
  decide +kernel
/-- `SpecialOperands`: a difference that is an exact zero of both signs, a quotient by zero, by an infinity. -/
theorem test_witness_SpecialOperands_signs :
    valueOf (fNeg 0) - valueOf 0 = 0 ∧ valueOf one - valueOf one = 0 ∧ fIsNaN (fDiv one (fNeg 0)) = false ∧
      fIsNaN (fDiv (fNeg one) posInf) = false ∧ fIsNaN (fDiv posInf (fNeg 0)) = false ∧
      fIsNaN (fMul posInf (fNeg posInf)) = false := by decide +kernel
/-- `SpecialOperands`: a NaN; infinities of one sign and of both; zeros of both signs; opposite finite values. -/
theorem test_witness_SpecialOperands :
    fIsNaN 0x7FF8000000000000 = true ∧ fIsInf posInf = true ∧ fIsInf (fNeg posInf) = true ∧
      fSign posInf ≠ fSign (fNeg posInf) ∧ fIsFinite 0 = true ∧ valueOf 0 = 0 ∧ valueOf (fNeg 0) = 0 ∧ valueOf one ≠ 0 ∧
      fIsFinite one = true ∧ valueOf one + valueOf (fNeg one) = 0 ∧ fIsNaN (fMul one one) = false := by decide +kernel
/-- `ComparisonsAreIeee`: a NaN operand, and two operands that are none, finite and infinite. -/
theorem test_witness_ComparisonsAreIeee :
    fIsNaN 0x7FF8000000000000 = true ∧ fIsNaN one = false ∧ fIsNaN (fNeg posInf) = false := by decide
/-- `ConstantsAreExact`, `IntegerConversions`: a finite value; the last exact integer; a number below the overflow bound. -/
theorem test_witness_IntegerConversions :
    ((2 ^ 53 : Nat) : ℚ) < overflowBound ∧ 2 ^ 53 ≤ 2 ^ 53 ∧ fIsFinite 0x7FEFFFFFFFFFFFFF = true ∧
      fLe 0 0x7FEFFFFFFFFFFFFF = true := by decide +kernel

end Sys2Proof.Tests
end

section
/-!
The numerics of 00_scope: comparisons as the order of values (R11), rounding as nearness of values (R8) and the integer
conversions (R12).
-/

namespace Sys2Proof.Scope

open Sys2Proof.Machine Sys2Proof.Safety

/-! ### Values and their order (R11) -/

/-- A value that is not a NaN is an end of the line or finite, and its key lies accordingly. -/
theorem extValueOf_cases {x : F64} (hx : fIsNaN x = false) :
    (extValueOf x = ⊥ ∧ fKey x = -infMag) ∨ (extValueOf x = (⊤ : WithTop ℚ) ∧ fKey x = infMag) ∨
      (extValueOf x = (valueOf x : WithTop ℚ) ∧ -(infMag : Int) < fKey x ∧ fKey x < infMag) := by
  rcases class_cases x with h | h | h
  · rw [hx] at h; cases h
  · have hm : fMag x = infMag := by simpa [fIsInf] using h
    cases hs : fSign x
    · exact .inr (.inl ⟨by simp [extValueOf, h, hs], by simp [fKey, hs, hm]⟩)
    · exact .inl ⟨by simp [extValueOf, h, hs], by simp [fKey, hs, hm]⟩
  · have hm := fIsFinite_iff.1 h
    refine .inr (.inr ⟨by simp [extValueOf, not_inf_of_finite h], ?_⟩)
    unfold fKey
    split <;> omega

theorem valueOf_lt_iff {a b : F64} : valueOf a < valueOf b ↔ fKey a < fKey b := by
  rw [valueOf, valueOf, div_lt_div_iff_of_pos_right (by positivity), Int.cast_lt, fInt_lt_iff]

/-- The order of extended values is the order of keys: between finite values by `valueOf_lt_iff`, else by which end each
operand is at. -/
theorem extValueOf_lt_iff {a b : F64} (ha : fIsNaN a = false) (hb : fIsNaN b = false) :
    extValueOf a < extValueOf b ↔ fKey a < fKey b := by
  have hv := @valueOf_lt_iff a b
  have htop : ((valueOf a : WithTop ℚ) : WithBot (WithTop ℚ)) < ⊤ := WithBot.coe_lt_coe.2 (WithTop.coe_lt_top _)
  have hpos : (0 : Int) < infMag := by decide
  rcases extValueOf_cases ha with ⟨ea, ka⟩ | ⟨ea, ka⟩ | ⟨ea, la, ua⟩ <;>
    rcases extValueOf_cases hb with ⟨eb, kb⟩ | ⟨eb, kb⟩ | ⟨eb, lb, ub⟩ <;>
    simp [ea, eb, hv, htop] <;> omega

theorem extValueOf_le_iff {a b : F64} (ha : fIsNaN a = false) (hb : fIsNaN b = false) :
    extValueOf a ≤ extValueOf b ↔ fKey a ≤ fKey b := by
  rw [← not_lt, extValueOf_lt_iff hb ha, not_lt]

theorem fLt_iff_extValueOf {a b : F64} (ha : fIsNaN a = false) (hb : fIsNaN b = false) :
    fLt a b = true ↔ extValueOf a < extValueOf b := by
  rw [extValueOf_lt_iff ha hb, fLt_iff]; simp [ha, hb]

theorem fLe_iff_extValueOf {a b : F64} (ha : fIsNaN a = false) (hb : fIsNaN b = false) :
    fLe a b = true ↔ extValueOf a ≤ extValueOf b := by
  rw [extValueOf_le_iff ha hb, fLe_iff]; simp [ha, hb]

theorem fEq_iff_extValueOf {a b : F64} (ha : fIsNaN a = false) (hb : fIsNaN b = false) :
    fEq a b = true ↔ extValueOf a = extValueOf b := by
  have hkey : extValueOf a = extValueOf b ↔ fKey a = fKey b := by
    rw [le_antisymm_iff, extValueOf_le_iff ha hb, extValueOf_le_iff hb ha, ← le_antisymm_iff]
  rw [hkey]; simp [fEq, ha, hb]

/-- A comparison with a NaN operand is false; `>` and `>=` are these with the operands exchanged. -/
theorem comparisons_nan {a b : F64} (h : fIsNaN a = true ∨ fIsNaN b = true) :
    fLt a b = false ∧ fLe a b = false ∧ fEq a b = false := by
  rcases h with h | h <;> simp [fLt, fLe, fEq, h]

theorem fMax_nan_left {a b : F64} (h : fIsNaN a = true) : fMax a b = b := by
  obtain ⟨_, hle, _⟩ := comparisons_nan (a := b) (b := a) (.inr h)
  simp [fMax, fGe, hle]

/-! ### Rounding to nearest (R8) -/

/-- A finite value's magnitude in units of `2^-1074`. -/
theorem abs_valueOf (x : F64) : |valueOf x| = (magUnits (fMag x) : ℚ) / 2 ^ 1074 := by
  rw [valueOf, abs_div, abs_of_pos (show (0 : ℚ) < 2 ^ 1074 by positivity), ← Int.cast_abs, Int.abs_eq_natAbs,
    fInt_natAbs, Int.cast_natCast]

theorem fInt_nonneg {x : F64} (h : fSign x = false) : 0 ≤ fInt x := by simp [fInt, h]

theorem fInt_nonpos {x : F64} (h : fSign x = true) : fInt x ≤ 0 := by simp [fInt, h]

theorem valueOf_nonneg {x : F64} (h : fSign x = false) : 0 ≤ valueOf x :=
  div_nonneg (Int.cast_nonneg (fInt_nonneg h)) (by positivity)

theorem valueOf_nonpos {x : F64} (h : fSign x = true) : valueOf x ≤ 0 :=
  div_nonpos_of_nonpos_of_nonneg (Int.cast_nonpos.2 (fInt_nonpos h)) (by positivity)

/-- The bits of infinity read as a magnitude, in half places of the largest finite value: `2^2044` units, its exponent a
variable so that nothing computes the power. -/
theorem magUnits_infMag {k : Nat} (hk : k = 2044) : magUnits infMag = 2 ^ 54 * 2 ^ k := by
  have h : infMag = (k + 2) * 2 ^ 52 + 2 ^ 52 := by subst hk; decide
  rw [h, magUnits_shift (.inr le_rfl) (by decide), pow_add]
  omega

theorem magUnits_maxMag {k : Nat} (hk : k = 2044) : magUnits (infMag - 1) = (2 ^ 54 - 2) * 2 ^ k := by
  have h : infMag - 1 = (k + 1) * 2 ^ 52 + (2 ^ 53 - 1) := by subst hk; decide
  rw [h, magUnits_shift (.inr (by decide)) (by decide), pow_add]
  omega

/-- A quotient below the overflow bound rounds to a finite magnitude: the largest finite one, a unit `2^2044` below the bound,
is nearer than that of infinity, a unit above it. -/
theorem roundMagRaw_lt_inf {n d k : Nat} (hd : 0 < d) (hk : k = 2044) (h : n + 2 ^ k * d < 2 ^ 54 * (2 ^ k * d)) :
    roundMagRaw n d < infMag := by
  by_contra hc
  have hge : magUnits infMag * d ≤ magUnits (roundMagRaw n d) * d :=
    Nat.mul_le_mul_right d (magUnits_le_iff.2 (not_lt.1 hc))
  have hnear := (roundMagRaw_nearest (n := n) hd (infMag - 1)).1
  rw [magUnits_infMag hk, Nat.mul_assoc] at hge
  rw [magUnits_maxMag hk, Nat.mul_assoc] at hnear
  generalize magUnits (roundMagRaw n d) * d = r at *
  generalize 2 ^ k * d = u at *
  rw [abs_of_nonneg (by omega)] at hnear
  rcases abs_cases ((((2 ^ 54 - 2) * u : Nat) : Int) - n) with ⟨e, _⟩ | ⟨e, _⟩ <;> rw [e] at hnear <;> omega

/-- The same of an exact value `x` whose magnitude is `n / d` units of `2^-1074`. -/
theorem roundMagRaw_lt_inf_of_value {n d : Nat} (hd : 0 < d) {x : ℚ} (hx : |x| = (n : ℚ) / d / 2 ^ 1074)
    (hb : |x| < overflowBound) : roundMagRaw n d < infMag := by
  obtain ⟨k, hk⟩ : ∃ k, k = 2044 := ⟨_, rfl⟩
  apply roundMagRaw_lt_inf hd hk
  have hd' : (0 : ℚ) < d := by exact_mod_cast hd
  have hp : (2 : ℚ) ^ 970 * 2 ^ 1074 = 2 ^ k := by rw [← pow_add, hk]
  rw [hx, overflowBound, div_lt_iff₀ (by positivity), div_lt_iff₀ hd', mul_assoc _ (2 ^ 970), hp, mul_assoc] at hb
  have : (n : ℚ) + 2 ^ k * d < 2 ^ 54 * (2 ^ k * d) := by linarith
  exact_mod_cast this

/-- No finite magnitude is nearer to `n / d` units than the rounded one, and a tie with another leaves it even. -/
theorem roundMagRaw_nearest_value {n d : Nat} (hd : 0 < d) (b : Nat) :
    |(magUnits (roundMagRaw n d) : ℚ) / 2 ^ 1074 - (n : ℚ) / d / 2 ^ 1074| ≤
        |(magUnits b : ℚ) / 2 ^ 1074 - (n : ℚ) / d / 2 ^ 1074| ∧
      (|(magUnits (roundMagRaw n d) : ℚ) / 2 ^ 1074 - (n : ℚ) / d / 2 ^ 1074| =
          |(magUnits b : ℚ) / 2 ^ 1074 - (n : ℚ) / d / 2 ^ 1074| →
        b ≠ roundMagRaw n d → roundMagRaw n d % 2 = 0) := by
  have hd' : (0 : ℚ) < d := by exact_mod_cast hd
  have hD : (0 : ℚ) < d * 2 ^ 1074 := by positivity
  have scaled (m : Nat) : |(magUnits m : ℚ) / 2 ^ 1074 - (n : ℚ) / d / 2 ^ 1074| =
      ((|((magUnits m * d : Nat) : Int) - n| : Int) : ℚ) / (d * 2 ^ 1074) := by
    rw [Int.cast_abs, ← abs_of_pos hD, ← abs_div]
    push_cast
    congr 1
    field_simp
  obtain ⟨hle, heq⟩ := roundMagRaw_nearest (n := n) hd b
  rw [scaled, scaled, div_le_div_iff_of_pos_right hD, div_left_inj' hD.ne', Int.cast_le, Int.cast_inj]
  exact ⟨hle, heq⟩

/-- Numbers on one side of zero are as far apart as their magnitudes. -/
theorem abs_sub_of_same_side {r x : ℚ} (h : 0 ≤ r ∧ 0 ≤ x ∨ r ≤ 0 ∧ x ≤ 0) : |r - x| = |(|r| - |x|)| := by
  rcases h with ⟨hr, hx⟩ | ⟨hr, hx⟩
  · rw [abs_of_nonneg hr, abs_of_nonneg hx]
  · rw [abs_of_nonpos hr, abs_of_nonpos hx, neg_sub_neg, abs_sub_comm]

/-- A value of magnitude `n / d` units, below the overflow bound, has the rounded magnitude under its own sign as its nearest
value. -/
theorem isNearest_roundMag {n d : Nat} (hd : 0 < d) {neg : Bool} {x : ℚ} (hx : |x| = (n : ℚ) / d / 2 ^ 1074)
    (hs : x ≠ 0 → (neg = true ↔ x < 0)) (hb : |x| < overflowBound) : isNearest (fMake neg (roundMag n d)) x := by
  set r := fMake neg (roundMag n d) with hr
  have hfin := roundMagRaw_lt_inf_of_value hd hx hb
  have hsign : fSign r = neg := fSign_fMake _ (roundMag_lt_pow _ _)
  have hmag : fMag r = roundMagRaw n d := by
    rw [hr, fMag_fMake _ (roundMag_lt_pow _ _), roundMag_eq, min_eq_left hfin.le]
  have hdist : |valueOf r - x| = |(|valueOf r| - |x|)| := by
    by_cases h0 : x = 0
    · simp [h0]
    · apply abs_sub_of_same_side
      cases neg
      · exact .inl ⟨valueOf_nonneg hsign, by simpa using hs h0⟩
      · exact .inr ⟨valueOf_nonpos hsign, ((hs h0).1 rfl).le⟩
  have near (z : F64) := roundMagRaw_nearest_value (n := n) hd (fMag z)
  simp only [← hmag, ← abs_valueOf, ← hx, ← hdist] at near
  have hmin (z : F64) : |valueOf r - x| ≤ |valueOf z - x| := (near z).1.trans (abs_abs_sub_abs_le _ _)
  refine ⟨fIsFinite_iff.2 (hmag ▸ hfin), fun h0 => hsign ▸ hs h0, fun z _ => ⟨hmin z, fun heq hne => ?_⟩⟩
  apply (near z).2 (le_antisymm (near z).1 (heq ▸ abs_abs_sub_abs_le _ _))
  intro hz
  have hneg : valueOf z = -valueOf r :=
    (abs_eq_abs.1 (by rw [abs_valueOf, abs_valueOf, hz])).resolve_left hne
  have hzero : valueOf r = 0 := by
    rcases abs_eq_abs.1 (hneg ▸ heq) with h | h
    · linarith
    · have h0 : x = 0 := by linarith
      have := hmin 0#64
      simpa [h0, valueOf] using this
  rw [hneg, hzero, neg_zero] at hne
  exact hne rfl

/-! ### Integer conversions (R12) -/

theorem toF64_isNearest {n : Nat} (h : (n : ℚ) < overflowBound) : isNearest (toF64 n) n := by
  have habs : |(n : ℚ)| = n := abs_of_nonneg n.cast_nonneg
  apply isNearest_roundMag Nat.one_pos
  · rw [habs, Nat.cast_mul, Nat.cast_pow, Nat.cast_ofNat, Nat.cast_one, div_one,
      mul_div_cancel_right₀ _ (by positivity)]
  · simp
  · rwa [habs]

/-- An integer up to `2^53` is representable at every scale: a small one is an even one at the scale below. -/
theorem exists_magUnits_eq (k : Nat) {n : Nat} (h : n ≤ 2 ^ 53) : ∃ b, magUnits b = n * 2 ^ k := by
  induction k generalizing n with
  | zero => exact ⟨0 * 2 ^ 52 + n, magUnits_shift (.inl rfl) h⟩
  | succ k ih =>
    rcases Nat.lt_or_ge n (2 ^ 52) with hn | hn
    · obtain ⟨b, hb⟩ := ih (n := n * 2) (by omega)
      exact ⟨b, by rw [hb, pow_succ', Nat.mul_assoc]⟩
    · exact ⟨(k + 1) * 2 ^ 52 + n, magUnits_shift (.inr hn) h⟩

theorem lt_overflowBound {n : Nat} (h : n ≤ 2 ^ 53) : (n : ℚ) < overflowBound := by
  calc (n : ℚ) ≤ 2 ^ 53 := by exact_mod_cast h
    _ < (2 ^ 54 - 1) * 1 := by norm_num
    _ ≤ (2 ^ 54 - 1) * 2 ^ 970 := mul_le_mul_of_nonneg_left (one_le_pow₀ one_le_two) (by norm_num)

/-- `toF64` is exact up to `2^53`. -/
theorem valueOf_toF64 {n : Nat} (h : n ≤ 2 ^ 53) : valueOf (toF64 n) = n := by
  obtain ⟨b, hb⟩ := exists_magUnits_eq 1074 h
  have hfin := fIsFinite_iff.1 (toF64_isNearest (lt_overflowBound h)).1
  have hmag : fMag (toF64 n) = b := by
    have hraw := roundMagRaw_exact Nat.one_pos b
    have hround : fMag (toF64 n) = min (roundMagRaw (n * 2 ^ 1074) 1) infMag := fMag_fMake _ (roundMag_lt_pow _ _)
    rw [Nat.mul_one, hb] at hraw
    rw [hraw] at hround
    omega
  have hsign : fSign (toF64 n) = false := fSign_fMake _ (roundMag_lt_pow _ _)
  rw [← abs_of_nonneg (valueOf_nonneg hsign), abs_valueOf, hmag, hb, Nat.cast_mul, Nat.cast_pow, Nat.cast_ofNat,
    mul_div_cancel_right₀ _ (by positivity)]

theorem fInt_of_nonneg {x : F64} (h : fLe 0 x = true) : fInt x = magUnits (fMag x) := by
  obtain ⟨_, _, hk⟩ := fLe_iff.1 h
  have h0 : 0 ≤ fInt x := by simpa using fInt_le_iff.2 hk
  rw [← fInt_natAbs, Int.natAbs_of_nonneg h0]

theorem fTrunc_eq_floor {x : F64} (h : fLe 0 x = true) : (fTrunc x : ℤ) = ⌊valueOf x⌋ := by
  have hv : valueOf x = (magUnits (fMag x) : ℚ) / (2 ^ 1074 : Nat) := by
    rw [valueOf, fInt_of_nonneg h, Int.cast_natCast, Nat.cast_pow, Nat.cast_ofNat]
  rw [hv, Rat.floor_natCast_div_natCast, fTrunc, Int.natCast_ediv]

theorem fTrunc_mono {x y : F64} (hx : fLe 0 x = true) (hy : fLe 0 y = true) (h : fLe x y = true) :
    fTrunc x ≤ fTrunc y := by
  obtain ⟨_, _, hk⟩ := fLe_iff.1 h
  have hu := fInt_le_iff.2 hk
  rw [fInt_of_nonneg hx, fInt_of_nonneg hy, Int.ofNat_le] at hu
  exact Nat.div_le_div_right hu

/-- A stage count is at most its ceiling: below it, the count of samples truncates to no more. -/
theorem countOf_le (x : F64) : countOf x ≤ 2 ^ 62 := by
  unfold countOf
  split_ifs with hlow hhigh
  · decide
  · exact le_rfl
  · obtain ⟨_, hx, hone⟩ := fLe_iff.1 (show fLe one x = true by simpa [fGe] using hlow)
    have hnonneg : fLe 0 x = true := fLe_iff.2 ⟨by decide, hx, le_trans (by decide) hone⟩
    have hbelow : fLe x twoPow62 = true := by
      rw [fGe, fLe_iff] at hhigh
      exact fLe_iff.2 ⟨hx, by decide, le_of_not_ge fun hk => hhigh ⟨by decide, hx, hk⟩⟩
    have htop : fTrunc twoPow62 = 2 ^ 62 := by decide +kernel
    exact htop ▸ fTrunc_mono hnonneg (by decide) hbelow

end Sys2Proof.Scope

open Sys2Proof Sys2Proof.Machine Sys2Proof.Safety Sys2Proof.Scope

/-- Settles O55: the order of the keys compared is the order of the extended values. -/
theorem comparisonsAreIeee : Obligations.ComparisonsAreIeee := by
  intro a b
  refine ⟨fun h => ?_, fun ha hb => ?_, by decide, rfl, fMax_nan_left⟩
  · obtain ⟨hlt, hle, heq⟩ := comparisons_nan h
    obtain ⟨hgt, hge, _⟩ := comparisons_nan h.symm
    exact ⟨hlt, hle, hgt, hge, heq⟩
  · exact ⟨fLt_iff_extValueOf ha hb, fLe_iff_extValueOf ha hb, fLt_iff_extValueOf hb ha, fLe_iff_extValueOf hb ha,
      fEq_iff_extValueOf ha hb⟩

/-- Settles O57: `toF64` rounds to nearest over a grid that holds every integer up to `2^53`, and `trunc` divides the units by
those of 1.0. -/
theorem integerConversions : Obligations.IntegerConversions := by
  refine ⟨fun n => toF64_isNearest, fun n => valueOf_toF64, fun x _ => fTrunc_eq_floor, fun s => ?_, fun sr ms => ?_⟩
  · exact ⟨Nat.le_pred_of_lt s.trem.count.isLt, Nat.le_pred_of_lt s.env.elapsed.isLt⟩
  · exact (countOf_le _).trans (by decide)
end

section
/-!
The decoder of 30_encoding read as arithmetic: the fields of a header as quotients and remainders (R65 to R68, R72), and the
decoder's answer at each of the checks of R77.
-/

namespace Sys2Proof.Encoding

variable {f : Frame} {n : Nat}

/-! ### Header fields as numbers (R65 to R68) -/

theorem frameWord_zero (f : Frame) : frameWord f 0 = f.headD 0 := by cases f <;> rfl

theorem toNat_extractLsb'_eq_div (h : Word) (lo len : Nat) : (h.extractLsb' lo len).toNat = h.toNat / 2 ^ lo % 2 ^ len := by
  rw [BitVec.extractLsb'_toNat, Nat.shiftRight_eq_div_pow]

theorem toNat_opcodeOf (h : Word) : (opcodeOf h).toNat = h.toNat % 4 := by
  simp only [opcodeOf, toNat_extractLsb'_eq_div, pow_zero, Nat.div_one, Nat.reducePow]

theorem opcodeOf_eq_iff {h : Word} {op : BitVec 2} : opcodeOf h = op ↔ h.toNat % 4 = op.toNat := by
  rw [← BitVec.toNat_inj, toNat_opcodeOf]

/-- The reserved opcode has no format; PROC frames have 14 words, INIT and RESET frames two (R74, R75 (a)). -/
theorem formatWords_opcodeOf (h : Word) :
    formatWords (opcodeOf h) = if h.toNat % 4 = 3 then none else some (if h.toNat % 4 = 2 then 14 else 2) := by
  have hcodes : ∀ op, formatWords op = if op.toNat = 3 then none else some (if op.toNat = 2 then 14 else 2) := by decide
  rw [hcodes, toNat_opcodeOf]

/-- A format's length is one of the two that pass the first check (R77). -/
theorem formatWords_eq_some {op : BitVec 2} (h : formatWords op = some n) : n = 2 ∨ n = 14 := by
  have hcodes : ∀ op, ∀ k ∈ formatWords op, k = 2 ∨ k = 14 := by decide
  exact hcodes op n h

/-! ### Reserved bits (R75 (b)) -/

/-- The mask of the `len` header bits from bit `lo` up. -/
def fieldMask (lo len : Nat) : Word := (BitVec.allOnes len).setWidth 64 <<< lo

theorem getLsbD_fieldMask {lo len j : Nat} (hlen : lo + len ≤ 64) :
    (fieldMask lo len).getLsbD j = decide (lo ≤ j ∧ j < lo + len) := by
  rw [fieldMask, Bool.eq_iff_iff]
  simp
  omega

/-- A header is clear under a field's mask exactly when the field reads zero. -/
theorem and_fieldMask_eq_zero {h : Word} {lo len : Nat} (hlen : lo + len ≤ 64) :
    h &&& fieldMask lo len = 0 ↔ h.toNat / 2 ^ lo % 2 ^ len = 0 := by
  have hfield : h.extractLsb' lo len = 0 ↔ h.toNat / 2 ^ lo % 2 ^ len = 0 := by
    rw [← toNat_extractLsb'_eq_div, ← BitVec.toNat_inj]; rfl
  rw [← hfield]
  refine ⟨fun hz => BitVec.eq_of_getLsbD_eq fun j hj => ?_, fun hz => BitVec.eq_of_getLsbD_eq fun j _ => ?_⟩
  · have hbit := congrArg (·.getLsbD (lo + j)) hz
    simpa [getLsbD_fieldMask hlen, hj] using hbit
  · rw [BitVec.getLsbD_and, getLsbD_fieldMask hlen]
    by_cases hin : lo ≤ j ∧ j < lo + len
    · have hbit := congrArg (·.getLsbD (j - lo)) hz
      simpa [hin, Nat.sub_lt_left_of_lt_add hin.1 hin.2] using hbit
    · simp [hin]

/-- The reserved bits of a header, as numbers: all above the opcode for INIT, all but the bit depth for RESET, those from
bit 18 up for PROC (R66 to R68). -/
def ReservedClear (h : Nat) : Prop :=
  if h % 4 = 0 then h / 4 = 0 else if h % 4 = 1 then h / 4 % 64 = 0 ∧ h / 2 ^ 16 = 0 else h / 2 ^ 18 = 0

theorem reservedMask_opcodeOf (h : Word) : reservedMask (opcodeOf h) =
    if h.toNat % 4 = 0 then fieldMask 2 62
    else if h.toNat % 4 = 1 then fieldMask 2 6 ||| fieldMask 16 48 else fieldMask 18 46 := by
  have hcodes : ∀ op, reservedMask op = if op.toNat = 0 then fieldMask 2 62
      else if op.toNat = 1 then fieldMask 2 6 ||| fieldMask 16 48 else fieldMask 18 46 := by decide
  rw [hcodes, toNat_opcodeOf]

theorem and_reservedMask_eq_zero (h : Word) : h &&& reservedMask (opcodeOf h) = 0 ↔ ReservedClear h.toNat := by
  have hlt := h.isLt
  rw [reservedMask_opcodeOf, ReservedClear]
  split_ifs
  · rw [and_fieldMask_eq_zero (by decide)]; omega
  · have hlow := and_fieldMask_eq_zero (h := h) (lo := 2) (len := 6) (by decide)
    have hhigh := and_fieldMask_eq_zero (h := h) (lo := 16) (len := 48) (by decide)
    rw [BitVec.and_or_distrib_left]
    refine BitVec.or_eq_zero_iff.trans ((and_congr hlow hhigh).trans ?_)
    omega
  · rw [and_fieldMask_eq_zero (by decide)]; omega

/-! ### Waveform codes (R72, R75 (c)) -/

/-- The three waveform fields of a header, as numbers, hold defined codes. -/
def WavesOk (h : Nat) : Prop := h / 2 ^ 4 % 8 < 5 ∧ h / 2 ^ 8 % 8 < 5 ∧ h / 2 ^ 12 % 8 < 5

theorem exists_waveOfCode_iff {c : BitVec 3} : (∃ w, waveOfCode c = some w) ↔ c.toNat < 5 := by
  rw [← Option.ne_none_iff_exists', ne_eq, waveOfCode_eq_none, not_le]

theorem wavesOk_iff {h : Word} : WavesOk h.toNat ↔
    (∃ w1, waveOfCode (o1waveOf h) = some w1) ∧ (∃ w2, waveOfCode (o2waveOf h) = some w2) ∧
      ∃ wl, waveOfCode (lfowaveOf h) = some wl := by
  simp only [exists_waveOfCode_iff, o1waveOf, o2waveOf, lfowaveOf, toNat_extractLsb'_eq_div, WavesOk, Nat.reducePow]

/-! ### The decoder's answer, check by check (R77) -/

theorem decode_of_unknown_length (h : f.length ≠ 2 ∧ f.length ≠ 14) : decode f = .error .badLength := if_pos h

theorem decode_of_no_format (hlen : f.length = 2 ∨ f.length = 14)
    (hop : formatWords (opcodeOf (frameWord f 0)) = none) : decode f = .error .badOpcode := by
  rw [decode, if_neg (by omega), hop]

theorem decode_of_wrong_format (hlen : f.length = 2 ∨ f.length = 14)
    (hop : formatWords (opcodeOf (frameWord f 0)) = some n) (h : f.length ≠ n) : decode f = .error .badLength := by
  rw [decode, if_neg (by omega), hop]
  exact if_pos h

/-- A frame of its format's length: the reserved bits decide, and then the fields. -/
theorem decode_of_format (hop : formatWords (opcodeOf (frameWord f 0)) = some f.length) :
    decode f = if frameWord f 0 &&& reservedMask (opcodeOf (frameWord f 0)) ≠ 0 then .error .reservedBits
      else decodeFields (opcodeOf (frameWord f 0)) f := by
  have hlen := formatWords_eq_some hop
  rw [decode, if_neg (by omega), hop]
  exact if_neg (not_not.2 rfl)

theorem decode_of_reserved (hop : formatWords (opcodeOf (frameWord f 0)) = some f.length)
    (h : ¬ReservedClear (frameWord f 0).toNat) : decode f = .error .reservedBits := by
  rw [decode_of_format hop, if_pos (mt (and_reservedMask_eq_zero _).1 h)]

theorem decode_of_reservedClear (hop : formatWords (opcodeOf (frameWord f 0)) = some f.length)
    (h : ReservedClear (frameWord f 0).toNat) : decode f = decodeFields (opcodeOf (frameWord f 0)) f := by
  rw [decode_of_format hop, if_neg (not_not.2 ((and_reservedMask_eq_zero _).2 h))]

/-- A PROC frame with an undefined waveform code is refused for it. -/
theorem decodeFields_of_not_wavesOk (h : ¬WavesOk (frameWord f 0).toNat) : decodeFields 0b10 f = .error .badWaveform := by
  rw [decodeFields, if_neg (by decide), if_neg (by decide)]
  split
  · next hw1 hw2 hwl => exact absurd (wavesOk_iff.2 ⟨⟨_, hw1⟩, ⟨_, hw2⟩, ⟨_, hwl⟩⟩) h
  · rfl

/-- A PROC frame with defined waveform codes gives its snapshot. -/
theorem decodeFields_of_wavesOk (h : WavesOk (frameWord f 0).toNat) :
    ∃ w1 w2 wl, decodeFields 0b10 f = .ok (.proc (snapshotOf f w1 w2 wl)) := by
  obtain ⟨⟨w1, hw1⟩, ⟨w2, hw2⟩, wl, hwl⟩ := wavesOk_iff.1 h
  refine ⟨w1, w2, wl, ?_⟩
  rw [decodeFields, if_neg (by decide), if_neg (by decide), hw1, hw2, hwl]

/-- The fields of an opcode in use give a command unless a PROC's waveform codes are undefined. -/
theorem decodeFields_isCommand (hop : (frameWord f 0).toNat % 4 ≠ 3)
    (hwaves : (frameWord f 0).toNat % 4 = 2 → WavesOk (frameWord f 0).toNat) :
    ∃ i, decodeFields (opcodeOf (frameWord f 0)) f = .ok i ∧ i.wellFormed = true := by
  obtain h0 | h1 | h2 : (frameWord f 0).toNat % 4 = 0 ∨ (frameWord f 0).toNat % 4 = 1 ∨ (frameWord f 0).toNat % 4 = 2 := by
    omega
  · rw [(opcodeOf_eq_iff (op := 0b00)).2 h0]; exact ⟨_, rfl, rfl⟩
  · rw [(opcodeOf_eq_iff (op := 0b01)).2 h1]; exact ⟨_, rfl, rfl⟩
  · obtain ⟨w1, w2, wl, hproc⟩ := decodeFields_of_wavesOk (hwaves h2)
    rw [(opcodeOf_eq_iff (op := 0b10)).2 h2]; exact ⟨_, hproc, rfl⟩

end Sys2Proof.Encoding

open Sys2Proof Sys2Proof.Encoding

/-- Settles O2: the opcode fixes the format, and each clause of the statement is the branch of one check, in R77's order. -/
theorem decoderChecksInOrder : Obligations.DecoderChecksInOrder := by
  intro f
  rw [← frameWord_zero]
  have hcode := formatWords_opcodeOf (frameWord f 0)
  have hfits (hop : (frameWord f 0).toNat % 4 ≠ 3) (hlen : f.length = if (frameWord f 0).toNat % 4 = 2 then 14 else 2) :
      formatWords (opcodeOf (frameWord f 0)) = some f.length := by
    rw [hcode, if_neg hop, hlen]
  refine ⟨decode_of_unknown_length, fun hlen hop => ?_, fun hlen hop => ?_, fun hop hlen => ?_, fun hop hlen hres hwaves => ?_,
    fun hop hlen hres hwaves => ?_⟩
  · exact decode_of_no_format hlen (hcode.trans (if_pos hop))
  · exact decode_of_wrong_format hlen (hcode.trans (if_neg hop))
  · exact decode_of_reserved (hfits hop hlen)
  · rw [decode_of_reservedClear (hfits (by omega) hlen) hres, (opcodeOf_eq_iff (op := 0b10)).2 hop]
    exact decodeFields_of_not_wavesOk hwaves
  · rw [decode_of_reservedClear (hfits hop hlen) hres]
    exact decodeFields_isCommand hop hwaves
end

section
/-!
The tremolo modulator of 42_tremolo: the LFO step left out in vibrato mode (R118) and the counter's cycle (R113).
-/

namespace Sys2Proof.Tremolo

open Sys2Proof.Machine Sys2Proof.Safety

variable (c : Config) (p q : Snapshot) (s : State)

/-! ### The latched snapshot is written and not read (R40, R176) -/

theorem latch_latch : latch p (latch q s) = latch p s := rfl

theorem runGen_latch (o : Osc) (w : Waveform) (f a : F64) :
    runGen c o w f a (latch q s) = latch q (runGen c o w f a s) := by cases o <;> rfl

theorem oscSteps_latch : oscSteps c p (latch q s) = latch q (oscSteps c p s) := by
  cases hmute : p.mute
  · cases h1 : p.osc1En <;> cases h2 : p.osc2En <;> simp only [oscSteps, hmute, h1, h2, runGen_latch, ↓reduceIte] <;> rfl
  · simp only [oscSteps, hmute, ↓reduceIte]; rfl

theorem mixStep_latch : mixStep (latch q s) = latch q (mixStep s) := rfl

theorem filtStep_latch : filtStep c p (latch q s) = latch q (filtStep c p s) := by
  cases h : p.filtEn
  · rw [filtStep_off c p _ h, filtStep_off c p _ h]
  · rw [filtStep_on c p _ h, filtStep_on c p _ h]; rfl

theorem envStep_latch : envStep c p (latch q s) = latch q (envStep c p s) := by
  cases h : p.envEn
  · rw [envStep_off c p _ h, envStep_off c p _ h]; rfl
  · rw [envStep_on c p _ h, envStep_on c p _ h]; rfl

theorem outStep_latch : outStep c p (latch q s) = latch q (outStep c p s) := rfl

/-! ### Vibrato mode (R118) -/

/-- With the LFO disabled or in vibrato mode the body is its other steps, and the latch may come last. -/
theorem frameBody_of_lfo_off (h : p.lfoEn = false ∨ p.lfoMode = .vibrato) :
    frameBody c p s = latch p (outStep c p (envStep c p (filtStep c p (mixStep (oscSteps c p s))))) := by
  rw [frameBody, lfoStep_off c p _ h, oscSteps_latch, mixStep_latch, filtStep_latch, envStep_latch, outStep_latch]

/-- A snapshot with its LFO disabled and its other LFO fields replaced (R116). -/
def withLfoDisabled (p : Snapshot) (w : Waveform) (f d : F64) : Snapshot :=
  { p with lfoEn := false, lfoMode := .tremolo, lfoWave := w, lfoFreq := f, lfoDepth := d }

/-- In vibrato mode the body is that of the disabled LFO: the other steps read none of the LFO fields. -/
theorem frameBody_vibrato (w : Waveform) (f d : F64) (h : p.lfoMode = .vibrato) :
    frameBody c p s = latch p (frameBody c (withLfoDisabled p w f d) s) := by
  rw [frameBody_of_lfo_off c p s (.inr h), frameBody_of_lfo_off c (withLfoDisabled p w f d) s (.inl rfl), latch_latch]
  rfl

/-- The non-finite check does not read the snapshot (R186 line 9). -/
theorem checkFinite_latch : outcomesAgree (fun t u => t = latch p u) (checkFinite (latch p s)) (checkFinite s) := by
  have hcheck : nonFinite (latch p s) = nonFinite s := rfl
  rw [checkFinite, checkFinite, hcheck]
  cases nonFinite s <;> rfl

theorem execProc_vibrato (w : Waveform) (f d : F64) (h : p.lfoMode = .vibrato) :
    outcomesAgree (fun t u => t = latch p u) (execProc p s) (execProc (withLfoDisabled p w f d) s) := by
  rw [execProc, execProc, frameBody_vibrato hw p s w f d h]
  cases s.inited
  · rfl
  · exact checkFinite_latch p (respond _ (frameBody hw (withLfoDisabled p w f d) s))

/-- A PROC that completes has run the body and responded with its output frame (R197, R70). -/
theorem execProc_next {t : State} (h : execProc p s = .next t) : t = respond (frameBody hw p s).out (frameBody hw p s) := by
  obtain ⟨_, hproc⟩ | ⟨_, hproc⟩ | ⟨_, hproc, _⟩ := execProc_cases p s <;> cases hproc.symm.trans h
  rfl

/-- A PROC in vibrato mode holds the LFO's phase and the tremolo registers. -/
theorem execProc_vibrato_holds {t : State} (hmode : p.lfoMode = .vibrato) (h : execProc p s = .next t) :
    t.osc.lfo = s.osc.lfo ∧ t.trem = s.trem := by
  rw [execProc_next p s h]
  simp [frameBody_osc, frameBody_trem, hmode]

/-! ### The counter (R113) -/

theorem hw_tremPeriod_pos : 0 < hw.tremPeriod := Nat.succ_pos _

/-- The period fits the counter's 32 bits (R6). -/
theorem hw_tremPeriod_le : hw.tremPeriod ≤ 2 ^ 32 := Nat.mod_lt Open.tremPeriod (by decide)

/-- The counter's next value as an integer: where the period is not reached, one more still fits. -/
theorem toNat_tremCount (hperiod : c.tremPeriod ≤ 2 ^ 32) (n : BitVec 32) :
    (tremCount c n).toNat = if n.toNat + 1 ≥ c.tremPeriod then 0 else n.toNat + 1 := by
  unfold tremCount
  split_ifs with hreached
  · rfl
  · rw [BitVec.toNat_ofNat]
    exact Nat.mod_eq_of_lt (by omega)

/-- The counter stays below the period, whatever it was. -/
theorem toNat_tremCount_lt (hpos : 0 < c.tremPeriod) (hperiod : c.tremPeriod ≤ 2 ^ 32) (n : BitVec 32) :
    (tremCount c n).toNat < c.tremPeriod := by
  rw [toNat_tremCount c hperiod n]
  split_ifs with hreached
  · exact hpos
  · exact Nat.lt_of_not_le hreached

/-- INIT and RESET complete with the registers of R44 written and an empty response (R195). -/
theorem initWith_next {sr : F64} {t : State} (h : initWith sr s = .next t) : t = respond [] (resetRegs sr s) := by
  obtain ⟨_, hinit⟩ | ⟨_, hinit⟩ := initWith_cases s sr <;> cases hinit.symm.trans h
  rfl

end Sys2Proof.Tremolo

open Sys2Proof Sys2Proof.Machine Sys2Proof.Tremolo

/-- Settles O22: without the LFO step the body reads no LFO field, and the latched snapshot is carried along unread. -/
theorem vibratoIsDisabledLfo : Obligations.VibratoIsDisabledLfo := by
  intro p w f d s hmode
  exact ⟨execProc_vibrato p s w f d hmode, fun t ht => execProc_vibrato_holds p s hmode ht⟩

/-- Settles O37: a period of at most `2^32` leaves the 32-bit counter no overflow, and INIT writes 0 below a positive period. -/
theorem tremCounterCycles : Obligations.TremCounterCycles := by
  refine ⟨fun d s => ⟨runTrem hw d s, rfl, ?_⟩, fun sr s t h => ?_⟩
  · rw [runTrem_eq]
    exact ⟨toNat_tremCount hw hw_tremPeriod_le _, toNat_tremCount_lt hw hw_tremPeriod_pos hw_tremPeriod_le _⟩
  · rw [initWith_next s h]
    exact hw_tremPeriod_pos
end

section
/-!
The envelope of 44_envelope: the counter at its ceiling is past every stage (R148, R155), and a disabled envelope idles (R156).
-/

namespace Sys2Proof.Envelope

open Sys2Proof.Machine Sys2Proof.Scope

variable (c : Config) (att dec rel sus : F64) (s : State)

/-- Past the counts of Attack and Decay the stage is Release (R148). -/
theorem stageOf_eq_release {e a d : Nat} (v : F64) (h : a + d < e) : stageOf c e v sus a d = .release := by
  rw [stageOf, if_neg (by omega), if_neg (by omega)]

/-- At the counter's ceiling every time selects Release: two stage counts of at most `2^62` end before it (R147, R155). -/
theorem envStage_ceiling (h : s.env.elapsed.toNat = 2 ^ 64 - 1) : envStage c att dec sus s = .release := by
  have hatt : stageCount s.sampleRate att ≤ 2 ^ 62 := countOf_le _
  have hdec : stageCount s.sampleRate dec ≤ 2 ^ 62 := countOf_le _
  exact stageOf_eq_release c sus _ (by omega)

/-- A PROC that completes with the envelope disabled leaves it idle (R156, R182). -/
theorem execProc_env_off {p : Snapshot} {t : State} (hoff : p.envEn = false) (h : execProc p s = .next t) :
    t.env = { stage := .idle, elapsed := 0, level := 0 } := by
  rw [Tremolo.execProc_next p s h, respond_env, frameBody_env, hoff]
  rfl

end Sys2Proof.Envelope

open Sys2Proof Sys2Proof.Machine Sys2Proof.Envelope

/-- Settles O46: the minimum is below `2^64`, so the word holds it, and at the ceiling both stage counts have ended. -/
theorem elapsedSaturates : Obligations.ElapsedSaturates := by
  intro att dec rel sus s
  refine ⟨runEnv hw att dec rel sus s, rfl, ?_⟩
  rw [runEnv_eq, env_env]
  exact ⟨elapsedNext_toNat _, elapsedNext_ne_zero _, envStage_ceiling hw att dec sus s⟩

/-- Settles O47: the row is the write of the three registers, and the body with the envelope disabled takes it. -/
theorem idleRowCompletes : Obligations.IdleRowCompletes :=
  ⟨fun s => congrArg Host.Outcome.next (envIdle_eq s), fun _ s _ => execProc_env_off s⟩
end

section
/-!
The mute of 45_frame: steps 2 to 7 as one operation that a mute turns into that of two disabled oscillators (R177, R184).
-/

namespace Sys2Proof.Mute

open Sys2Proof.Machine Sys2Proof.Safety Sys2Proof.Tremolo

variable (c : Config) (p q : Snapshot) (s : State)

/-! ### Steps 2 to 7 (R177 to R182) -/

theorem lfoStep_latch : lfoStep c p (latch q s) = latch q (lfoStep c p s) := by
  cases hen : p.lfoEn
  · rw [lfoStep_off c p _ (.inl hen), lfoStep_off c p _ (.inl hen)]
  · cases hmode : p.lfoMode
    · rw [lfoStep_tremolo c p _ hen hmode, lfoStep_tremolo c p _ hen hmode]; rfl
    · rw [lfoStep_off c p _ (.inr hmode), lfoStep_off c p _ (.inr hmode)]

/-- Steps 2 to 7: what the body does between the latch and the output (R177 to R182). -/
def stepsTwoToSeven (c : Config) (p : Snapshot) (s : State) : State :=
  envStep c p (filtStep c p (lfoStep c p (mixStep (oscSteps c p s))))

/-- The body is steps 2 to 7 run on the state before it, the latch, and the output. -/
theorem frameBody_eq_stepsTwoToSeven : frameBody c p s = outStep c p (latch p (stepsTwoToSeven c p s)) := by
  rw [frameBody, oscSteps_latch, mixStep_latch, lfoStep_latch, filtStep_latch, envStep_latch, stepsTwoToSeven]

/-! ### Mute (R177, R184) -/

/-- The same command unmuted, with both oscillators disabled and the volume at `+0.0`. -/
def withOscillatorsDisabled (p : Snapshot) : Snapshot :=
  { p with mute := false, osc1En := false, osc2En := false, volume := 0 }

/-- Mute and two disabled oscillators both give `+0.0` samples and move no phase (R177, R178). -/
theorem oscSteps_mute (h : p.mute = true) : oscSteps c p s = oscSteps c (withOscillatorsDisabled p) s := by
  rw [oscSteps, if_pos h]; rfl

/-- The later steps read neither the mute, nor an oscillator's field, nor the volume. -/
theorem stepsTwoToSeven_mute (h : p.mute = true) :
    stepsTwoToSeven c p s = stepsTwoToSeven c (withOscillatorsDisabled p) s := by
  rw [stepsTwoToSeven, oscSteps_mute c p s h]; rfl

/-- The bodies agree on the persistent registers: the latch, the output and the response write none of them. -/
theorem samePersistent_frameBody_mute (h : p.mute = true) (r r' : List Word) :
    samePersistent (respond r (frameBody c p s)) (respond r' (frameBody c (withOscillatorsDisabled p) s)) := by
  rw [frameBody_eq_stepsTwoToSeven, frameBody_eq_stepsTwoToSeven, stepsTwoToSeven_mute c p s h]
  exact ⟨rfl, rfl, rfl, rfl, rfl, rfl⟩

/-- Under mute the output frame is `+0.0` on every channel (R184). -/
theorem frameBody_out_mute (h : p.mute = true) : (frameBody c p s).out = List.replicate c.nChannels 0 := by
  rw [frameBody, outStep_eq, if_pos h]

end Sys2Proof.Mute

open Sys2Proof Sys2Proof.Machine Sys2Proof.Tremolo Sys2Proof.Mute

/-- Settles O20: step 8 forces the output, and the two commands do the same in steps 2 to 7, which alone write the persistent
registers. -/
theorem muteForcesOutput : Obligations.MuteForcesOutput := by
  intro p s t hmute ht
  have hout := frameBody_out_mute hw p s hmute
  rw [execProc_next p s ht]
  refine ⟨hout, hout, fun u hu => ?_⟩
  rw [execProc_next (withOscillatorsDisabled p) s hu]
  exact samePersistent_frameBody_mute hw p s hmute _ _
end

section
/-!
INIT and RESET of 46_host_commands: which sample rates they refuse, and what they do with each of the others (R195, R196).
-/

namespace Sys2Proof.HostCommands

open Sys2Proof.Machine

variable {sr : F64} (s : State)

/-- The rates INIT and RESET accept (R195). -/
theorem badSampleRate_eq_false_iff : badSampleRate sr = false ↔ fGt sr 0 = true ∧ sr ≠ posInf := by
  simp [badSampleRate]

theorem initWith_accepted (h : fGt sr 0 = true ∧ sr ≠ posInf) :
    initWith sr s = .next (respond [] (resetRegs sr s)) := by
  obtain ⟨hbad, _⟩ | ⟨_, hnext⟩ := initWith_cases s sr
  · exact absurd (badSampleRate_eq_false_iff.mpr h) (by simp [hbad])
  · exact hnext

theorem initWith_rejected (h : ¬(fGt sr 0 = true ∧ sr ≠ posInf)) : initWith sr s = .refused .badSampleRate := by
  obtain ⟨_, hrefused⟩ | ⟨hgood, _⟩ := initWith_cases s sr
  · exact hrefused
  · exact absurd (badSampleRate_eq_false_iff.mp hgood) h

end Sys2Proof.HostCommands

open Sys2Proof Sys2Proof.Machine Sys2Proof.HostCommands

/-- Settles O12: INIT is `initWith`, which tests the rate and, when it accepts it, makes the writes of rule R44. -/
theorem initWritesEveryRegister : Obligations.InitWritesEveryRegister :=
  fun _ s => ⟨initWith_accepted s, initWith_rejected s⟩

/-- Settles O13: RESET and INIT are the one operation `initWith`, whose accepted case gives the state it completes in. -/
theorem resetIsInit : Obligations.ResetIsInit := by
  intro bd sr s
  refine ⟨rfl, fun h => ⟨respond [] (resetRegs sr s), initWith_accepted s h, ?_⟩⟩
  simp
end

section
/-!
Both directions between frames and commands (30_encoding sections 1 to 3): the decoder's acceptance as three conditions on the
frame, and the header rebuilt from the fields it was read into.
-/

namespace Sys2Proof.RoundTrip

open Sys2Proof.Encoding

variable {f : Frame} {h : Word} {i : Instr}

/-! ### When the decoder accepts (R74, R75, R77) -/

/-- A frame is accepted when it has its format's length, its reserved bits are clear and its fields are defined. -/
theorem decode_eq_ok_iff : decode f = .ok i ↔
    formatWords (opcodeOf (frameWord f 0)) = some f.length ∧ ReservedClear (frameWord f 0).toNat ∧
      decodeFields (opcodeOf (frameWord f 0)) f = .ok i := by
  constructor
  · intro hok
    have hformat : formatWords (opcodeOf (frameWord f 0)) = some f.length := by
      by_cases hlen : f.length = 2 ∨ f.length = 14
      · cases hop : formatWords (opcodeOf (frameWord f 0)) with
        | none => rw [decode_of_no_format hlen hop] at hok; cases hok
        | some n =>
          by_cases hn : f.length = n
          · rw [hn]
          · rw [decode_of_wrong_format hlen hop hn] at hok; cases hok
      · rw [decode_of_unknown_length (not_or.1 hlen)] at hok; cases hok
    by_cases hres : ReservedClear (frameWord f 0).toNat
    · exact ⟨hformat, hres, decode_of_reservedClear hformat hres ▸ hok⟩
    · rw [decode_of_reserved hformat hres] at hok; cases hok
  · rintro ⟨hformat, hres, hfields⟩
    rw [decode_of_reservedClear hformat hres, hfields]

/-- The fields of an INIT, a RESET and a PROC frame; a PROC's waveforms are those its codes name (R66 to R69, R72). -/
theorem decodeFields_init : decodeFields 0b00 f = .ok (.init (frameWord f 1)) := rfl

theorem decodeFields_reset : decodeFields 0b01 f = .ok (.reset (bitDepthOf (frameWord f 0)) (frameWord f 1)) := rfl

theorem decodeFields_proc_iff : decodeFields 0b10 f = .ok i ↔
    ∃ w1 w2 wl, o1waveOf (frameWord f 0) = waveCode w1 ∧ o2waveOf (frameWord f 0) = waveCode w2 ∧
      lfowaveOf (frameWord f 0) = waveCode wl ∧ i = .proc (snapshotOf f w1 w2 wl) := by
  simp only [← waveOfCode_eq_some]
  rw [decodeFields, if_neg (by decide), if_neg (by decide)]
  split
  · next w1 w2 wl h1 h2 hl => simp [h1, h2, hl, eq_comm]
  · next hnone =>
    constructor
    · intro h; cases h
    · rintro ⟨w1, w2, wl, h1, h2, hl, -⟩
      exact (hnone w1 w2 wl h1 h2 hl).elim

/-! ### From a command to its frame and back (R66 to R69) -/

/-- The header of a RESET frame (R67). -/
def resetHeader (bitDepth : BitVec 8) : Word := 1#64 ||| (bitDepth.setWidth 64 <<< 8)

theorem toNat_resetHeader (bitDepth : BitVec 8) : (resetHeader bitDepth).toNat = bitDepth.toNat * 2 ^ 8 + 1 := by
  have hlt := bitDepth.isLt
  have hshift : (bitDepth.setWidth 64 <<< 8).toNat = 2 ^ 8 * bitDepth.toNat := by
    rw [BitVec.toNat_shiftLeft, BitVec.toNat_setWidth, Nat.shiftLeft_eq]
    omega
  rw [resetHeader, BitVec.toNat_or, hshift, Nat.or_comm, Nat.mul_comm bitDepth.toNat]
  exact (Nat.two_pow_add_eq_or_of_lt (show (1#64).toNat < 2 ^ 8 by decide) _).symm

theorem bitDepthOf_eq_iff {bitDepth : BitVec 8} : bitDepthOf h = bitDepth ↔ h.toNat / 2 ^ 8 % 2 ^ 8 = bitDepth.toNat := by
  rw [← BitVec.toNat_inj, bitDepthOf, toNat_extractLsb'_eq_div]

theorem decode_encode_init (sr : F64) : decode (encode (.init sr)) = .ok (.init sr) :=
  decode_eq_ok_iff.2 ⟨rfl, by simp [ReservedClear, frameWord, encode], rfl⟩

theorem decode_encode_reset (bitDepth : BitVec 8) (sr : F64) :
    decode (encode (.reset bitDepth sr)) = .ok (.reset bitDepth sr) := by
  have hlt := bitDepth.isLt
  have hnat := toNat_resetHeader bitDepth
  have hop : opcodeOf (resetHeader bitDepth) = 0b01 := opcodeOf_eq_iff.2 (by rw [hnat]; simp; omega)
  refine decode_eq_ok_iff.2 ?_
  change formatWords (opcodeOf (resetHeader bitDepth)) = some 2 ∧ ReservedClear (resetHeader bitDepth).toNat ∧
    decodeFields (opcodeOf (resetHeader bitDepth)) [resetHeader bitDepth, sr] = _
  rw [hop, hnat, ReservedClear, if_neg (by omega), if_pos (by omega), decodeFields_reset]
  refine ⟨rfl, by omega, ?_⟩
  have hdepth : bitDepthOf (resetHeader bitDepth) = bitDepth := bitDepthOf_eq_iff.2 (by rw [hnat]; omega)
  exact congrArg (fun bd => Except.ok (Instr.reset bd sr)) hdepth

/-- The snapshot read back from a PROC frame (R68, R69). -/
theorem snapshotOf_encodeProc (p : Snapshot) : snapshotOf (encodeProc p) p.osc1Wave p.osc2Wave p.lfoWave = p := by
  simp [snapshotOf, frameWord, encodeProc]

theorem decode_encodeProc (p : Snapshot) : decode (encodeProc p) = .ok (.proc p) := by
  have hres : ReservedClear (procHeader p).toNat := by
    rw [← and_reservedMask_eq_zero, opcodeOf_procHeader]
    exact procHeader_reserved p
  refine decode_eq_ok_iff.2 ?_
  change formatWords (opcodeOf (procHeader p)) = some 14 ∧ ReservedClear (procHeader p).toNat ∧
    decodeFields (opcodeOf (procHeader p)) (encodeProc p) = _
  rw [opcodeOf_procHeader]
  refine ⟨rfl, hres, decodeFields_proc_iff.2 ⟨p.osc1Wave, p.osc2Wave, p.lfoWave, ?_⟩⟩
  exact ⟨o1waveOf_procHeader p, o2waveOf_procHeader p, lfowaveOf_procHeader p, by rw [snapshotOf_encodeProc]⟩

/-! ### From a frame to its command and back -/

/-- A frame of two words, one of fourteen, from its length. -/
theorem eq_words_of_length_two (hlen : f.length = 2) : f = [frameWord f 0, frameWord f 1] := by
  obtain ⟨a, b, rfl⟩ := List.length_eq_two.1 hlen
  rfl

theorem eq_words_of_length_fourteen (hlen : f.length = 14) : f = (List.range 14).map (frameWord f) := by
  apply List.ext_getElem
  · simp [hlen]
  · intro n hn _
    simp [frameWord, hn]

/-- An INIT header with its reserved bits clear is zero (R66). -/
theorem header_eq_zero (hop : opcodeOf h = 0b00) (hres : ReservedClear h.toNat) : h = 0 := by
  have hop' : h.toNat % 4 = 0 := opcodeOf_eq_iff.1 hop
  rw [ReservedClear, if_pos hop'] at hres
  apply BitVec.eq_of_toNat_eq
  rw [show (0 : Word).toNat = 0 from rfl]
  omega

/-- A RESET header with its reserved bits clear is rebuilt from its bit depth (R67). -/
theorem resetHeader_bitDepthOf (hop : opcodeOf h = 0b01) (hres : ReservedClear h.toNat) : resetHeader (bitDepthOf h) = h := by
  have hop' : h.toNat % 4 = 1 := opcodeOf_eq_iff.1 hop
  rw [ReservedClear, if_neg (by omega), if_pos hop'] at hres
  apply BitVec.eq_of_toNat_eq
  rw [toNat_resetHeader, bitDepthOf, toNat_extractLsb'_eq_div]
  omega

/-- A header bit of a field read as a bit of the field. -/
theorem getLsbD_of_field_eq {lo len : Nat} {c : BitVec len} (hc : h.extractLsb' lo len = c) {j : Nat} (hj : j < len) :
    h.getLsbD (lo + j) = c.getLsbD j := by
  simp [← hc, hj]

/-- The bits a PROC header's clear reserved field and its opcode fix (R65, R68). -/
theorem getLsbD_of_reservedClear (hop : opcodeOf h = 0b10) (hres : ReservedClear h.toNat) {j : Nat} (hj : 18 ≤ j) :
    h.getLsbD j = false := by
  have hop' : h.toNat % 4 = 2 := opcodeOf_eq_iff.1 hop
  rw [ReservedClear, if_neg (by omega), if_neg (by omega)] at hres
  rw [BitVec.getLsbD, Nat.testBit_lt_two_pow]
  calc h.toNat < 2 ^ 18 := by omega
    _ ≤ 2 ^ j := Nat.pow_le_pow_right (by decide) hj

/-- A PROC header with its reserved bits clear is rebuilt from the snapshot read from it (R68, R72). -/
theorem procHeader_snapshotOf {w1 w2 wl : Waveform} (hop : opcodeOf (frameWord f 0) = 0b10)
    (hres : ReservedClear (frameWord f 0).toNat) (h1 : o1waveOf (frameWord f 0) = waveCode w1)
    (h2 : o2waveOf (frameWord f 0) = waveCode w2) (hl : lfowaveOf (frameWord f 0) = waveCode wl) :
    procHeader (snapshotOf f w1 w2 wl) = frameWord f 0 := by
  have hmode (b : Bool) : modeCode (modeOfCode b) = b := by cases b <;> rfl
  apply BitVec.eq_of_getLsbD_eq
  intro j hj
  rw [getLsbD_procHeader _ hj]
  simp only [snapshotOf, hmode]
  rcases Nat.lt_or_ge j 18 with hlow | hhigh
  · have o0 := getLsbD_of_field_eq hop (j := 0) (by decide)
    have o1 := getLsbD_of_field_eq hop (j := 1) (by decide)
    have a0 := getLsbD_of_field_eq h1 (j := 0) (by decide)
    have a1 := getLsbD_of_field_eq h1 (j := 1) (by decide)
    have a2 := getLsbD_of_field_eq h1 (j := 2) (by decide)
    have b0 := getLsbD_of_field_eq h2 (j := 0) (by decide)
    have b1 := getLsbD_of_field_eq h2 (j := 1) (by decide)
    have b2 := getLsbD_of_field_eq h2 (j := 2) (by decide)
    have c0 := getLsbD_of_field_eq hl (j := 0) (by decide)
    have c1 := getLsbD_of_field_eq hl (j := 1) (by decide)
    have c2 := getLsbD_of_field_eq hl (j := 2) (by decide)
    simp only [Nat.reduceAdd] at o0 o1 a0 a1 a2 b0 b1 b2 c0 c1 c2
    interval_cases j <;> simp [-BitVec.getLsbD_eq_getElem, *]
  · have hbit (k : Nat) (hk : k < 18) : decide (k = j) = false := by simp; omega
    have hwave (w : Waveform) (k : Nat) (hk : k ≤ 12) : (waveCode w).getLsbD (j - k) = false :=
      getLsbD_waveCode w (by omega)
    rw [getLsbD_of_reservedClear hop hres hhigh]
    simp [hbit, hwave]
    omega

end Sys2Proof.RoundTrip

open Sys2Proof Sys2Proof.RoundTrip

/-- Settles O4: the header keeps every field apart, and each other operand has a word of its own. -/
theorem decodeEncodeCommand : Obligations.DecodeEncodeCommand := by
  intro i hi
  cases i with
  | init sr => exact decode_encode_init sr
  | reset bitDepth sr => exact decode_encode_reset bitDepth sr
  | proc p => exact decode_encodeProc p
  | _ => cases hi

/-- Settles O5: an accepted frame has its format's length, and its header is rebuilt from the fields read from it. -/
theorem encodeDecodeFrame : Obligations.EncodeDecodeFrame := by
  intro f i hok
  obtain ⟨hformat, hres, hfields⟩ := decode_eq_ok_iff.1 hok
  obtain hop | hop | hop | hop : opcodeOf (frameWord f 0) = 0b00 ∨ opcodeOf (frameWord f 0) = 0b01 ∨
      opcodeOf (frameWord f 0) = 0b10 ∨ opcodeOf (frameWord f 0) = 0b11 := by
    generalize opcodeOf (frameWord f 0) = op
    revert op; decide
  · rw [hop] at hformat hfields
    have hlen : f.length = 2 := (Option.some.inj hformat).symm
    rw [decodeFields_init] at hfields
    obtain rfl := Except.ok.inj hfields
    rw [encode, ← header_eq_zero hop hres, ← eq_words_of_length_two hlen]
  · rw [hop] at hformat hfields
    have hlen : f.length = 2 := (Option.some.inj hformat).symm
    rw [decodeFields_reset] at hfields
    obtain rfl := Except.ok.inj hfields
    have hheader := resetHeader_bitDepthOf hop hres
    rw [resetHeader] at hheader
    exact (congrArg (fun h => [h, frameWord f 1]) hheader).trans (eq_words_of_length_two hlen).symm
  · rw [hop] at hformat hfields
    have hlen : f.length = 14 := (Option.some.inj hformat).symm
    rw [decodeFields_proc_iff] at hfields
    obtain ⟨w1, w2, wl, h1, h2, hl, rfl⟩ := hfields
    rw [encode, encodeProc, procHeader_snapshotOf hop hres h1 h2 hl]
    exact (eq_words_of_length_fourteen hlen).symm
  · rw [hop] at hformat; cases hformat
end

section
/-!
The opcode map and the opcode table (30_encoding sections 3 and 4): the map's rows as conditions on the header's fields, the
rows a PROC selects and the ones its header matches, and a table word's numbering of a frame.
-/

namespace Sys2Proof.OpcodeTable

open Sys2Proof.Encoding Sys2Proof.RoundTrip

variable {f : Frame} {h : Word}

/-! ### The opcode map (R74) -/

/-- A mask of two disjoint parts matches where each part does. -/
theorem and_or_eq_iff {a b x : Word} (hab : a &&& b = 0) (hxa : x &&& a = x) :
    h &&& (a ||| b) = x ↔ h &&& a = x ∧ h &&& b = 0 := by
  have hxb : x &&& b = 0 := by rw [← hxa, BitVec.and_assoc, hab]; exact BitVec.and_zero
  have hleft : h &&& (a ||| b) &&& a = h &&& a := by ext j; simp; grind
  have hright : h &&& (a ||| b) &&& b = h &&& b := by ext j; simp; grind
  constructor
  · intro hx
    rw [← hleft, ← hright, hx]
    exact ⟨hxa, hxb⟩
  · rintro ⟨ha, hb⟩
    rw [BitVec.and_or_distrib_left, ha, hb]
    exact BitVec.or_zero

theorem and_opcodeMask_eq_iff {op : BitVec 2} : h &&& fieldMask 0 2 = op.setWidth 64 ↔ opcodeOf h = op := by
  have hmask : h &&& fieldMask 0 2 = (opcodeOf h).setWidth 64 := by
    apply BitVec.eq_of_getLsbD_eq
    intro j hj
    rw [BitVec.getLsbD_and, getLsbD_fieldMask (by decide), opcodeOf]
    simp; grind
  rw [hmask]
  exact ⟨fun heq => by simpa using congrArg (·.setWidth 2) heq, fun heq => by rw [heq]⟩

/-- A row whose mask covers the opcode and its format's reserved bits fits the frames of its length with that opcode and those
bits clear. -/
theorem fits_iff {r : CommandRow} (op : BitVec 2) (hpattern : r.pattern = op.setWidth 64)
    (hmask : r.mask = fieldMask 0 2 ||| reservedMask op) :
    r.fits f = true ↔ f.length = r.words ∧ opcodeOf (frameWord f 0) = op ∧ frameWord f 0 &&& reservedMask op = 0 := by
  have hdisjoint : ∀ op, fieldMask 0 2 &&& reservedMask op = 0 := by decide
  have hcovered : ∀ op : BitVec 2, op.setWidth 64 &&& fieldMask 0 2 = op.setWidth 64 := by decide
  rw [CommandRow.fits, ← frameWord_zero, hpattern, hmask, Bool.and_eq_true, beq_iff_eq, beq_iff_eq,
    and_or_eq_iff (hdisjoint op) (hcovered op), and_opcodeMask_eq_iff]

theorem waveCodesOk_iff : waveCodesOk h = true ↔ WavesOk h.toNat := by
  simp [waveCodesOk, WavesOk, Nat.shiftRight_eq_div_pow, and_assoc]

/-- A well-formed frame, by its opcode: the length and the reserved bits of the format, and the codes of a PROC. -/
theorem wellFormed_iff : f.wellFormed = true ↔
    formatWords (opcodeOf (frameWord f 0)) = some f.length ∧ ReservedClear (frameWord f 0).toNat ∧
      (opcodeOf (frameWord f 0) = 0b10 → WavesOk (frameWord f 0).toNat) := by
  rw [Frame.wellFormed, Bool.or_eq_true, Bool.or_eq_true, Bool.and_eq_true, fits_iff 0b00 rfl (by decide),
    fits_iff 0b01 rfl (by decide), fits_iff 0b10 rfl (by decide), ← frameWord_zero, waveCodesOk_iff,
    ← and_reservedMask_eq_zero]
  have hcases : ∀ op : BitVec 2, op = 0b00 ∨ op = 0b01 ∨ op = 0b10 ∨ op = 0b11 := by decide
  rcases hcases (opcodeOf (frameWord f 0)) with hop | hop | hop | hop <;> rw [hop] <;>
    simp [formatWords, initRow, resetRow, procRow, eq_comm, and_assoc]

/-- The decoder answers a command where the frame's opcode, length, reserved bits and codes allow one. -/
theorem exists_decode_ok_iff : (∃ i, decode f = .ok i) ↔
    formatWords (opcodeOf (frameWord f 0)) = some f.length ∧ ReservedClear (frameWord f 0).toNat ∧
      (opcodeOf (frameWord f 0) = 0b10 → WavesOk (frameWord f 0).toNat) := by
  simp only [decode_eq_ok_iff, exists_and_left]
  refine and_congr_right fun hformat => and_congr_right fun _ => ⟨fun ⟨i, hi⟩ hop => ?_, fun hwaves => ?_⟩
  · by_contra hbad
    rw [hop, decodeFields_of_not_wavesOk hbad] at hi
    cases hi
  · have hop : (frameWord f 0).toNat % 4 ≠ 3 := by
      intro h3
      rw [(opcodeOf_eq_iff (op := 0b11)).2 h3] at hformat
      cases hformat
    obtain ⟨i, hi, _⟩ := decodeFields_isCommand hop fun h2 => hwaves (opcodeOf_eq_iff.2 h2)
    exact ⟨i, hi⟩

/-! ### The rows a PROC selects (section 3) -/

section selection
variable (p : Snapshot) (w : Waveform) (x y : F64)

theorem exists_mem_selectedOsc {P : Instr → Prop} : (∃ j ∈ selectedOsc p, P j) ↔
    (p.mute = true ∧ P .frameMute) ∨
      (p.mute = false ∧ p.osc1En = true ∧ P (genOsc1 p.osc1Wave p.osc1Freq p.osc1Amp)) ∨
        (p.mute = false ∧ p.osc2En = true ∧ P (genOsc2 p.osc2Wave p.osc2Freq p.osc2Amp)) := by
  unfold selectedOsc
  cases p.mute <;> cases p.osc1En <;> cases p.osc2En <;> simp

theorem exists_mem_selectedLfo {P : Instr → Prop} : (∃ j ∈ selectedLfo p, P j) ↔
    (p.lfoEn = true ∧ p.lfoMode = .tremolo ∧ (P (genLfo p.lfoWave p.lfoFreq) ∨ P (.trem p.lfoDepth))) ∨
      (p.lfoEn = true ∧ p.lfoMode = .vibrato ∧ P .lfoVibrato) ∨ (p.lfoEn = false ∧ P .lfoOff) := by
  unfold selectedLfo
  cases p.lfoEn <;> cases p.lfoMode <;> simp

theorem exists_mem_selectedFilt {P : Instr → Prop} : (∃ j ∈ selectedFilt p, P j) ↔
    (p.filtEn = true ∧ P (.filt p.lowCut p.highCut)) ∨ (p.filtEn = false ∧ P .filtOff) := by
  unfold selectedFilt
  cases p.filtEn <;> simp

theorem exists_mem_selectedEnv {P : Instr → Prop} : (∃ j ∈ selectedEnv p, P j) ↔
    (p.envEn = true ∧ P (.env p.attackMs p.decayMs p.releaseMs p.sustain)) ∨ (p.envEn = false ∧ P .envIdle) := by
  unfold selectedEnv
  cases p.envEn <;> simp

theorem exists_mem_selected {P : Instr → Prop} : (∃ j ∈ selected p, P j) ↔
    P (.frame p) ∨ (∃ j ∈ selectedOsc p, P j) ∨ (∃ j ∈ selectedLfo p, P j) ∨ (∃ j ∈ selectedFilt p, P j) ∨
      ∃ j ∈ selectedEnv p, P j := by
  simp [selected, or_and_right, exists_or]

/-! ### The header a row's mask leaves -/

/-- A mask keeps a flag or clears it, and keeps the waveform's bits it covers. -/
theorem flagAt_and (b : Bool) (k : Nat) (m : Word) : flagAt b k &&& m = flagAt (b && m.getLsbD k) k := by
  apply BitVec.eq_of_getLsbD_eq
  intro j hj
  rw [BitVec.getLsbD_and, getLsbD_flagAt _ _ hj, getLsbD_flagAt _ _ hj]
  by_cases hkj : k = j
  · subst hkj; simp
  · simp [hkj]

/-- A three-bit code at a header position. -/
def codeAt (c : BitVec 3) (k : Nat) : Word := c.setWidth 64 <<< k

theorem waveAt_and (k : Nat) (m : Word) : waveAt w k &&& m = codeAt (waveCode w &&& m.extractLsb' k 3) k := by
  apply BitVec.eq_of_getLsbD_eq
  intro j hj
  simp [waveAt, codeAt, hj]
  grind

theorem waveCode_injective : Function.Injective waveCode := by
  intro w w' hw
  have h := waveOfCode_waveCode w
  rw [hw, waveOfCode_waveCode] at h
  exact (Option.some.inj h).symm

@[simp] theorem flagAt_false (k : Nat) : flagAt false k = 0#64 := rfl

@[simp] theorem codeAt_zero (k : Nat) : codeAt 0#3 k = 0#64 := by simp [codeAt]

@[simp] theorem and_seven (c : BitVec 3) : c &&& 7#3 = c := BitVec.and_allOnes

/-- A PROC header under a mask: each field is kept or cleared (R68). -/
theorem procHeader_and (m : Word) : procHeader p &&& m =
    (0b10 &&& m) ||| flagAt (p.mute && m.getLsbD 2) 2 ||| flagAt (p.osc1En && m.getLsbD 3) 3
      ||| codeAt (waveCode p.osc1Wave &&& m.extractLsb' 4 3) 4 ||| flagAt (p.osc2En && m.getLsbD 7) 7
      ||| codeAt (waveCode p.osc2Wave &&& m.extractLsb' 8 3) 8 ||| flagAt (p.lfoEn && m.getLsbD 11) 11
      ||| codeAt (waveCode p.lfoWave &&& m.extractLsb' 12 3) 12 ||| flagAt (modeCode p.lfoMode && m.getLsbD 15) 15
      ||| flagAt (p.filtEn && m.getLsbD 16) 16 ||| flagAt (p.envEn && m.getLsbD 17) 17 := by
  have hand (a b : Word) : (a ||| b) &&& m = (a &&& m) ||| (b &&& m) := by ext j; simp; grind
  simp only [procHeader, hand, flagAt_and, waveAt_and]

/-! ### The rows a PROC header matches -/

theorem rowMatches_iff {i : Instr} {pattern mask : Word} (hrow : rowPattern i = (pattern, mask)) :
    rowMatches i h = true ↔ h &&& mask = pattern := by
  rw [rowMatches, hrow, beq_iff_eq]

theorem rowPattern_genOsc1 : rowPattern (genOsc1 w x y) = (0xA ||| codeAt (waveCode w) 4, 0xFFFFFFFFFFFC007F) := by
  cases w <;> rfl

theorem rowPattern_genOsc2 : rowPattern (genOsc2 w x y) = (0x82 ||| codeAt (waveCode w) 8, 0xFFFFFFFFFFFC0787) := by
  cases w <;> rfl

theorem rowPattern_genLfo : rowPattern (genLfo w x) = (0x802 ||| codeAt (waveCode w) 12, 0xFFFFFFFFFFFCF803) := by
  cases w <;> rfl

theorem rowMatches_genOsc1 : rowMatches (genOsc1 w x y) (procHeader p) = true ↔
    p.mute = false ∧ p.osc1En = true ∧ p.osc1Wave = w := by
  have hfields : ∀ (mute en : Bool) (c c' : BitVec 3),
      0b10 ||| flagAt mute 2 ||| flagAt en 3 ||| codeAt c 4 = 0xA ||| codeAt c' 4 ↔
        mute = false ∧ en = true ∧ c = c' := by decide +kernel
  rw [rowMatches_iff (rowPattern_genOsc1 w x y), procHeader_and, ← waveCode_injective.eq_iff, ← hfields]
  simp

theorem rowMatches_genOsc2 : rowMatches (genOsc2 w x y) (procHeader p) = true ↔
    p.mute = false ∧ p.osc2En = true ∧ p.osc2Wave = w := by
  have hfields : ∀ (mute en : Bool) (c c' : BitVec 3),
      0b10 ||| flagAt mute 2 ||| flagAt en 7 ||| codeAt c 8 = 0x82 ||| codeAt c' 8 ↔
        mute = false ∧ en = true ∧ c = c' := by decide +kernel
  rw [rowMatches_iff (rowPattern_genOsc2 w x y), procHeader_and, ← waveCode_injective.eq_iff, ← hfields]
  simp

theorem modeCode_eq_false_iff (mode : LfoMode) : modeCode mode = false ↔ mode = .tremolo := by cases mode <;> decide

theorem modeCode_eq_true_iff (mode : LfoMode) : modeCode mode = true ↔ mode = .vibrato := by cases mode <;> decide

theorem rowMatches_genLfo : rowMatches (genLfo w x) (procHeader p) = true ↔
    p.lfoEn = true ∧ p.lfoMode = .tremolo ∧ p.lfoWave = w := by
  have hfields : ∀ (en mode : Bool) (c c' : BitVec 3),
      0b10 ||| flagAt en 11 ||| codeAt c 12 ||| flagAt mode 15 = 0x802 ||| codeAt c' 12 ↔
        en = true ∧ mode = false ∧ c = c' := by decide +kernel
  rw [rowMatches_iff (rowPattern_genLfo w x), procHeader_and, ← waveCode_injective.eq_iff, ← modeCode_eq_false_iff, ← hfields]
  simp

theorem rowMatches_frame : rowMatches (.frame p) (procHeader p) = true := by
  rw [rowMatches_iff (i := .frame p) rfl, procHeader_and]
  simp

theorem rowMatches_frameMute : rowMatches .frameMute (procHeader p) = true ↔ p.mute = true := by
  have hfields : ∀ mute, 0b10 ||| flagAt mute 2 = 0x6 ↔ mute = true := by decide
  rw [rowMatches_iff (i := .frameMute) rfl, procHeader_and, ← hfields]
  simp

theorem rowMatches_trem : rowMatches (.trem x) (procHeader p) = true ↔ p.lfoEn = true ∧ p.lfoMode = .tremolo := by
  have hfields : ∀ en mode, 0b10 ||| flagAt en 11 ||| flagAt mode 15 = 0x802 ↔ en = true ∧ mode = false := by decide
  rw [rowMatches_iff (i := .trem x) rfl, procHeader_and, ← modeCode_eq_false_iff, ← hfields]
  simp

theorem rowMatches_lfoVibrato : rowMatches .lfoVibrato (procHeader p) = true ↔ p.lfoEn = true ∧ p.lfoMode = .vibrato := by
  have hfields : ∀ en mode, 0b10 ||| flagAt en 11 ||| flagAt mode 15 = 0x8802 ↔ en = true ∧ mode = true := by decide
  rw [rowMatches_iff (i := .lfoVibrato) rfl, procHeader_and, ← modeCode_eq_true_iff, ← hfields]
  simp

theorem rowMatches_lfoOff : rowMatches .lfoOff (procHeader p) = true ↔ p.lfoEn = false := by
  have hfields : ∀ en, 0b10 ||| flagAt en 11 = 0x2 ↔ en = false := by decide
  rw [rowMatches_iff (i := .lfoOff) rfl, procHeader_and, ← hfields]
  simp

theorem rowMatches_filt : rowMatches (.filt x y) (procHeader p) = true ↔ p.filtEn = true := by
  have hfields : ∀ en, 0b10 ||| flagAt en 16 = 0x10002 ↔ en = true := by decide
  rw [rowMatches_iff (i := .filt x y) rfl, procHeader_and, ← hfields]
  simp

theorem rowMatches_filtOff : rowMatches .filtOff (procHeader p) = true ↔ p.filtEn = false := by
  have hfields : ∀ en, 0b10 ||| flagAt en 16 = 0x2 ↔ en = false := by decide
  rw [rowMatches_iff (i := .filtOff) rfl, procHeader_and, ← hfields]
  simp

theorem rowMatches_env (a d : F64) : rowMatches (.env a d x y) (procHeader p) = true ↔ p.envEn = true := by
  have hfields : ∀ en, 0b10 ||| flagAt en 17 = 0x20002 ↔ en = true := by decide
  rw [rowMatches_iff (i := .env a d x y) rfl, procHeader_and, ← hfields]
  simp

theorem rowMatches_envIdle : rowMatches .envIdle (procHeader p) = true ↔ p.envEn = false := by
  have hfields : ∀ en, 0b10 ||| flagAt en 17 = 0x2 ↔ en = false := by decide
  rw [rowMatches_iff (i := .envIdle) rfl, procHeader_and, ← hfields]
  simp

/-- A row whose pattern leaves bit 1 of the opcode clear, under a mask that covers it, matches no PROC header. -/
theorem not_rowMatches {i : Instr} {pattern mask : Word} (hrow : rowPattern i = (pattern, mask))
    (hpattern : pattern.getLsbD 1 = false) (hmask : mask.getLsbD 1 = true) : ¬rowMatches i (procHeader p) = true := by
  intro hmatch
  have hbit := congrArg (·.getLsbD 1) ((rowMatches_iff hrow).1 hmatch)
  simp [-BitVec.getLsbD_eq_getElem, hpattern, hmask, getLsbD_procHeader p (show 1 < 64 by decide)] at hbit

/-! ### A row of the table is matched where the command selects it -/

/-- The patterns of the rows a command selects. -/
theorem exists_selected_pattern {row : Word × Word} : (∃ j ∈ selected p, rowPattern j = row) ↔
    (0x2, 0xFFFFFFFFFFFC0003) = row ∨
      ((p.mute = true ∧ (0x6, 0xFFFFFFFFFFFC0007) = row) ∨
        (p.mute = false ∧ p.osc1En = true ∧ (0xA ||| codeAt (waveCode p.osc1Wave) 4, 0xFFFFFFFFFFFC007F) = row) ∨
        (p.mute = false ∧ p.osc2En = true ∧ (0x82 ||| codeAt (waveCode p.osc2Wave) 8, 0xFFFFFFFFFFFC0787) = row)) ∨
      ((p.lfoEn = true ∧ p.lfoMode = .tremolo ∧
          ((0x802 ||| codeAt (waveCode p.lfoWave) 12, 0xFFFFFFFFFFFCF803) = row ∨ (0x802, 0xFFFFFFFFFFFC8803) = row)) ∨
        (p.lfoEn = true ∧ p.lfoMode = .vibrato ∧ (0x8802, 0xFFFFFFFFFFFC8803) = row) ∨
        (p.lfoEn = false ∧ (0x2, 0xFFFFFFFFFFFC0803) = row)) ∨
      ((p.filtEn = true ∧ (0x10002, 0xFFFFFFFFFFFD0003) = row) ∨ (p.filtEn = false ∧ (0x2, 0xFFFFFFFFFFFD0003) = row)) ∨
      (p.envEn = true ∧ (0x20002, 0xFFFFFFFFFFFE0003) = row) ∨ (p.envEn = false ∧ (0x2, 0xFFFFFFFFFFFE0003) = row) := by
  rw [exists_mem_selected, exists_mem_selectedOsc, exists_mem_selectedLfo, exists_mem_selectedFilt, exists_mem_selectedEnv,
    rowPattern_genOsc1, rowPattern_genOsc2, rowPattern_genLfo]
  exact Iff.rfl

/-- Rows of one oscillator have one pattern where they have one waveform. -/
@[simp] theorem or_codeAt4_inj (w w' : Waveform) :
    0xA#64 ||| codeAt (waveCode w) 4 = 0xA#64 ||| codeAt (waveCode w') 4 ↔ w = w' := by
  have hcodes : ∀ c c', 0xA#64 ||| codeAt c 4 = 0xA#64 ||| codeAt c' 4 ↔ c = c' := by decide +kernel
  rw [hcodes, waveCode_injective.eq_iff]

@[simp] theorem or_codeAt8_inj (w w' : Waveform) :
    0x82#64 ||| codeAt (waveCode w) 8 = 0x82#64 ||| codeAt (waveCode w') 8 ↔ w = w' := by
  have hcodes : ∀ c c', 0x82#64 ||| codeAt c 8 = 0x82#64 ||| codeAt c' 8 ↔ c = c' := by decide +kernel
  rw [hcodes, waveCode_injective.eq_iff]

@[simp] theorem or_codeAt12_inj (w w' : Waveform) :
    0x802#64 ||| codeAt (waveCode w) 12 = 0x802#64 ||| codeAt (waveCode w') 12 ↔ w = w' := by
  have hcodes : ∀ c c', 0x802#64 ||| codeAt c 12 = 0x802#64 ||| codeAt c' 12 ↔ c = c' := by decide +kernel
  rw [hcodes, waveCode_injective.eq_iff]

/-- The header matches a row exactly when a selected operation has the row's pattern. -/
def MatchesSelection (p : Snapshot) (i : Instr) : Prop :=
  rowMatches i (procHeader p) = true ↔ ∃ j ∈ selected p, rowPattern j = rowPattern i

theorem matchesSelection_genOsc1 : MatchesSelection p (genOsc1 w x y) := by
  rw [MatchesSelection, rowMatches_genOsc1, rowPattern_genOsc1, exists_selected_pattern]
  simp

theorem matchesSelection_genOsc2 : MatchesSelection p (genOsc2 w x y) := by
  rw [MatchesSelection, rowMatches_genOsc2, rowPattern_genOsc2, exists_selected_pattern]
  simp

theorem matchesSelection_genLfo : MatchesSelection p (genLfo w x) := by
  rw [MatchesSelection, rowMatches_genLfo, rowPattern_genLfo, exists_selected_pattern]
  simp

end selection

/-! ### A frame as one number (entry 13) -/

/-- The words of a frame as one number, the first word lowest. -/
def frameNumber (f : Frame) : Nat := f.foldr (fun w acc => w.toNat + 2 ^ 64 * acc) 0

theorem frameNumber_cons (w : Word) (f : Frame) : frameNumber (w :: f) = w.toNat + 2 ^ 64 * frameNumber f := rfl

theorem frameNumber_lt (f : Frame) : frameNumber f < 2 ^ (64 * f.length) := by
  induction f with
  | nil => exact Nat.one_pos
  | cons w f ih =>
    have hw := w.isLt
    rw [frameNumber_cons, List.length_cons, Nat.mul_add, pow_add, Nat.mul_one, Nat.mul_comm (2 ^ (64 * f.length))]
    omega

/-- Word `k` of a frame is the number shifted by `64 * k` bits. -/
theorem words_of_frameNumber (f : Frame) :
    (List.range f.length).map (fun k => BitVec.ofNat 64 (frameNumber f >>> (64 * k))) = f := by
  induction f with
  | nil => rfl
  | cons w f ih =>
    have hw := w.isLt
    have hfirst : BitVec.ofNat 64 (frameNumber (w :: f)) = w := by
      apply BitVec.eq_of_toNat_eq
      rw [BitVec.toNat_ofNat, frameNumber_cons]
      omega
    have hrest (k : Nat) : frameNumber (w :: f) >>> (64 * (k + 1)) = frameNumber f >>> (64 * k) := by
      rw [Nat.mul_add, Nat.add_comm, Nat.shiftRight_add, frameNumber_cons, Nat.mul_one,
        Nat.shiftRight_eq_div_pow _ 64]
      congr 1
      omega
    rw [List.length_cons, List.range_succ_eq_map, List.map_cons, List.map_map, Nat.mul_zero, Nat.shiftRight_zero, hfirst]
    congr 1
    simpa only [Function.comp_def, Nat.succ_eq_add_one, hrest] using ih

theorem ofNat_frameNumber (w : Word) (f : Frame) : BitVec.ofNat 2 (frameNumber (w :: f)) = opcodeOf w := by
  apply BitVec.eq_of_toNat_eq
  rw [toNat_opcodeOf, BitVec.toNat_ofNat, frameNumber_cons]
  omega

/-- A frame of its format's length is read back from its number. -/
theorem tableFrame_frameNumber (hformat : formatWords (opcodeOf (frameWord f 0)) = some f.length) :
    tableFrame (64 * f.length) (frameNumber f) = f := by
  cases f with
  | nil => exact absurd (formatWords_eq_some hformat) (by decide)
  | cons w f =>
    have hop : formatWords (BitVec.ofNat 2 (frameNumber (w :: f))) = some (w :: f).length := by
      rw [ofNat_frameNumber]; exact hformat
    have hwords : max ((64 * (w :: f).length + 63) / 64) (w :: f).length = (w :: f).length := by omega
    simp only [tableFrame, Nat.mod_eq_of_lt (frameNumber_lt (w :: f)), hop, Option.getD_some, hwords]
    exact words_of_frameNumber (w :: f)

theorem decodeTableWord_frameNumber {i : Instr} (hok : decode f = .ok i) :
    decodeTableWord (64 * f.length) (frameNumber f) = some i := by
  rw [decodeTableWord, tableFrame_frameNumber (decode_eq_ok_iff.1 hok).1, hok]

end Sys2Proof.OpcodeTable

open Sys2Proof Sys2Proof.RoundTrip Sys2Proof.OpcodeTable

/-- Settles O3: both sides are the same three conditions on the opcode, the reserved bits and the waveform codes. -/
theorem decoderAcceptsWellFormed : Obligations.DecoderAcceptsWellFormed := fun _ =>
  exists_decode_ok_iff.trans wellFormed_iff.symm

/-- Settles O6: the frame is that of a PROC whose snapshot enables the operation alone. -/
theorem operationFrameSelectsIt : Obligations.OperationFrameSelectsIt := by
  intro i hi
  cases i with
  | init => cases hi
  | reset => cases hi
  | proc => cases hi
  | _ =>
    refine ⟨_, decode_encodeProc _, ?_⟩
    simp [selected, selectedOsc, selectedLfo, selectedFilt, selectedEnv, genOsc1, genOsc2, genLfo, onlyOsc1, onlyOsc2,
      onlyLfo, Snapshot.blank]

/-- Settles O7: a row's mask leaves the header the fields its pattern tests, and no other selected row has that mask and
pattern. -/
theorem tableRowsMatchSelection : Obligations.TableRowsMatchSelection := by
  intro p i
  cases i with
  | init sr =>
    rw [exists_selected_pattern]
    simp [not_rowMatches p (i := .init sr) rfl (by decide) (by decide), rowPattern]
  | reset bitDepth sr =>
    rw [exists_selected_pattern]
    simp [not_rowMatches p (i := .reset bitDepth sr) rfl (by decide) (by decide), rowPattern]
  | proc q => rw [exists_selected_pattern]; exact iff_of_true (rowMatches_frame p) (.inl rfl)
  | frame q => rw [exists_selected_pattern]; exact iff_of_true (rowMatches_frame p) (.inl rfl)
  | frameMute => rw [rowMatches_frameMute, exists_selected_pattern]; simp [rowPattern]
  | genSineOsc1 f a => exact matchesSelection_genOsc1 p .sine f a
  | genSquareOsc1 f a => exact matchesSelection_genOsc1 p .square f a
  | genTriangleOsc1 f a => exact matchesSelection_genOsc1 p .triangle f a
  | genSawtoothOsc1 f a => exact matchesSelection_genOsc1 p .sawtooth f a
  | genSawtoothInverseOsc1 f a => exact matchesSelection_genOsc1 p .sawtoothInverse f a
  | genSineOsc2 f a => exact matchesSelection_genOsc2 p .sine f a
  | genSquareOsc2 f a => exact matchesSelection_genOsc2 p .square f a
  | genTriangleOsc2 f a => exact matchesSelection_genOsc2 p .triangle f a
  | genSawtoothOsc2 f a => exact matchesSelection_genOsc2 p .sawtooth f a
  | genSawtoothInverseOsc2 f a => exact matchesSelection_genOsc2 p .sawtoothInverse f a
  | genSineLfo f => exact matchesSelection_genLfo p .sine f
  | genSquareLfo f => exact matchesSelection_genLfo p .square f
  | genTriangleLfo f => exact matchesSelection_genLfo p .triangle f
  | genSawtoothLfo f => exact matchesSelection_genLfo p .sawtooth f
  | genSawtoothInverseLfo f => exact matchesSelection_genLfo p .sawtoothInverse f
  | trem d => rw [rowMatches_trem, exists_selected_pattern]; simp [rowPattern]
  | lfoVibrato => rw [rowMatches_lfoVibrato, exists_selected_pattern]; simp [rowPattern]
  | lfoOff => rw [rowMatches_lfoOff, exists_selected_pattern]; simp [rowPattern]
  | filt lo hi => rw [rowMatches_filt, exists_selected_pattern]; simp [rowPattern]
  | filtOff => rw [rowMatches_filtOff, exists_selected_pattern]; simp [rowPattern]
  | env a d r l => rw [rowMatches_env, exists_selected_pattern]; simp [rowPattern]
  | envIdle => rw [rowMatches_envIdle, exists_selected_pattern]; simp [rowPattern]

/-- Settles O8: the number's words are the frame's, as many as its opcode's format has. -/
theorem tableWordDecodes : Obligations.TableWordDecodes := fun i hi =>
  decodeTableWord_frameNumber (decodeEncodeCommand i hi)

/-- Settles O1: each line is read character by character, and its frame decodes by the round trip of its command. -/
theorem workedEncodingsDecode : Obligations.WorkedEncodingsDecode := by
  have decoded {f : Frame} {p : Snapshot} (h : encodeProc p = f) : decode f = .ok (.proc p) := h ▸ decode_encodeProc p
  exact ⟨by decide +kernel, decode_encode_init _, by decide +kernel, decode_encode_reset 24 _, by decide +kernel,
    decoded (by decide), by decide +kernel, decoded (by decide)⟩
end

section
/-!
The host's side of the machine: the step and the port (00_scope R4), refusals and faults (60_exceptions section 2), and the
commands INIT, RESET and PROC of 46_host_commands over the whole state.
-/

namespace Sys2Proof.HostSide

open Sys2Proof.Machine Sys2Proof.Safety Sys2Proof.Encoding Sys2Proof.Tremolo Sys2Proof.HostCommands

variable {s t : State} {f : Frame} {rest : List Frame} {i : Instr}

/-! ### The step (R4, R51, R57) -/

theorem step_idle (hport : s.port = []) : step s = .next s := by
  rw [step, takeFrame, hport]

theorem step_decoded (hport : s.port = f :: rest) (hok : decode f = .ok i) : step s = exec i { s with port := rest } := by
  rw [step, takeFrame, hport]
  simp only [hok]

theorem step_undecoded (hport : s.port = f :: rest) {e : DecodeError} (herror : decode f = .error e) :
    step s = .refused (refusalOf e) := by
  rw [step, takeFrame, hport]
  simp only [herror]

/-! ### What a command can do (46_host_commands) -/

/-- The rate INIT and RESET refuse is not a positive finite one (R195). -/
theorem not_positive_finite {sr : F64} (hbad : badSampleRate sr = true) : ¬(fGt sr 0 = true ∧ fIsFinite sr = true) := by
  rintro ⟨hpos, hfin⟩
  have hne : sr ≠ posInf := by rintro rfl; exact absurd hfin (by decide)
  rw [badSampleRate_eq_false_iff.2 ⟨hpos, hne⟩] at hbad
  cases hbad

theorem initWith_refused {sr : F64} {r : Refusal} (h : initWith sr s = .refused r) :
    r = .badSampleRate ∧ badSampleRate sr = true := by
  obtain ⟨hbad, hinit⟩ | ⟨_, hinit⟩ := initWith_cases s sr <;> cases hinit.symm.trans h
  exact ⟨rfl, hbad⟩

theorem initWith_ne_fault {sr : F64} {r : Fault} : initWith sr s ≠ .fault r := by
  obtain ⟨_, hinit⟩ | ⟨_, hinit⟩ := initWith_cases s sr <;> simp [hinit]

theorem execProc_refused {p : Snapshot} {r : Refusal} (h : execProc p s = .refused r) :
    r = .notInitialised ∧ s.inited = false := by
  obtain ⟨hoff, hproc⟩ | ⟨_, hproc⟩ | ⟨_, hproc, _⟩ := execProc_cases p s <;> cases hproc.symm.trans h
  exact ⟨rfl, hoff⟩

theorem execProc_fault {p : Snapshot} {r : Fault} (h : execProc p s = .fault r) : r = .nonFinite ∧ s.inited = true := by
  obtain ⟨_, hproc⟩ | ⟨hon, hproc⟩ | ⟨_, hproc, _⟩ := execProc_cases p s <;> cases hproc.symm.trans h
  exact ⟨rfl, hon⟩

/-! ### What every instruction leaves (10_state sections 3 and 4) -/

/-- The fields no operation row and no PROC writes. -/
def SameRateAndPort (s t : State) : Prop := t.sampleRate = s.sampleRate ∧ t.inited = s.inited ∧ t.port = s.port

theorem execFrame_next {p : Snapshot} (h : execFrame p s = .next t) : t = frameBody hw p s := (checkFinite_next _ h).1

/-- Every instruction but INIT and RESET leaves the sample rate, INITED and the pending frames. -/
theorem exec_leaves (hinit : ∀ sr, i ≠ .init sr) (hreset : ∀ bd sr, i ≠ .reset bd sr) (h : exec i s = .next t) :
    SameRateAndPort s t := by
  cases i with
  | init sr => exact absurd rfl (hinit sr)
  | reset bd sr => exact absurd rfl (hreset bd sr)
  | proc p => rw [execProc_next p s h]; simp [SameRateAndPort]
  | frame p => rw [execFrame_next h]; simp [SameRateAndPort]
  | _ => cases h; simp [SameRateAndPort, runTrem_eq, runFilt_eq, runEnv_eq]

theorem initWith_next_leaves {sr : F64} (h : initWith sr s = .next t) : t.inited = true ∧ t.port = s.port := by
  rw [initWith_next s h]
  simp

/-- The response is no part of what the non-finite check reads (R186 line 9). -/
theorem checkFinite_respond :
    outcomesAgree (fun t u => t = respond u.out u) (checkFinite (respond s.out s)) (checkFinite s) := by
  have hcheck : nonFinite (respond s.out s) = nonFinite s := rfl
  rw [checkFinite, checkFinite, hcheck]
  cases nonFinite s <;> rfl

/-! ### Past a refusal (R70, R218, entry 11) -/

theorem hostStep_refused {r : Refusal} (h : step s = .refused r) : hostStep s = some (dropRefused s) := by
  rw [hostStep, h]

/-- The reason of a refused step, with the condition of each (R218). -/
theorem step_refused_reason {r : Refusal} (h : step s = .refused r) : ∃ f rest, s.port = f :: rest ∧
    ((r = .badLength ∧ decode f = .error .badLength) ∨ (r = .badOpcode ∧ decode f = .error .badOpcode) ∨
      (r = .reservedBits ∧ decode f = .error .reservedBits) ∨ (r = .badWaveform ∧ decode f = .error .badWaveform) ∨
      (r = .badSampleRate ∧
        ∃ sr, (decode f = .ok (.init sr) ∨ ∃ bd, decode f = .ok (.reset bd sr)) ∧
          ¬(fGt sr 0 = true ∧ fIsFinite sr = true)) ∨
      (r = .notInitialised ∧ s.inited = false ∧ ∃ p, decode f = .ok (.proc p))) := by
  obtain ⟨f, rest, hport, ⟨e, herror, rfl⟩ | ⟨i, hok, hexec⟩⟩ := step_refused h
  · refine ⟨f, rest, hport, ?_⟩
    cases e with
    | badLength => exact .inl ⟨rfl, herror⟩
    | badOpcode => exact .inr (.inl ⟨rfl, herror⟩)
    | reservedBits => exact .inr (.inr (.inl ⟨rfl, herror⟩))
    | badWaveform => exact .inr (.inr (.inr (.inl ⟨rfl, herror⟩)))
  · refine ⟨f, rest, hport, .inr (.inr (.inr (.inr ?_)))⟩
    obtain rfl | rfl | ⟨w1, w2, wl, rfl⟩ := decode_ok_cases hok
    · obtain ⟨hr, hbad⟩ := initWith_refused hexec
      exact .inl ⟨hr, _, .inl hok, not_positive_finite hbad⟩
    · obtain ⟨hr, hbad⟩ := initWith_refused hexec
      exact .inl ⟨hr, _, .inr ⟨_, hok⟩, not_positive_finite hbad⟩
    · obtain ⟨hr, hoff⟩ := execProc_refused hexec
      exact .inr ⟨hr, hoff, _, hok⟩

end Sys2Proof.HostSide

open Sys2Proof Sys2Proof.Machine Sys2Proof.Safety Sys2Proof.Tremolo Sys2Proof.HostSide

/-- Settles O9: an empty port is idle, and else the decoder's answer decides. -/
theorem stepRunsDecodedFrame : Obligations.StepRunsDecodedFrame := by
  intro s
  refine ⟨step_idle, fun f rest hport => ⟨fun i => step_decoded hport, ?_, ?_, ?_, ?_⟩⟩ <;> exact step_undecoded hport

/-- Settles O10: a refusal is the decoder's, or that of the decoded command, and dropping the frame writes the port and the
response alone. -/
theorem refusalsAreTheClosedList : Obligations.RefusalsAreTheClosedList := by
  intro s r h
  refine ⟨step_refused_reason h, dropRefused s, hostStep_refused h, ⟨?_, rfl, rfl⟩, rfl, rfl, rfl, rfl⟩
  exact ⟨rfl, rfl, rfl, rfl, rfl, rfl⟩

/-- Settles O11: of the three commands a frame can spell, INIT and RESET answer next or refused, and PROC faults only once
initialised. -/
theorem onlyProcFaults : Obligations.OnlyProcFaults := by
  intro s r h
  obtain ⟨f, rest, i, hport, hok, hexec⟩ := step_fault h
  obtain rfl | rfl | ⟨w1, w2, wl, rfl⟩ := decode_ok_cases hok
  · exact absurd hexec initWith_ne_fault
  · exact absurd hexec initWith_ne_fault
  · obtain ⟨hr, hon⟩ := execProc_fault hexec
    exact ⟨hr, hon, f, rest, _, hport, hok⟩

/-- Settles O14: INIT writes every persistent register from its operand. -/
theorem initForgetsThePast : Obligations.InitForgetsThePast := by
  intro sr s s' t t' h h'
  rw [initWith_next s h, initWith_next s' h']
  exact ⟨rfl, rfl, rfl, rfl, rfl, rfl⟩

/-- Settles O15: INIT and RESET set the flag, the other instructions leave it, and PROC's only refusal is for its being clear. -/
theorem procNeedsInit : Obligations.ProcNeedsInit := by
  refine ⟨fun p s hoff => ?_, rfl, fun i s t h hset => ?_, fun p s r hon h => ?_⟩
  · obtain ⟨_, hproc⟩ | ⟨hon, _⟩ | ⟨hon, _⟩ := execProc_cases p s
    · exact hproc
    · rw [hoff] at hon; cases hon
    · rw [hoff] at hon; cases hon
  · by_cases hinit : ∃ sr, i = .init sr ∨ ∃ bd, i = .reset bd sr
    · obtain ⟨sr, rfl | ⟨bd, rfl⟩⟩ := hinit <;> exact (initWith_next_leaves h).1
    · obtain ⟨_, hleaves, _⟩ :=
        exec_leaves (fun sr hi => hinit ⟨sr, .inl hi⟩) (fun bd sr hi => hinit ⟨sr, .inr ⟨bd, hi⟩⟩) h
      exact hleaves.trans (hset.resolve_right hinit)
  · rw [(execProc_refused h).2] at hon; cases hon

/-- Settles O16: INIT and RESET leave the port, and the other instructions the rate and the flag too. -/
theorem sampleRateOnlyFromReset : Obligations.SampleRateOnlyFromReset := by
  intro i s t h
  by_cases hinit : ∃ sr, i = .init sr ∨ ∃ bd, i = .reset bd sr
  · obtain ⟨sr, rfl | ⟨bd, rfl⟩⟩ := hinit
    · exact ⟨(initWith_next_leaves h).2, fun hne => absurd rfl (hne sr)⟩
    · exact ⟨(initWith_next_leaves h).2, fun _ hne => absurd rfl (hne bd sr)⟩
  · obtain ⟨hrate, hflag, hport⟩ :=
      exec_leaves (fun sr hi => hinit ⟨sr, .inl hi⟩) (fun bd sr hi => hinit ⟨sr, .inr ⟨bd, hi⟩⟩) h
    exact ⟨hport, fun _ _ => ⟨hrate, hflag⟩⟩

/-- Settles O17: PROC on an initialised core is the body, its output frame as the response, and the check FRAME makes. -/
theorem procIsFrameThenRespond : Obligations.ProcIsFrameThenRespond := by
  intro p s hon
  have hproc : exec (.proc p) s = checkFinite (respond (frameBody hw p s).out (frameBody hw p s)) := if_pos hon
  rw [hproc]
  exact checkFinite_respond
end

section
/-!
The rows of the opcode table as the spec writes them out (41_oscillator, 42_tremolo section 1, 43_filter section 1, 45_frame
section 2): each is its operation, unfolded.
-/

open Sys2Proof Sys2Proof.Machine

/-- Settles O26: the row's two writes are `zeroSamples` and `writeOut`. -/
theorem muteRowCompletes : Obligations.MuteRowCompletes := fun _ => rfl

/-- Settles O27: each row is GEN on OSC1 with its waveform, which is one arm of `wave`. -/
theorem osc1RowsComplete : Obligations.Osc1RowsComplete := fun f a s =>
  ⟨exec_genOsc1 s .sine f a, exec_genOsc1 s .square f a, exec_genOsc1 s .triangle f a, exec_genOsc1 s .sawtooth f a,
    exec_genOsc1 s .sawtoothInverse f a⟩

/-- Settles O28: as on OSC1. -/
theorem osc2RowsComplete : Obligations.Osc2RowsComplete := fun f a s =>
  ⟨exec_genOsc2 s .sine f a, exec_genOsc2 s .square f a, exec_genOsc2 s .triangle f a, exec_genOsc2 s .sawtooth f a,
    exec_genOsc2 s .sawtoothInverse f a⟩

/-- Settles O29: as on OSC1, with the configuration's amplitude, which is 1.0. -/
theorem lfoRowsComplete : Obligations.LfoRowsComplete := fun f s =>
  ⟨exec_genLfo s .sine f, exec_genLfo s .square f, exec_genLfo s .triangle f, exec_genLfo s .sawtooth f,
    exec_genLfo s .sawtoothInverse f⟩

/-- Settles O36: everything TREM does is in `runTrem_eq`. -/
theorem tremRowCompletes : Obligations.TremRowCompletes := fun d s => congrArg Host.Outcome.next (runTrem_eq hw s d)

/-- Settles O39: the three rows are the identity. -/
theorem passThroughRowsComplete : Obligations.PassThroughRowsComplete := fun _ => ⟨rfl, rfl, rfl⟩

/-- Settles O40: everything FILT does is in `runFilt_eq`, with the coefficients of `bandpassCoef`. -/
theorem filtRowCompletes : Obligations.FiltRowCompletes := fun lo hi s => congrArg Host.Outcome.next (runFilt_eq hw s lo hi)

/-- Settles O41: each call writes the history from the operand, its output and the history before it. -/
theorem filterHistoryShifts : Obligations.FilterHistoryShifts := fun lo hi lo' hi' s =>
  ⟨runFilt hw lo hi s, runFilt hw lo' hi' (runFilt hw lo hi s), rfl, rfl, rfl, rfl, rfl, rfl, rfl, rfl, rfl, rfl⟩
end

section
/-!
The body of PROC (45_frame sections 2 to 4): the value each step gives the mixed signal, as a function of the snapshot and the
persistent registers, and the body as the selected rows in sequence.
-/

namespace Sys2Proof.FrameBody

open Sys2Proof.Machine Sys2Proof.Safety Sys2Proof.Tremolo

variable (c : Config) (p : Snapshot) (s : State)

/-! ### The mixed signal, step by step (R177 to R184) -/

/-- `m` after step 4. -/
def mixed (c : Config) (p : Snapshot) (s : State) : F64 :=
  fAdd (if !p.mute && p.osc1En then wave c p.osc1Wave s.osc.osc1 p.osc1Amp else 0)
    (if !p.mute && p.osc2En then wave c p.osc2Wave s.osc.osc2 p.osc2Amp else 0)

/-- `m` after step 5. -/
def modulated (c : Config) (p : Snapshot) (s : State) : F64 :=
  if p.lfoEn = true ∧ p.lfoMode = .tremolo then
    fMul (mixed c p s) (fMul (wave c p.lfoWave s.osc.lfo c.lfoAmp) (tremGain c p.lfoDepth s.trem.modphase))
  else mixed c p s

/-- `m` after step 6. -/
def filtered (c : Config) (p : Snapshot) (s : State) : F64 :=
  if p.filtEn then filtOutput c (filtCoeffs c s.sampleRate p.lowCut p.highCut) (modulated c p s) s.filt
  else modulated c p s

/-- `m` after step 7. -/
def shaped (c : Config) (p : Snapshot) (s : State) : F64 :=
  if p.envEn then fMul (filtered c p s) s.env.level else filtered c p s

/-- The output of step 8. -/
def output (c : Config) (p : Snapshot) (s : State) : F64 := if p.mute then 0 else fMul (shaped c p s) p.volume

/-! What each step does to `m`, from any state before it. -/

theorem lfoStep_m : (lfoStep c p s).nodes.m =
    if p.lfoEn = true ∧ p.lfoMode = .tremolo then
      fMul s.nodes.m (fMul (wave c p.lfoWave s.osc.lfo c.lfoAmp) (tremGain c p.lfoDepth s.trem.modphase))
    else s.nodes.m := by
  by_cases h : p.lfoEn = true ∧ p.lfoMode = .tremolo
  · rw [lfoStep_tremolo c p _ h.1 h.2, runTrem_eq, if_pos h]
    simp
  · have hoff : p.lfoEn = false ∨ p.lfoMode = .vibrato := by
      cases he : p.lfoEn <;> cases hm : p.lfoMode <;> simp_all
    rw [lfoStep_off c p _ hoff, if_neg h]

theorem filtStep_m : (filtStep c p s).nodes.m =
    if p.filtEn then filtOutput c (filtCoeffs c s.sampleRate p.lowCut p.highCut) s.nodes.m s.filt else s.nodes.m := by
  unfold filtStep
  split <;> rfl

theorem envStep_m : (envStep c p s).nodes.m = if p.envEn then fMul s.nodes.m s.env.level else s.nodes.m := by
  unfold envStep
  split <;> rfl

theorem lfoStep_m_body : (lfoStep c p (mixStep (oscSteps c p (latch p s)))).nodes.m = modulated c p s := by
  rw [lfoStep_m, modulated, mixStep_nodes, mixStep_osc, mixStep_trem, oscSteps_nodes, oscSteps_osc, oscSteps_trem]
  rfl

theorem filtStep_m_body :
    (filtStep c p (lfoStep c p (mixStep (oscSteps c p (latch p s))))).nodes.m = filtered c p s := by
  rw [filtStep_m, filtered, lfoStep_m_body]
  simp

theorem frameBody_nodes_out : (frameBody c p s).nodes.out = output c p s := by
  rw [frameBody, outStep_eq, output, envStep_m, shaped, filtStep_m_body]
  simp

/-- The history after the body (R131, R132). -/
theorem frameBody_filt : (frameBody c p s).filt =
    if p.filtEn then { x1 := modulated c p s, x2 := s.filt.x1, y1 := filtered c p s, y2 := s.filt.y1 } else s.filt := by
  cases h : p.filtEn
  · exact (frameBody_filt_off c p s h).1
  · rw [frameBody, outStep_eq, filtStep_on c p _ h, runFilt_eq, filtered, h, ← lfoStep_m_body]
    simp

/-! ### What the body reads (R27, R40, R41) -/

variable {s} {s' : State}

/-- States that agree on the persistent registers give the same output and agree on those registers after the body. -/
theorem output_of_samePersistent (h : samePersistent s s') : output c p s = output c p s' := by
  obtain ⟨hosc, htrem, hfilt, henv, hrate, -⟩ := h
  simp only [output, shaped, filtered, modulated, mixed, hosc, htrem, hfilt, henv, hrate]

theorem frameBody_samePersistent (h : samePersistent s s') : samePersistent (frameBody c p s) (frameBody c p s') := by
  obtain ⟨hosc, htrem, hfilt, henv, hrate, hinited⟩ := h
  refine ⟨?_, ?_, ?_, ?_, ?_, ?_⟩
  · rw [frameBody_osc, frameBody_osc, hosc, hrate]
  · rw [frameBody_trem, frameBody_trem, htrem, hrate]
  · simp only [frameBody_filt, filtered, modulated, mixed, hosc, htrem, hfilt, hrate]
  · simp only [frameBody_env, env_env, envStage, henv, hrate]
  · rw [frameBody_sampleRate, frameBody_sampleRate, hrate]
  · rw [frameBody_inited, frameBody_inited, hinited]

/-- The check reads the persistent registers and the output alone (R186 line 9). -/
theorem nonFinite_of_same (h : samePersistent s s') (hout : s.nodes.out = s'.nodes.out) : nonFinite s = nonFinite s' := by
  obtain ⟨hosc, htrem, hfilt, henv, hrate, -⟩ := h
  simp only [nonFinite, registersFinite, f64Registers, hosc, htrem, hfilt, henv, hrate, hout]

theorem execProc_samePersistent (h : samePersistent s s') :
    outcomesAgree sameVisible (execProc p s) (execProc p s') := by
  have hbody := frameBody_samePersistent hw p h
  have hnodes : (frameBody hw p s).nodes.out = (frameBody hw p s').nodes.out := by
    rw [frameBody_nodes_out, frameBody_nodes_out, output_of_samePersistent hw p h]
  have hframe : (frameBody hw p s).out = (frameBody hw p s').out := by
    rw [frameBody_out, frameBody_out, hnodes]
  have hcheck : nonFinite (respond (frameBody hw p s).out (frameBody hw p s)) =
      nonFinite (respond (frameBody hw p s').out (frameBody hw p s')) := nonFinite_of_same hbody hnodes
  obtain ⟨-, -, -, -, -, hinited⟩ := h
  rw [execProc, execProc, checkFinite, checkFinite, hinited, hcheck]
  split_ifs
  · rfl
  · exact ⟨hbody, hframe, hframe⟩
  · rfl

/-! ### The body as the selected rows in sequence (R186, 30_encoding section 3) -/

variable (s)

theorem runInstrs_append {is js : List Instr} {t : State} (h : runInstrs is s = .next t) :
    runInstrs (is ++ js) s = runInstrs js t := by
  induction is generalizing s with
  | nil => cases h; rfl
  | cons i is ih =>
    rw [List.cons_append, runInstrs]
    rw [runInstrs] at h
    cases hexec : exec i s with
    | next u => rw [hexec] at h; exact ih u h
    | fault r => rw [hexec] at h; cases h
    | refused r => rw [hexec] at h; cases h

/-- One instruction that completes. -/
theorem runInstrs_singleton {i : Instr} {t : State} (h : exec i s = .next t) : runInstrs [i] s = .next t := by
  rw [runInstrs, h]; rfl

theorem runInstrs_selectedLfo : runInstrs (selectedLfo p) s = .next (lfoStep hw p s) := by
  cases hen : p.lfoEn
  · rw [selectedLfo, hen, lfoStep_off hw p s (.inl hen)]; rfl
  · cases hmode : p.lfoMode
    · rw [selectedLfo, hen, hmode, lfoStep_tremolo hw p s hen hmode]
      exact runInstrs_append s (is := [genLfo p.lfoWave p.lfoFreq]) (runInstrs_singleton s (exec_genLfo s _ _))
    · rw [selectedLfo, hen, hmode, lfoStep_off hw p s (.inr hmode)]; rfl

theorem runInstrs_selectedFilt : runInstrs (selectedFilt p) s = .next (filtStep hw p s) := by
  cases hen : p.filtEn
  · rw [selectedFilt, hen, filtStep_off hw p s hen]; rfl
  · rw [selectedFilt, hen, filtStep_on hw p s hen]; rfl

theorem runInstrs_selectedEnv : runInstrs (selectedEnv p) s = .next (envStep hw p s) := by
  cases hen : p.envEn
  · rw [selectedEnv, hen, envStep_off hw p s hen]; rfl
  · rw [selectedEnv, hen, envStep_on hw p s hen]; rfl

theorem runInstrs_afterMix : runInstrs (selectedLfo p ++ selectedFilt p ++ selectedEnv p) s =
    .next (envStep hw p (filtStep hw p (lfoStep hw p s))) := by
  rw [List.append_assoc, runInstrs_append s (runInstrs_selectedLfo p s),
    runInstrs_append _ (runInstrs_selectedFilt p _), runInstrs_selectedEnv]

/-- The oscillator rows unmuted, from samples of `+0.0`: each enabled row in turn (R178). -/
theorem runInstrs_selectedOsc (hmute : p.mute = false) :
    runInstrs (selectedOsc p) (zeroSamples s) = .next (oscSteps hw p s) := by
  have hon1 := exec_genOsc1 (zeroSamples s) p.osc1Wave p.osc1Freq p.osc1Amp
  cases h1 : p.osc1En <;> cases h2 : p.osc2En <;>
    simp only [selectedOsc, oscSteps, hmute, h1, h2, Bool.false_eq_true, if_false, if_true, List.nil_append, List.append_nil]
  · rfl
  · exact runInstrs_singleton _ (exec_genOsc2 _ _ _ _)
  · exact runInstrs_singleton _ (exec_genOsc1 _ _ _ _)
  · rw [runInstrs_append _ (runInstrs_singleton _ hon1)]
    exact runInstrs_singleton _ (exec_genOsc2 _ _ _ _)

/-! The mute row writes the output early; the later steps carry it along unread, and step 8 writes it again (entry 14). -/

variable (n : Nat) (v : F64)

theorem lfoStep_writeOut : lfoStep c p (writeOut n v s) = writeOut n v (lfoStep c p s) := by
  rcases Decidable.em (p.lfoEn = true ∧ p.lfoMode = .tremolo) with ⟨hen, hmode⟩ | h
  · rw [lfoStep_tremolo c p _ hen hmode, lfoStep_tremolo c p _ hen hmode]; rfl
  · have hoff : p.lfoEn = false ∨ p.lfoMode = .vibrato := by
      cases he : p.lfoEn <;> cases hm : p.lfoMode <;> simp_all
    rw [lfoStep_off c p _ hoff, lfoStep_off c p _ hoff]

theorem filtStep_writeOut : filtStep c p (writeOut n v s) = writeOut n v (filtStep c p s) := by
  unfold filtStep
  split <;> rfl

theorem envStep_writeOut : envStep c p (writeOut n v s) = writeOut n v (envStep c p s) := by
  unfold envStep
  split <;> rfl

theorem outStep_writeOut : outStep c p (writeOut n v s) = outStep c p s := rfl

/-- The state the selected oscillator rows leave. -/
def afterOscRows (p : Snapshot) (s : State) : State :=
  if p.mute then writeOut hw.nChannels 0 (zeroSamples s) else oscSteps hw p s

theorem runInstrs_oscRows : runInstrs (selectedOsc p) (zeroSamples s) = .next (afterOscRows p s) := by
  cases hmute : p.mute
  · rw [runInstrs_selectedOsc p s hmute, afterOscRows, hmute]; rfl
  · rw [selectedOsc, afterOscRows, hmute]; rfl

/-- The body is the rows' effect and then the output. -/
theorem frameBody_eq_rows : frameBody hw p s =
    outStep hw p (envStep hw p (filtStep hw p (lfoStep hw p (mixStep (afterOscRows p (latch p s)))))) := by
  cases hmute : p.mute
  · rw [frameBody, afterOscRows, hmute]; rfl
  · have hosc : oscSteps hw p (latch p s) = zeroSamples (latch p s) := by rw [oscSteps, hmute]; rfl
    have hmix (u : State) : mixStep (writeOut hw.nChannels 0 u) = writeOut hw.nChannels 0 (mixStep u) := rfl
    rw [frameBody, hosc, afterOscRows, if_pos hmute, hmix, lfoStep_writeOut, filtStep_writeOut, envStep_writeOut,
      outStep_writeOut]

/-- The check written out (R186 line 9, R220; entry 12). -/
theorem checkFinite_eq_ite : checkFinite s =
    if fIsFinite s.osc.osc1 ∧ fIsFinite s.osc.osc2 ∧ fIsFinite s.osc.lfo ∧ fIsFinite s.trem.modphase ∧
        fIsFinite s.filt.x1 ∧ fIsFinite s.filt.x2 ∧ fIsFinite s.filt.y1 ∧ fIsFinite s.filt.y2 ∧
        fIsFinite s.env.level ∧ fIsFinite s.sampleRate ∧ fIsFinite s.nodes.out
    then .next s else .fault .nonFinite := by
  simp only [checkFinite, nonFinite, registersFinite, f64Registers, List.all_cons, List.all_nil, Bool.and_true,
    Bool.not_eq_true', ← Bool.not_eq_true, Bool.and_eq_true, and_assoc, ite_not]

/-! ### A quiet body -/

/-- Mute, or both oscillators disabled: the samples are `+0.0` and no phase moves (R177, R178). -/
theorem oscSteps_quiet (h : p.mute = true ∨ p.osc1En = false ∧ p.osc2En = false) : oscSteps c p s = zeroSamples s := by
  unfold oscSteps
  rcases h with h | ⟨h1, h2⟩
  · rw [if_pos h]
  · split
    · rfl
    · rw [h1, h2]; rfl

theorem fAdd_zero_zero : fAdd 0 0 = 0 := by decide +kernel

/-- The state after a quiet body. -/
def quietState (p : Snapshot) (s : State) : State :=
  { s with
    snapshot := p
    env := { stage := .idle, elapsed := 0, level := 0 }
    nodes := { s.nodes with s1 := 0, s2 := 0, m := 0, out := if p.mute then 0 else fMul 0 p.volume }
    out := List.replicate hw.nChannels (if p.mute then 0 else fMul 0 p.volume) }

/-- With nothing running, the body is the latch, an idle envelope and the output. -/
theorem frameBody_quiet (hosc : p.mute = true ∨ p.osc1En = false ∧ p.osc2En = false)
    (hlfo : p.lfoEn = false ∨ p.lfoMode = .vibrato) (hfilt : p.filtEn = false) (henv : p.envEn = false) :
    frameBody hw p s = quietState p s := by
  have hmix (u : State) : mixStep (zeroSamples u) = setM 0 (zeroSamples u) := congrArg (setM · _) fAdd_zero_zero
  rw [frameBody, oscSteps_quiet hw p _ hosc, hmix, lfoStep_off hw p _ hlfo, filtStep_off hw p _ hfilt,
    envStep_off hw p _ henv]
  rfl

theorem checkFinite_of_finite (hregs : registersFinite s = true) (hout : fIsFinite s.nodes.out = true) :
    checkFinite s = .next s := by
  rw [checkFinite, nonFinite, hregs, hout]
  rfl

/-- The registers of a quiet body are those before it, and an idle level. -/
theorem registersFinite_quiet (h : registersFinite s = true) : registersFinite (quietState p s) = true := by
  simp only [registersFinite, f64Registers, quietState, List.all_cons, List.all_nil, Bool.and_true, Bool.and_eq_true] at h ⊢
  obtain ⟨h1, h2, h3, h4, h5, h6, h7, h8, -, hrate⟩ := h
  exact ⟨h1, h2, h3, h4, h5, h6, h7, h8, fIsFinite_zero, hrate⟩

theorem fIsFinite_quiet_output (h : p.mute = true ∨ fIsFinite p.volume = true) :
    fIsFinite (quietState p s).nodes.out = true := by
  show fIsFinite (if p.mute then 0 else fMul 0 p.volume) = true
  split_ifs with hmute
  · exact fIsFinite_zero
  · have hzero := fMag_fMul_zero fIsFinite_zero (h.resolve_left hmute) (.inl fMag_zero)
    exact finite_of_le hzero.le (by decide)

end Sys2Proof.FrameBody

open Sys2Proof Sys2Proof.Machine Sys2Proof.Safety Sys2Proof.Tremolo Sys2Proof.FrameBody

/-- Settles O18: each list of rows completes in the state its step gives, and FRAME is the last of them checked. -/
theorem frameRunsSelectedRows : Obligations.FrameRunsSelectedRows := by
  intro p s
  refine ⟨afterOscRows p (latch p s), _, runInstrs_oscRows p (latch p s), runInstrs_afterMix p _, ?_⟩
  have hframe : exec (.frame p) s = checkFinite (frameBody hw p s) := rfl
  rw [hframe, frameBody_eq_rows]
  exact checkFinite_eq_ite _

/-- Settles O19: PROC completes in the body's state with its output frame as the response, and the body writes each register
under its enable alone. -/
theorem procFrameConditions : Obligations.ProcFrameConditions := by
  intro p s t h
  rw [execProc_next p s h]
  refine ⟨fun hoff => ?_, fun hoff => ?_, fun hoff => ?_, frameBody_filt_off hw p s, fun hoff => ?_, by simp, by simp, by simp,
    by simp, rfl, frameBody_out hw p s⟩
  · rcases hoff with h | h <;> simp [frameBody_osc, h]
  · rcases hoff with h | h <;> simp [frameBody_osc, h]
  · rcases hoff with h | h <;> simp [frameBody_osc, frameBody_trem, h]
  · simp [frameBody_env, hoff]

/-- Settles O21: with the filter and the envelope out, the output is the mixed and modulated signal times the volume. -/
theorem bypassIsTheRawMix : Obligations.BypassIsTheRawMix := by
  intro p s hmute hfilt henv out
  have hout (c : Config) : output c p s = out c := by
    simp only [output, shaped, filtered, modulated, mixed, hmute, hfilt, henv, Bool.not_false, Bool.true_and,
      Bool.false_eq_true, if_false, tremGain, out]
  have hbody (c : Config) : (frameBody c p s).out = List.replicate c.nChannels (out c) := by
    rw [frameBody_out, frameBody_nodes_out, hout]
  refine ⟨hbody, fun t h => ?_⟩
  rw [execProc_next p s h]
  exact ⟨hbody hw, rfl⟩

/-- Settles O25: the body reads the persistent registers alone, and so does the check. -/
theorem procReadsPersistentOnly : Obligations.ProcReadsPersistentOnly := fun p _ _ => execProc_samePersistent p

/-- Settles O23: the quiet body writes zeros, and a product of `+0.0` with a finite volume is a zero. -/
theorem quietFrameCompletes : Obligations.QuietFrameCompletes := by
  intro p s hregs hquiet hlfo hfilt henv out t
  have hbody : frameBody hw p s = t := frameBody_quiet p s (hquiet.imp_right fun h => ⟨h.1, h.2.1⟩) hlfo hfilt henv
  have hfin : registersFinite t = true := registersFinite_quiet p s hregs
  have hout : fIsFinite t.nodes.out = true := fIsFinite_quiet_output p s (hquiet.imp_right fun h => h.2.2)
  refine ⟨?_, fun hon => ?_⟩
  · exact (congrArg checkFinite hbody).trans (checkFinite_of_finite t hfin hout)
  · have hproc : exec (.proc p) s = checkFinite (respond (frameBody hw p s).out (frameBody hw p s)) := if_pos hon
    rw [hproc, hbody]
    exact checkFinite_of_finite (respond t.out t) hfin hout
end

section
/-!
The four operations of 00_scope section 5 (R8): on finite operands the exact result rounded, and the special operands.
-/

namespace Sys2Proof.Arithmetic

open Sys2Proof.Machine Sys2Proof.Safety Sys2Proof.Scope

/-! ### Rounding a value (R8) -/

section rounding
variable {n d : Nat} {neg : Bool} {x : ℚ}

/-- The overflow bound itself rounds to the magnitude of infinity: it is a tie, and the largest finite magnitude is odd. -/
theorem roundMagRaw_overflowBound {k : Nat} (hk : k = 2044) : roundMagRaw ((2 ^ 54 - 1) * 2 ^ k) 1 = infMag := by
  subst hk; decide +kernel

/-- A quotient at or past the overflow bound rounds to the magnitude of infinity. -/
theorem roundMag_of_overflow (hd : 0 < d) (hx : |x| = (n : ℚ) / d / 2 ^ 1074) (hb : overflowBound ≤ |x|) :
    roundMag n d = infMag := by
  obtain ⟨k, hk⟩ : ∃ k, k = 2044 := ⟨_, rfl⟩
  have hd' : (0 : ℚ) < d := by exact_mod_cast hd
  have hp : (2 : ℚ) ^ 970 * 2 ^ 1074 = 2 ^ k := by rw [← pow_add, hk]
  rw [hx, overflowBound, le_div_iff₀ (by positivity), le_div_iff₀ hd', mul_assoc _ (2 ^ 970), hp] at hb
  have hunits : (2 ^ 54 - 1) * 2 ^ k * d ≤ n * 1 := by
    have : (((2 ^ 54 - 1) * 2 ^ k * d : Nat) : ℚ) ≤ n := by push_cast; linarith
    rw [Nat.mul_one]
    exact_mod_cast this
  have hmono := roundMagRaw_mono Nat.one_pos hd hunits
  rw [roundMagRaw_overflowBound hk] at hmono
  rw [roundMag_eq, min_eq_right hmono]

theorem fIsInf_fMake_infMag (neg : Bool) : fIsInf (fMake neg infMag) = true := by cases neg <;> decide

/-- A value of magnitude `n / d` units rounds to the rounded magnitude under its own sign. -/
theorem roundsTo_roundMag (hd : 0 < d) (hx : |x| = (n : ℚ) / d / 2 ^ 1074) (hs : x ≠ 0 → (neg = true ↔ x < 0)) :
    roundsTo (fMake neg (roundMag n d)) x := by
  refine ⟨isNearest_roundMag hd hx hs, fun hb => ?_⟩
  have hne : x ≠ 0 := by
    rintro rfl
    rw [abs_zero, overflowBound] at hb
    exact absurd hb (not_le.2 (by positivity))
  rw [roundMag_of_overflow hd hx hb, fSign_fMake _ (by decide)]
  exact ⟨fIsInf_fMake_infMag neg, hs hne⟩

theorem roundsTo_roundInt (z : Bool) (s : Int) : roundsTo (roundInt z s) ((s : ℚ) / 2 ^ 1074) := by
  have hpos : (0 : ℚ) < 2 ^ 1074 := by positivity
  have habs : |(s : ℚ) / 2 ^ 1074| = (s.natAbs : ℚ) / (1 : Nat) / 2 ^ 1074 := by
    rw [abs_div, abs_of_pos hpos, Nat.cast_one, div_one, Nat.cast_natAbs, Int.cast_abs]
  unfold roundInt
  split_ifs with h0
  · have h := roundsTo_roundMag (neg := z) Nat.one_pos habs (by simp [h0])
    rwa [h0, Int.natAbs_zero, roundMag_zero Nat.one_pos, ← h0] at h
  · refine roundsTo_roundMag Nat.one_pos habs fun _ => ?_
    rw [decide_eq_true_iff, div_neg_iff]
    simp [hpos, not_lt_of_gt hpos]

end rounding

/-! ### Signs and zeros of values -/

section values
variable {a b : F64}

theorem valueOf_eq_zero_iff : valueOf a = 0 ↔ fMag a = 0 := by
  rw [← abs_eq_zero, abs_valueOf, div_eq_zero_iff, Nat.cast_eq_zero, magUnits_eq_zero]
  simp

theorem fSign_iff_neg (h : valueOf a ≠ 0) : fSign a = true ↔ valueOf a < 0 := by
  cases hs : fSign a
  · simpa using valueOf_nonneg hs
  · simpa using (valueOf_nonpos hs).lt_of_ne h

/-- Two values that are not zero have different signs where one is negative and the other positive. -/
theorem bne_sign_iff (ha : valueOf a ≠ 0) (hb : valueOf b ≠ 0) : (fSign a != fSign b) = true ↔
    0 < valueOf a ∧ valueOf b < 0 ∨ valueOf a < 0 ∧ 0 < valueOf b := by
  have hsa := fSign_iff_neg ha
  have hsb := fSign_iff_neg hb
  rcases lt_or_gt_of_ne ha with h1 | h1 <;> rcases lt_or_gt_of_ne hb with h2 | h2 <;>
    simp_all [not_lt_of_gt]

/-! ### Finite operands (R8) -/

theorem roundsTo_fAdd (ha : fIsFinite a = true) (hb : fIsFinite b = true) :
    roundsTo (fAdd a b) (valueOf a + valueOf b) := by
  have hsum : valueOf a + valueOf b = ((fInt a + fInt b : Int) : ℚ) / 2 ^ 1074 := by
    rw [valueOf, valueOf, Int.cast_add, add_div]
  rw [fAdd_finite ha hb, hsum]
  exact roundsTo_roundInt _ _

theorem roundsTo_fSub (ha : fIsFinite a = true) (hb : fIsFinite b = true) :
    roundsTo (fSub a b) (valueOf a - valueOf b) := by
  have hdiff : valueOf a - valueOf b = ((fInt a - fInt b : Int) : ℚ) / 2 ^ 1074 := by
    rw [valueOf, valueOf, Int.cast_sub, sub_div]
  rw [fSub_finite ha hb, hdiff]
  exact roundsTo_roundInt _ _

theorem roundsTo_fMul (ha : fIsFinite a = true) (hb : fIsFinite b = true) :
    roundsTo (fMul a b) (valueOf a * valueOf b) := by
  rw [fMul_finite ha hb]
  apply roundsTo_roundMag (by positivity)
  · rw [abs_mul, abs_valueOf, abs_valueOf, Nat.cast_mul, Nat.cast_pow, Nat.cast_ofNat, div_mul_div_comm, div_div]
  · intro h
    obtain ⟨h1, h2⟩ := mul_ne_zero_iff.1 h
    rw [bne_sign_iff h1 h2, mul_neg_iff]

theorem roundsTo_fDiv (ha : fIsFinite a = true) (hb : fIsFinite b = true) (h0 : valueOf b ≠ 0) :
    roundsTo (fDiv a b) (valueOf a / valueOf b) := by
  have hmag : fMag b ≠ 0 := mt valueOf_eq_zero_iff.2 h0
  have hunits := magUnits_pos (Nat.pos_of_ne_zero hmag)
  rw [fDiv_finite ha hb hmag]
  apply roundsTo_roundMag hunits
  · have hscale : (2 ^ 1074 : ℚ) ≠ 0 := by positivity
    rw [abs_div, abs_valueOf, abs_valueOf, Nat.cast_mul, Nat.cast_pow, Nat.cast_ofNat, div_div_div_cancel_right₀ hscale,
      mul_div_right_comm, mul_div_cancel_right₀ _ hscale]
  · intro h
    obtain ⟨h1, -⟩ := div_ne_zero_iff.1 h
    rw [bne_sign_iff h1 h0, div_neg_iff]

/-! ### Infinite operands (R8) -/

theorem not_nan_of_inf (h : fIsInf a = true) : fIsNaN a = false := by
  simp only [fIsInf, beq_iff_eq] at h
  simp [fIsNaN, h]

theorem fMag_of_inf (h : fIsInf a = true) : fMag a = infMag := beq_iff_eq.1 h

theorem eq_of_inf_of_sign (ha : fIsInf a = true) (hb : fIsInf b = true) (hs : fSign a = fSign b) : a = b :=
  eq_of_sign_mag hs ((fMag_of_inf ha).trans (fMag_of_inf hb).symm)

/-- An infinity under addition: a NaN with the opposite infinity, and else itself. -/
theorem addFrom_inf_left (op : FloatOp) (ha : fIsInf a = true) :
    addFrom op a b = if fIsInf b && (fSign a != fSign b) then fNaN op a b else a := by
  rw [addFrom, if_pos ha]

theorem addFrom_inf_right (op : FloatOp) (ha : fIsFinite a = true) (hb : fIsInf b = true) : addFrom op a b = b := by
  rw [addFrom, not_inf_of_finite ha, if_neg (by decide), if_pos hb]

theorem fAdd_eq_addFrom (ha : fIsNaN a = false) (hb : fIsNaN b = false) : fAdd a b = addFrom .add a b := by
  simp only [fAdd, ha, hb, Bool.or_false, Bool.false_eq_true, if_false]

theorem fSub_eq_addFrom (ha : fIsNaN a = false) (hb : fIsNaN b = false) : fSub a b = addFrom .sub a (fNeg b) := by
  simp only [fSub, ha, hb, Bool.or_false, Bool.false_eq_true, if_false]

theorem fMul_inf (ha : fIsNaN a = false) (hb : fIsNaN b = false) (h : fIsInf a = true ∨ fIsInf b = true) :
    fMul a b = if fMag a == 0 || fMag b == 0 then fNaN .mul a b else fMake (fSign a != fSign b) infMag := by
  simp only [fMul, ha, hb, Bool.or_false, Bool.false_eq_true, if_false, Bool.or_eq_true (fIsInf a), h, if_true]

theorem fDiv_inf_left (ha : fIsInf a = true) (hb : fIsNaN b = false) :
    fDiv a b = if fIsInf b then fNaN .div a b else fMake (fSign a != fSign b) infMag := by
  simp only [fDiv, not_nan_of_inf ha, hb, ha, Bool.or_false, Bool.false_eq_true, if_false, if_true]

theorem fDiv_inf_right (ha : fIsFinite a = true) (hb : fIsInf b = true) : fDiv a b = fMake (fSign a != fSign b) 0 := by
  simp only [fDiv, not_nan_of_finite ha, not_nan_of_inf hb, not_inf_of_finite ha, hb, Bool.or_false, Bool.false_eq_true,
    if_false, if_true]

theorem fDiv_zero_right (ha : fIsFinite a = true) (hb : fMag b = 0) :
    fDiv a b = if fMag a == 0 then fNaN .div a b else fMake (fSign a != fSign b) infMag := by
  have hfin : fIsFinite b = true := finite_of_le hb.le (by decide)
  simp only [fDiv, not_nan_of_finite ha, not_nan_of_finite hfin, not_inf_of_finite ha, not_inf_of_finite hfin, hb,
    Bool.or_false, Bool.false_eq_true, if_false, beq_self_eq_true, if_true]

/-- Two infinities: the invalid quotient, the product, and the sum and difference by their signs. -/
theorem inf_inf (ha : fIsInf a = true) (hb : fIsInf b = true) :
    fIsNaN (fDiv a b) = true ∧ fIsInf (fMul a b) = true ∧
      (fSign a ≠ fSign b → fIsNaN (fAdd a b) = true ∧ fSub a b = a) ∧
      (fSign a = fSign b → fIsNaN (fSub a b) = true ∧ fAdd a b = a) := by
  have na := not_nan_of_inf ha
  have nb := not_nan_of_inf hb
  have hne : (infMag == 0) = false := by decide
  have hneg : fIsInf (fNeg b) = true := (fIsInf_fNeg b).trans hb
  rw [fDiv_inf_left ha nb, fMul_inf na nb (.inl ha), fMag_of_inf ha, fMag_of_inf hb, hb, hne, fAdd_eq_addFrom na nb,
    fSub_eq_addFrom na nb, addFrom_inf_left _ ha, addFrom_inf_left _ ha, hb, hneg, fSign_fNeg]
  refine ⟨by simp, by simp [fIsInf_fMake_infMag], fun hs => ?_, fun hs => ?_⟩
  · cases h1 : fSign a <;> cases h2 : fSign b <;> simp_all
  · cases h1 : fSign a <;> cases h2 : fSign b <;> simp_all

/-- An infinity and a finite value, in every position. -/
theorem inf_finite (ha : fIsInf a = true) (hb : fIsFinite b = true) :
    fAdd a b = a ∧ fSub a b = a ∧ fAdd b a = a ∧ fSub b a = fNeg a ∧ fMag (fDiv b a) = 0 ∧ fIsInf (fDiv a b) = true ∧
      (valueOf b = 0 → fIsNaN (fMul a b) = true ∧ fIsNaN (fMul b a) = true) ∧
      (valueOf b ≠ 0 → fIsInf (fMul a b) = true ∧ fIsInf (fMul b a) = true) := by
  have na := not_nan_of_inf ha
  have nb := not_nan_of_finite hb
  have ib := not_inf_of_finite hb
  have hne : (infMag == 0) = false := by decide
  have hneg : fIsInf (fNeg a) = true := (fIsInf_fNeg a).trans ha
  rw [fAdd_eq_addFrom na nb, fSub_eq_addFrom na nb, fAdd_eq_addFrom nb na, fSub_eq_addFrom nb na, addFrom_inf_left _ ha,
    addFrom_inf_left _ ha, addFrom_inf_right _ hb ha, addFrom_inf_right _ hb hneg, fDiv_inf_right hb ha,
    fDiv_inf_left ha nb, fMul_inf na nb (.inl ha), fMul_inf nb na (.inr ha), fIsInf_fNeg, ib, fMag_of_inf ha, hne,
    fMag_fMake _ (by decide)]
  refine ⟨rfl, rfl, rfl, rfl, rfl, fIsInf_fMake_infMag _, fun h0 => ?_, fun h0 => ?_⟩
  · simp [valueOf_eq_zero_iff.1 h0]
  · simp [mt valueOf_eq_zero_iff.2 h0, fIsInf_fMake_infMag]

/-- A finite value over a zero. -/
theorem finite_over_zero (ha : fIsFinite a = true) (h0 : valueOf b = 0) :
    (valueOf a = 0 → fIsNaN (fDiv a b) = true) ∧ (valueOf a ≠ 0 → fIsInf (fDiv a b) = true) := by
  rw [fDiv_zero_right ha (valueOf_eq_zero_iff.1 h0), ne_eq, valueOf_eq_zero_iff]
  refine ⟨fun h => ?_, fun h => ?_⟩
  · simp [h]
  · simp [h, fIsInf_fMake_infMag]

/-! ### Signs of results (R8) -/

/-- A product that is no NaN is a magnitude under the product of the signs. -/
theorem fMul_cases : fIsNaN (fMul a b) = true ∨ ∃ m < 2 ^ 63, fMul a b = fMake (fSign a != fSign b) m := by
  by_cases hn : fIsNaN a = true ∨ fIsNaN b = true
  · exact .inl (fMul_nan hn)
  obtain ⟨ha, hb⟩ : fIsNaN a = false ∧ fIsNaN b = false := by simpa using hn
  by_cases hi : fIsInf a = true ∨ fIsInf b = true
  · rw [fMul_inf ha hb hi]
    split
    · exact .inl (fIsNaN_fNaN _ _ _)
    · exact .inr ⟨infMag, by decide, rfl⟩
  · have hfa : fIsFinite a = true := by have := class_cases a; simp_all
    have hfb : fIsFinite b = true := by have := class_cases b; simp_all
    exact .inr ⟨_, roundMag_lt_pow _ _, fMul_finite hfa hfb⟩

/-- A quotient that is no NaN likewise. -/
theorem fDiv_cases : fIsNaN (fDiv a b) = true ∨ ∃ m < 2 ^ 63, fDiv a b = fMake (fSign a != fSign b) m := by
  by_cases hn : fIsNaN a = true ∨ fIsNaN b = true
  · exact .inl (fDiv_nan hn)
  obtain ⟨ha, hb⟩ : fIsNaN a = false ∧ fIsNaN b = false := by simpa using hn
  rcases class_cases a with hca | hca | hca
  · rw [ha] at hca; cases hca
  · rw [fDiv_inf_left hca hb]
    split
    · exact .inl (fIsNaN_fNaN _ _ _)
    · exact .inr ⟨infMag, by decide, rfl⟩
  · rcases class_cases b with hcb | hcb | hcb
    · rw [hb] at hcb; cases hcb
    · exact .inr ⟨0, by decide, fDiv_inf_right hca hcb⟩
    · by_cases h0 : fMag b = 0
      · rw [fDiv_zero_right hca h0]
        split
        · exact .inl (fIsNaN_fNaN _ _ _)
        · exact .inr ⟨infMag, by decide, rfl⟩
      · exact .inr ⟨_, roundMag_lt_pow _ _, fDiv_finite hca hcb h0⟩

theorem fSign_fMul (h : fIsNaN (fMul a b) = false) : fSign (fMul a b) = (fSign a != fSign b) := by
  obtain hn | ⟨m, hm, he⟩ := fMul_cases (a := a) (b := b)
  · rw [h] at hn; cases hn
  · rw [he, fSign_fMake _ hm]

theorem fSign_fDiv (h : fIsNaN (fDiv a b) = false) : fSign (fDiv a b) = (fSign a != fSign b) := by
  obtain hn | ⟨m, hm, he⟩ := fDiv_cases (a := a) (b := b)
  · rw [h] at hn; cases hn
  · rw [he, fSign_fMake _ hm]

/-- An exact zero of a sum is `-0.0` where both terms are negative zeros. -/
theorem fAdd_exact_zero (ha : fIsFinite a = true) (hb : fIsFinite b = true) (h0 : valueOf a + valueOf b = 0) :
    fMag (fAdd a b) = 0 ∧ (fSign (fAdd a b) = true ↔ fSign a = true ∧ fSign b = true) := by
  have hsum : fInt a + fInt b = 0 := by
    rw [valueOf, valueOf, ← add_div, div_eq_zero_iff, or_iff_left (by positivity)] at h0
    exact_mod_cast h0
  rw [fAdd_finite ha hb, hsum, roundInt, if_pos rfl, fMag_fMake _ (by decide), fSign_fMake _ (by decide)]
  simp

theorem fSub_exact_zero (ha : fIsFinite a = true) (hb : fIsFinite b = true) (h0 : valueOf a - valueOf b = 0) :
    fMag (fSub a b) = 0 ∧ (fSign (fSub a b) = true ↔ fSign a = true ∧ fSign b = false) := by
  have hdiff : fInt a - fInt b = 0 := by
    rw [valueOf, valueOf, ← sub_div, div_eq_zero_iff, or_iff_left (by positivity)] at h0
    exact_mod_cast h0
  rw [fSub_finite ha hb, hdiff, roundInt, if_pos rfl, fMag_fMake _ (by decide), fSign_fMake _ (by decide)]
  simp

end values

end Sys2Proof.Arithmetic

open Sys2Proof Sys2Proof.Machine Sys2Proof.Safety Sys2Proof.Arithmetic

/-- Settles O53: each operation is a rounded magnitude under the sign of its exact result. -/
theorem operationsRoundToNearest : Obligations.OperationsRoundToNearest := fun _ _ ha hb =>
  ⟨roundsTo_fAdd ha hb, roundsTo_fSub ha hb, roundsTo_fMul ha hb, roundsTo_fDiv ha hb⟩

/-- Settles O54: one clause for each class of operands, the signs by the shape every product and quotient has. -/
theorem specialOperands : Obligations.SpecialOperands := fun a _ =>
  ⟨fun h => ⟨fAdd_nan h, fSub_nan h, fMul_nan h, fDiv_nan h⟩, inf_inf, inf_finite, fun ha h0 _ => finite_over_zero ha h0,
    fAdd_exact_zero, fSub_exact_zero, fSign_fMul, fSign_fDiv, fMag_fNeg a, fSign_fNeg a, fMag_fAbs a, fSign_fAbs a⟩
end

section
/-!
The constants of rule R10 and the configuration of rules R6, R9 and R135.
-/

namespace Sys2Proof.Constants

open Sys2Proof.Machine Sys2Proof.Safety Sys2Proof.Scope Sys2Proof.Tremolo

/-! ### PI (R10) -/

theorem valueOf_PI : valueOf PI = 884279719003555 / 2 ^ 48 := by decide +kernel

/-- The value next above `PI`, `2^-51` away. -/
theorem valueOf_succ_PI : valueOf (PI + 1) = 884279719003555 / 2 ^ 48 + 1 / 2 ^ 51 := by decide +kernel

/-- A value above `PI` is at least the next one. -/
theorem le_PI_or_succ_PI_le (z : F64) : valueOf z ≤ valueOf PI ∨ valueOf (PI + 1) ≤ valueOf z := by
  have hsucc : fKey (PI + 1) = fKey PI + 1 := by decide
  rw [← not_lt, ← not_lt, valueOf_lt_iff, valueOf_lt_iff]
  omega

/-- `PI` is below π, by less than half its distance to the next value, so no other value is nearer. -/
theorem PI_nearest (z : F64) : |((valueOf PI : ℚ) : ℝ) - Real.pi| ≤ |((valueOf z : ℚ) : ℝ) - Real.pi| := by
  have hlow := Real.pi_gt_d20
  have hhigh := Real.pi_lt_d20
  have hPI : ((valueOf PI : ℚ) : ℝ) = 884279719003555 / 2 ^ 48 := by rw [valueOf_PI]; norm_num
  have hbelow : ((valueOf PI : ℚ) : ℝ) ≤ Real.pi := by rw [hPI]; norm_num at hlow ⊢; linarith
  rw [abs_of_nonpos (sub_nonpos.2 hbelow)]
  rcases le_PI_or_succ_PI_le z with hz | hz
  · have hz' : ((valueOf z : ℚ) : ℝ) ≤ (valueOf PI : ℚ) := by exact_mod_cast hz
    rw [abs_of_nonpos (by linarith)]
    linarith
  · have hz' : ((valueOf (PI + 1) : ℚ) : ℝ) ≤ (valueOf z : ℚ) := by exact_mod_cast hz
    have hsucc : ((valueOf (PI + 1) : ℚ) : ℝ) = 884279719003555 / 2 ^ 48 + 1 / 2 ^ 51 := by rw [valueOf_succ_PI]; norm_num
    refine le_trans ?_ (le_abs_self _)
    rw [hPI]
    rw [hsucc] at hz'
    norm_num at hhigh hz' ⊢
    linarith

/-! ### The configuration (R6, R9, R135) -/

theorem hw_num : NumValid hw.num where
  sinZero := rfl
  cosZero := rfl
  sinBound x hx := by
    show inUnitBall (hwSin x) = true
    unfold hwSin
    split_ifs
    · decide
    · exact constrained_ok (by decide)
  cosBound x hx := by
    show inUnitBall (hwCos x) = true
    unfold hwCos
    split_ifs
    · decide
    · exact constrained_ok (by decide)
  expRange x hx hle := by
    show inUnitInterval (hwExp x) = true
    rw [hwExp, hx, hle]
    exact constrained_ok (by decide)
  lnPos x hx hgt := by
    show finitePos (hwLn x) = true
    rw [hwLn, hx, hgt]
    exact constrained_ok (by decide)
  tanPos x hpos hlt := by
    show finitePos (hwTan x) = true
    rw [hwTan, hpos, hlt]
    exact constrained_ok (by decide)

/-- A constant the filter reads is the open one or the silent filter's (entry 21). -/
theorem hw_filtGain : fIsFinite hw.filtGain = true := by
  rcases hw_cases with ⟨_, h⟩ | ⟨_, h⟩ <;> rw [h]
  · exact constrained_ok (by decide)
  · decide

theorem hw_filtA0 : finiteNonzero hw.filtA0 = true := by
  rcases hw_cases with ⟨_, h⟩ | ⟨_, h⟩ <;> rw [h]
  · exact constrained_ok (by decide)
  · decide

theorem hw_stable : filterStable hw = true := by
  rcases hw_cases with ⟨hs, h⟩ | ⟨_, h⟩ <;> rw [h]
  · exact hs
  · exact filterStable_calmed hwOpen

theorem configValid_hw : ConfigValid hw where
  nChannels := by
    show Open.channels % 2 + 1 = 1 ∨ Open.channels % 2 + 1 = 2
    omega
  lfoAmp := rfl
  tremFreq := constrained_ok (ok := finiteNonneg) (by decide)
  tremPeriod := ⟨hw_tremPeriod_pos, hw_tremPeriod_le⟩
  filtGain := hw_filtGain
  filtA0 := hw_filtA0
  bwEps := hw_bwEps
  envTrunc := constrained_ok (ok := finitePos) (by decide)
  envSusEps := constrained_ok (ok := finiteNonneg) (by decide)
  num := hw_num
  stable := hw_stable

end Sys2Proof.Constants

open Sys2Proof Sys2Proof.Machine Sys2Proof.Constants

/-- Settles O56: π lies between the pattern's value and the midpoint to the next; the other constants are evaluated. -/
theorem constantsAreExact : Obligations.ConstantsAreExact :=
  ⟨rfl, rfl, by decide +kernel, fun z _ => PI_nearest z, by decide +kernel, by decide +kernel, by decide +kernel,
    by decide +kernel, by decide +kernel, by decide +kernel⟩

/-- Settles O58: each open value is carried into its constraint, and the three constants of the filter into rule R135's. -/
theorem configurationIsValid : Obligations.ConfigurationIsValid := ⟨configValid_hw, rfl⟩
end

section
/-!
The Phase Oscillator of 41_oscillator: the shapes at their corners (R91 to R95) and the advance with one wrap (R96, R98).
-/

namespace Sys2Proof.Oscillator

open Sys2Proof.Machine Sys2Proof.Safety Sys2Proof.Scope Sys2Proof.Arithmetic

variable {a b x : F64}

/-! ### Opposite operands (R8) -/

theorem fNeg_fMake (neg : Bool) {m : Nat} (hm : m < 2 ^ 63) : fNeg (fMake neg m) = fMake (!neg) m := by
  apply eq_of_sign_mag
  · rw [fSign_fNeg, fSign_fMake _ hm, fSign_fMake _ hm]
  · rw [fMag_fNeg, fMag_fMake _ hm, fMag_fMake _ hm]

/-- Opposite exact sums round to opposite values, but for the sign of zero. -/
theorem roundInt_neg (z z' : Bool) {n : Int} (h : n ≠ 0) : roundInt z (-n) = fNeg (roundInt z' n) := by
  rw [roundInt, roundInt, if_neg (neg_ne_zero.2 h), if_neg h, fNeg_fMake _ (roundMag_lt_pow _ _), Int.natAbs_neg]
  congr 1
  rw [← decide_not, decide_eq_decide]
  omega

/-- The two differences of a finite value and another: both NaN, opposite, or both zero. -/
theorem fSub_swap (hb : fIsFinite b = true) : (fIsNaN (fSub b a) = true ∧ fIsNaN (fSub a b) = true) ∨
    fSub a b = fNeg (fSub b a) ∨ (fMag (fSub b a) = 0 ∧ fMag (fSub a b) = 0) := by
  rcases class_cases a with ha | ha | ha
  · exact .inl ⟨fSub_nan (.inr ha), fSub_nan (.inl ha)⟩
  · obtain ⟨-, hsub, -, hswap, -⟩ := inf_finite ha hb
    refine .inr (.inl ?_)
    rw [hsub, hswap]
    exact eq_of_sign_mag (by simp) (by simp)
  · have hopp : fInt a - fInt b = -(fInt b - fInt a) := by ring
    rw [fSub_finite ha hb, fSub_finite hb ha, hopp]
    by_cases h0 : fInt b - fInt a = 0
    · refine .inr (.inr ?_)
      rw [h0, roundInt_mag, roundInt_mag]
      simp
    · exact .inr (.inl (roundInt_neg _ _ h0))

/-- A product with an opposite factor is opposite, unless it is a NaN. -/
theorem fMul_fNeg : (fIsNaN (fMul a b) = true ∧ fIsNaN (fMul a (fNeg b)) = true) ∨ fMul a (fNeg b) = fNeg (fMul a b) := by
  by_cases hn : fIsNaN a = true ∨ fIsNaN b = true
  · exact .inl ⟨fMul_nan hn, fMul_nan (by rwa [fIsNaN_fNeg])⟩
  obtain ⟨ha, hb⟩ : fIsNaN a = false ∧ fIsNaN b = false := by simpa using hn
  have hb' : fIsNaN (fNeg b) = false := (fIsNaN_fNeg b).trans hb
  have hsign : (fSign a != !fSign b) = !(fSign a != fSign b) := by cases fSign a <;> cases fSign b <;> rfl
  by_cases hi : fIsInf a = true ∨ fIsInf b = true
  · rw [fMul_inf ha hb hi, fMul_inf ha hb' (by rwa [fIsInf_fNeg]), fMag_fNeg, fSign_fNeg, hsign]
    split
    · exact .inl ⟨fIsNaN_fNaN _ _ _, fIsNaN_fNaN _ _ _⟩
    · exact .inr (fNeg_fMake _ (by decide)).symm
  · have hfa : fIsFinite a = true := by have := class_cases a; simp_all
    have hfb : fIsFinite b = true := by have := class_cases b; simp_all
    have hfb' : fIsFinite (fNeg b) = true := (fIsFinite_fNeg b).trans hfb
    rw [fMul_finite hfa hfb, fMul_finite hfa hfb', fMag_fNeg, fSign_fNeg, hsign]
    exact .inr (fNeg_fMake _ (roundMag_lt_pow _ _)).symm

/-- Products with two zeros: both NaN or both zero. -/
theorem fMul_zeros (hx : fMag x = 0) (hb : fMag b = 0) :
    (fIsNaN (fMul a x) = true ∧ fIsNaN (fMul a b) = true) ∨ (fMag (fMul a x) = 0 ∧ fMag (fMul a b) = 0) := by
  have fx : fIsFinite x = true := finite_of_le hx.le (by decide)
  have fb : fIsFinite b = true := finite_of_le hb.le (by decide)
  rcases class_cases a with ha | ha | ha
  · exact .inl ⟨fMul_nan (.inl ha), fMul_nan (.inl ha)⟩
  · obtain ⟨-, -, -, -, -, -, hzx, -⟩ := inf_finite ha fx
    obtain ⟨-, -, -, -, -, -, hzb, -⟩ := inf_finite ha fb
    exact .inl ⟨(hzx (valueOf_eq_zero_iff.2 hx)).1, (hzb (valueOf_eq_zero_iff.2 hb)).1⟩
  · exact .inr ⟨fMag_fMul_zero ha fx (.inr hx), fMag_fMul_zero ha fb (.inr hb)⟩

theorem fMul_negOne (ha : fIsNaN a = false) : fMul a (fNeg one) = fNeg a := by
  obtain ⟨hn, -⟩ | h := fMul_fNeg (a := a) (b := one)
  · rw [fMul_one ha, ha] at hn; cases hn
  · rw [h, fMul_one ha]

/-! ### The shapes (R91 to R95) -/

section shapes
variable (c : Config) (phi : F64)

theorem sawtooths_opposite : (fIsNaN (wave c .sawtooth phi a) = true ∧ fIsNaN (wave c .sawtoothInverse phi a) = true) ∨
    wave c .sawtoothInverse phi a = fNeg (wave c .sawtooth phi a) ∨
      (fMag (wave c .sawtooth phi a) = 0 ∧ fMag (wave c .sawtoothInverse phi a) = 0) := by
  simp only [wave]
  obtain ⟨h1, h2⟩ | h | ⟨h1, h2⟩ := fSub_swap (a := fDiv phi PI) (b := one) (by decide)
  · exact .inl ⟨fMul_nan (.inr h1), fMul_nan (.inr h2)⟩
  · rw [h]
    exact fMul_fNeg.imp id .inl
  · exact (fMul_zeros h1 h2).imp id .inr

theorem square_low (h : fLt phi PI = true) : wave c .square phi a = a := if_pos h

theorem square_high (h : fLt phi PI = false) : wave c .square phi a = fNeg a := if_neg (by rw [h]; decide)

theorem sawtooth_zero (ha : fIsNaN a = false) : wave c .sawtooth 0 a = a := by
  have hshape : fSub one (fDiv 0 PI) = one := by decide +kernel
  rw [wave, hshape, fMul_one ha]

theorem sawtoothInverse_zero (ha : fIsNaN a = false) : wave c .sawtoothInverse 0 a = fNeg a := by
  have hshape : fSub (fDiv 0 PI) one = fNeg one := by decide +kernel
  rw [wave, hshape, fMul_negOne ha]

theorem triangle_zero (ha : fIsNaN a = false) : wave c .triangle 0 a = fNeg a := by
  have hshape : fSub (fDiv (fMul two 0) PI) one = fNeg one := by decide +kernel
  rw [wave, if_pos (by decide), hshape, fMul_negOne ha]

theorem triangle_PI (ha : fIsNaN a = false) : wave c .triangle PI a = a := by
  have hshape : fSub three (fDiv (fMul two PI) PI) = one := by decide +kernel
  rw [wave, if_neg (by decide), hshape, fMul_one ha]

end shapes

end Sys2Proof.Oscillator

open Sys2Proof Sys2Proof.Machine Sys2Proof.Constants Sys2Proof.Scope Sys2Proof.Oscillator

/-- Settles O30: the sine's arm of `wave` does not name the amplitude. -/
theorem sineIgnoresAmplitude : Obligations.SineIgnoresAmplitude := by
  intro f a b s
  refine ⟨runGen hw .osc1 .sine f a s, runGen hw .osc2 .sine f a s, runGen hw .lfo .sine f hw.lfoAmp s, rfl, rfl, rfl, rfl,
    rfl, rfl, rfl, rfl, hw_num.sinZero, fun phi hphi => ?_⟩
  exact Bool.and_eq_true_iff.1 (hw_num.sinBound phi hphi)

/-- Settles O31: at these phases each shape's factor is 1.0 or -1.0. -/
theorem waveCornerValues : Obligations.WaveCornerValues := fun a ha =>
  ⟨square_low hw 0 (by decide), sawtooth_zero hw ha, triangle_zero hw ha, sawtoothInverse_zero hw ha,
    square_high hw PI (by decide), triangle_PI hw ha, fun phi hphi => square_high hw phi (comparisons_nan (.inl hphi)).1⟩

/-- Settles O32: the factors are the two differences of 1.0 and the phase's quotient, which are opposite but for a zero's sign. -/
theorem sawtoothsAreOpposite : Obligations.SawtoothsAreOpposite := fun phi _ => sawtooths_opposite hw phi
end

section
/-!
The phases of 41_oscillator section 3: one wrap keeps a phase in `[0, TWO_PI)` (R96, R98), along every step while the host
keeps its duty (70_reset R240).
-/

namespace Sys2Proof.Phase

open Sys2Proof.Machine Sys2Proof.Safety Sys2Proof.Scope Sys2Proof.Tremolo

variable {a b x q : F64}

/-! ### Sums and differences that are not negative (R8) -/

theorem fInt_roundInt_nonneg {z : Bool} {n : Int} (h : 0 ≤ n) : 0 ≤ fInt (roundInt z n) := by
  unfold roundInt
  split
  · simp [fInt, fMag_fMake]
  · apply fInt_nonneg
    rw [fSign_fMake _ (roundMag_lt_pow _ _), decide_eq_false_iff_not]
    omega

/-- A value that is not negative is its magnitude's units. -/
theorem fInt_eq_units (h : 0 ≤ fInt x) : fInt x = magUnits (fMag x) := by
  rw [← fInt_natAbs, Int.natAbs_of_nonneg h]

/-- A sum that is not negative rounds to at most a magnitude that bounds it. -/
theorem fAdd_bounds (ha : fIsFinite a = true) (hb : fIsFinite b = true) (h0 : 0 ≤ fInt a + fInt b) {m : Nat}
    (hm : fInt a + fInt b ≤ magUnits m) : 0 ≤ fInt (fAdd a b) ∧ fMag (fAdd a b) ≤ m := by
  refine ⟨?_, fMag_fAdd_le ha hb (by omega)⟩
  rw [fAdd_finite ha hb]
  exact fInt_roundInt_nonneg h0

theorem fSub_bounds (ha : fIsFinite a = true) (hb : fIsFinite b = true) (h0 : 0 ≤ fInt a - fInt b) {m : Nat}
    (hm : fInt a - fInt b ≤ magUnits m) : 0 ≤ fInt (fSub a b) ∧ fMag (fSub a b) ≤ m := by
  refine ⟨?_, fMag_fSub_le ha hb (by omega)⟩
  rw [fSub_finite ha hb]
  exact fInt_roundInt_nonneg h0

/-! ### The range of a phase (R98) -/

/-- The magnitude just below `TWO_PI`, and that of its double. -/
def topMag : Nat := fMag TWO_PI - 1

theorem magUnits_double_topMag : magUnits (topMag + 2 ^ 52) = 2 * magUnits topMag := by decide +kernel

/-- A value in `[0, TWO_PI)` is finite, not negative and at most the one just below `TWO_PI`. -/
theorem inRange_iff : fLe 0 x = true ∧ fLt x TWO_PI = true ↔ fIsFinite x = true ∧ 0 ≤ fInt x ∧ fMag x ≤ topMag := by
  have hkey : fKey TWO_PI = topMag + 1 := by decide
  have htop : topMag < infMag := by decide
  have hnan : fIsNaN TWO_PI = false := by decide
  have hnan0 : fIsNaN 0 = false := by decide
  have hzero : fKey 0 = 0 := by decide
  have hsign : 0 ≤ fInt x ↔ 0 ≤ fKey x := by simpa using fInt_le_iff (a := 0) (b := x)
  rw [fLe_iff, fLt_iff, hkey, hnan, hnan0, hzero, hsign, fIsFinite_iff, ← Bool.not_eq_true (fIsNaN x), fIsNaN_iff]
  have hcases : fKey x = fMag x ∨ fKey x = -fMag x := by unfold fKey; split <;> simp
  simp only [true_and]
  omega

theorem fInt_le_of_fMag_le (h0 : 0 ≤ fInt x) {m : Nat} (h : fMag x ≤ m) : fInt x ≤ magUnits m := by
  rw [fInt_eq_units h0]
  exact_mod_cast magUnits_le_iff.2 h

/-- One wrap brings a value below twice `TWO_PI` into range: the difference is exact enough to stay below it. -/
theorem wrapOnce_inRange (h0 : 0 ≤ fInt q) (hq : fMag q ≤ topMag + 2 ^ 52) : phaseInRange (wrapOnce q) := by
  have hfin : fIsFinite q = true := finite_of_le hq (by decide)
  have hint := fInt_le_of_fMag_le h0 hq
  rw [magUnits_double_topMag] at hint
  have hfin' : fIsFinite TWO_PI = true := by decide
  have htop : fInt TWO_PI = magUnits (topMag + 1) := by decide +kernel
  have hlt : magUnits topMag < magUnits (topMag + 1) := magUnits_lt_succ topMag
  unfold wrapOnce
  split
  · next hge =>
    obtain ⟨-, -, hkey⟩ := fLe_iff.1 hge
    have hle := fInt_le_iff.2 hkey
    have hwrap := fSub_bounds hfin hfin' (m := topMag) (by omega) (by omega)
    exact inRange_iff.2 ⟨finite_of_le hwrap.2 (by decide), hwrap⟩
  · next hge =>
    refine inRange_iff.2 ⟨hfin, h0, ?_⟩
    by_contra hc
    refine hge (fLe_iff.2 ⟨by decide, not_nan_of_finite hfin, ?_⟩)
    rw [← fInt_le_iff, htop, fInt_eq_units h0]
    exact_mod_cast magUnits_le_iff.2 (by omega)

/-- The advance keeps a phase in range under the premise on the increment (R98). -/
theorem advance_inRange {sr f phi : F64} (hinc : incInRange sr f) (hphi : phaseInRange phi) :
    phaseInRange (advance sr f phi) := by
  obtain ⟨hfin, h0, htop⟩ := inRange_iff.1 hphi
  obtain ⟨hfin', h0', htop'⟩ := inRange_iff.1 hinc
  have hint := fInt_le_of_fMag_le h0 htop
  have hint' := fInt_le_of_fMag_le h0' htop'
  have hdouble := magUnits_double_topMag
  obtain ⟨hq, hqtop⟩ := fAdd_bounds hfin hfin' (m := topMag + 2 ^ 52) (by omega) (by omega)
  exact wrapOnce_inRange hq hqtop

theorem phaseInRange_zero : phaseInRange 0 := by unfold phaseInRange; decide

/-! ### Every step (R240) -/

theorem phasesInRange_initWith {sr : F64} {s t : State} (h : initWith sr s = .next t) : phasesInRange t := by
  rw [initWith_next s h]
  exact ⟨phaseInRange_zero, phaseInRange_zero, phaseInRange_zero⟩

/-- The body keeps the phases in range: each advances under the duty or holds. -/
theorem phasesInRange_frameBody {p : Snapshot} {s : State} (h : phasesInRange s) (hduty : frequencyDuty s.sampleRate p) :
    phasesInRange (frameBody hw p s) := by
  obtain ⟨h1, h2, hl⟩ := h
  obtain ⟨d1, d2, dl⟩ := hduty
  unfold phasesInRange
  rw [frameBody_osc]
  refine ⟨?_, ?_, ?_⟩ <;> dsimp only <;> split_ifs with hon
  · simp only [Bool.and_eq_true, Bool.not_eq_true'] at hon
    exact advance_inRange (d1 hon.1 hon.2) h1
  · exact h1
  · simp only [Bool.and_eq_true, Bool.not_eq_true'] at hon
    exact advance_inRange (d2 hon.1 hon.2) h2
  · exact h2
  · exact advance_inRange (dl hon.1 hon.2) hl
  · exact hl

end Sys2Proof.Phase

open Sys2Proof Sys2Proof.Machine Sys2Proof.Safety Sys2Proof.Tremolo Sys2Proof.Phase

/-- Settles O33: the sum of two values below `TWO_PI` is below twice it, and one subtraction brings it back. -/
theorem wrapInvariant : Obligations.WrapInvariant := by
  refine ⟨phaseInRange_zero, fun w f a s hinc => ⟨fun h => ?_, fun h => ?_, fun h => ?_⟩⟩
  · exact ⟨_, exec_genOsc1 s w f a, advance_inRange hinc h⟩
  · exact ⟨_, exec_genOsc2 s w f a, advance_inRange hinc h⟩
  · exact ⟨_, exec_genLfo s w f, advance_inRange hinc h⟩

/-- Settles O34: an idle step changes nothing, INIT and RESET write zeros, and a PROC advances under its frame's duty. -/
theorem phasesStayInRange : Obligations.PhasesStayInRange := by
  intro s t hphases hduty h
  obtain ⟨-, rfl⟩ | ⟨f, rest, i, hport, hok, hexec⟩ := step_next h
  · exact hphases
  · obtain rfl | rfl | ⟨w1, w2, wl, rfl⟩ := decode_ok_cases hok
    · exact phasesInRange_initWith hexec
    · exact phasesInRange_initWith hexec
    · rw [execProc_next _ _ hexec]
      exact phasesInRange_frameBody (s := { s with port := rest }) hphases (hduty f rest _ hport hok)
end

section
/-!
Corner cases of the advance (41_oscillator section 3) and of the amplitude law (42_tremolo R111), and the square tone that
completes (45_frame).
-/

namespace Sys2Proof.Corners

open Sys2Proof.Machine Sys2Proof.Safety Sys2Proof.Scope Sys2Proof.Arithmetic Sys2Proof.Phase Sys2Proof.FrameBody

variable {a b x : F64}

/-! ### Sums and products with zeros and ones (R8) -/

/-- A zero added changes no value that has a magnitude. -/
theorem fAdd_zero_right (ha : fIsFinite a = true) (h0 : fMag a ≠ 0) (hb : fMag b = 0) : fAdd a b = a := by
  have hb0 : fInt b = 0 := by unfold fInt; simp [hb]
  have ha0 : fInt a ≠ 0 := by
    rw [← Int.natAbs_ne_zero, fInt_natAbs]
    exact (magUnits_pos (Nat.pos_of_ne_zero h0)).ne'
  rw [fAdd_finite ha (finite_of_le hb.le (by decide)), hb0, add_zero, roundInt_fInt ha ha0]

theorem fAdd_posZero (ha : fIsFinite a = true) (hs : fSign a = false) : fAdd a 0 = a := by
  by_cases h0 : fMag a = 0
  · have hzero : a = 0 := eq_of_sign_mag hs h0
    rw [hzero, fAdd_zero_zero]
  · exact fAdd_zero_right ha h0 (by decide)

theorem one_fMul (ha : fIsNaN a = false) : fMul one a = a := by
  rcases class_cases a with h | h | h
  · rw [ha] at h; cases h
  · have hne : (fMag one == 0 || fMag a == 0) = false := by rw [fMag_of_inf h]; decide
    rw [fMul_inf (by decide) ha (.inr h), hne, if_neg (by decide)]
    apply eq_of_sign_mag
    · rw [fSign_fMake _ (by decide)]; simp [show fSign one = false by decide]
    · rw [fMag_fMake _ (by decide), fMag_of_inf h]
  · rw [fMul_comm (by decide) h, fMul_one ha]

/-! ### The advance (R96) -/

section advance
variable {sr f phi : F64}

/-- A frequency of `+0.0` holds a phase of the range with a clear sign. -/
theorem advance_zero (hpos : fGt sr 0 = true) (hfin : fIsFinite sr = true) (hphi : phaseInRange phi)
    (hs : fSign phi = false) : advance sr 0 phi = phi := by
  have hprod : fMul TWO_PI 0 = 0 := by decide +kernel
  have hsr : fMag sr ≠ 0 := by
    obtain ⟨-, -, hkey⟩ := fLt_iff.1 hpos
    intro h0
    simp [fKey, h0] at hkey
  have hsign : fSign sr = false := fSign_of_finitePos (by rw [finitePos, hfin, hpos]; rfl)
  have hinc : phaseInc sr 0 = 0 := by
    rw [phaseInc, hprod, fDiv_finite (by decide) hfin hsr, hsign, show fMag 0 = 0 from fMag_zero, magUnits_zero,
      Nat.zero_mul, roundMag_zero (magUnits_pos (Nat.pos_of_ne_zero hsr))]
    decide
  obtain ⟨hpfin, -, -⟩ := inRange_iff.1 hphi
  obtain ⟨-, hlt⟩ := hphi
  have hbelow : fGe phi TWO_PI = false := by
    obtain ⟨h1, h2, hkey⟩ := fLt_iff.1 hlt
    rw [← Bool.not_eq_true, fGe, fLe_iff]
    omega
  rw [advance, hinc, fAdd_posZero hpfin hs, wrapOnce, hbelow]
  rfl

/-- A NaN frequency makes the phase a NaN. -/
theorem advance_nan (h : fIsNaN f = true) : fIsNaN (advance sr f phi) = true := by
  have hinc : fIsNaN (phaseInc sr f) = true := fDiv_nan (.inl (fMul_nan (.inr h)))
  have hsum : fIsNaN (fAdd phi (phaseInc sr f)) = true := fAdd_nan (.inr hinc)
  rw [advance, wrapOnce]
  split
  · exact fSub_nan (.inl hsum)
  · exact hsum

end advance

/-! ### The amplitude law (R111) -/

section tremolo
variable {c : Config} {d phase : F64}

/-- A value of the unit ball is at most 1.0 in magnitude. -/
theorem fMag_le_of_unitBall (h : inUnitBall x = true) : fMag x ≤ fMag one := by
  obtain ⟨hlow, hhigh⟩ := Bool.and_eq_true_iff.1 h
  obtain ⟨-, -, hl⟩ := fLe_iff.1 hlow
  obtain ⟨-, -, hh⟩ := fLe_iff.1 hhigh
  have hkeys : fKey (fNeg one) = -fMag one ∧ fKey one = fMag one := by decide
  have hcases : fKey x = fMag x ∨ fKey x = -fMag x := by unfold fKey; split <;> simp
  omega

theorem fMag_le_of_unitInterval (h0 : fLe 0 x = true) (h1 : fLe x one = true) : fMag x ≤ fMag one := by
  obtain ⟨-, -, hl⟩ := fLe_iff.1 h0
  obtain ⟨-, -, hh⟩ := fLe_iff.1 h1
  have hkeys : fKey 0 = 0 ∧ fKey one = fMag one := by decide
  have hcases : fKey x = fMag x ∨ fKey x = -fMag x := by unfold fKey; split <;> simp
  omega

/-- A product of two factors of at most 1.0 in magnitude is at most 1.0 in magnitude. -/
theorem fMag_fMul_unit (ha : fMag a ≤ fMag one) (hb : fMag b ≤ fMag one) : fMag (fMul a b) ≤ fMag one := by
  refine fMag_fMul_le (finite_of_le ha (by decide)) (finite_of_le hb (by decide)) ?_
  rw [← magUnits_one]
  exact Nat.mul_le_mul (magUnits_le_iff.2 ha) (magUnits_le_iff.2 hb)

theorem finite_cos (hn : NumValid c.num) (h : fIsFinite phase = true) : fIsFinite (c.num.cos phase) = true :=
  finite_of_le (fMag_le_of_unitBall (hn.cosBound phase h)) (by decide)

/-- Depth `+0.0` leaves a gain of 1.0. -/
theorem tremGain_zero (hn : NumValid c.num) (h : fIsFinite phase = true) : tremGain c 0 phase = one :=
  fAdd_zero_right (by decide) (by decide) (fMag_fMul_zero (by decide) (finite_cos hn h) (.inl (by decide)))

/-- At slow phase `+0.0` the gain is `1.0 + d`. -/
theorem tremGain_at_zero (hn : NumValid c.num) (hd : fIsNaN d = false) : tremGain c d 0 = fAdd one d := by
  rw [tremGain, hn.cosZero, fMul_one hd]

theorem fIsNaN_one_add (hd : fIsNaN d = false) : fIsNaN (fAdd one d) = false := by
  rcases class_cases d with h | h | h
  · rw [hd] at h; cases h
  · obtain ⟨-, -, hadd, -⟩ := inf_finite h (b := one) (by decide)
    rw [hadd]; exact hd
  · rw [fAdd_finite (by decide) h]
    unfold roundInt
    split
    · cases fSign one && fSign d <;> decide
    · exact fIsNaN_make_roundMag _ _ _

/-- A depth in `[0, 1]` leaves a gain in `[0, 2]`. -/
theorem tremGain_bounds (hn : NumValid c.num) (h : fIsFinite phase = true) (h0 : fLe 0 d = true) (h1 : fLe d one = true) :
    fLe 0 (tremGain c d phase) = true ∧ fLe (tremGain c d phase) two = true := by
  have hprod := fMag_fMul_unit (fMag_le_of_unitInterval h0 h1) (fMag_le_of_unitBall (hn.cosBound phase h))
  have hunits := magUnits_le_iff.2 hprod
  rw [← fInt_natAbs] at hunits
  have hone : fInt one = magUnits (fMag one) := by decide +kernel
  have htwo : magUnits (fMag two) = 2 * magUnits (fMag one) := by decide +kernel
  obtain ⟨hnonneg, hmag⟩ := fAdd_bounds (a := one) (m := fMag two) (by decide) (finite_of_le hprod (by decide))
    (by omega) (by omega)
  have hnan : fIsNaN (tremGain c d phase) = false := not_nan_of_finite (finite_of_le hmag (by decide))
  have hkeys : fKey two = fMag two := by decide
  have hcases : fKey (tremGain c d phase) ≤ fMag (tremGain c d phase) := by unfold fKey; split <;> omega
  refine ⟨fLe_iff.2 ⟨by decide, hnan, ?_⟩, fLe_iff.2 ⟨hnan, by decide, ?_⟩⟩
  · exact fInt_le_iff.1 hnonneg
  · rw [hkeys]; exact hcases.trans (by exact_mod_cast hmag)

end tremolo

/-! ### A square tone (R92, R183) -/

section tone
variable {p : Snapshot} {s : State}

/-- The square's sample of a finite amplitude is finite. -/
theorem finite_square (c : Config) (phi : F64) (ha : fIsFinite a = true) : fIsFinite (wave c .square phi a) = true := by
  show fIsFinite (if fLt phi PI then a else fNeg a) = true
  split
  · exact ha
  · exact (fIsFinite_fNeg a).trans ha

/-- A finite sample and a silent one mixed, times a volume in `[0, 1]`, are finite. -/
theorem finite_scaled (hx : fIsFinite x = true) (h0 : fLe 0 b = true) (h1 : fLe b one = true) :
    fIsFinite (fMul (fAdd x 0) b) = true := by
  have hsum : fIsFinite (fAdd x 0) = true :=
    fIsFinite_iff.2 ((fMag_fAdd_zero hx (by decide)).trans_lt (fIsFinite_iff.1 hx))
  exact finite_fMul_unit hsum (fMag_le_of_unitInterval h0 h1)

/-- The output of a body that runs OSC1 alone. -/
theorem output_onlyOsc1 (hmute : p.mute = false) (h1 : p.osc1En = true) (h2 : p.osc2En = false) (hlfo : p.lfoEn = false)
    (hfilt : p.filtEn = false) (henv : p.envEn = false) :
    output hw p s = fMul (fAdd (wave hw p.osc1Wave s.osc.osc1 p.osc1Amp) 0) p.volume := by
  simp only [output, shaped, filtered, modulated, mixed, hmute, h1, h2, hlfo, hfilt, henv, Bool.not_false, Bool.and_true,
    Bool.and_false, Bool.false_eq_true, false_and, if_true, if_false]

/-- Its registers are finite where OSC1's phase stays so. -/
theorem registersFinite_onlyOsc1 (hmute : p.mute = false) (h1 : p.osc1En = true) (h2 : p.osc2En = false)
    (hlfo : p.lfoEn = false) (hfilt : p.filtEn = false) (henv : p.envEn = false) (hregs : registersFinite s = true)
    (hphase : fIsFinite (advance s.sampleRate p.osc1Freq s.osc.osc1) = true) :
    registersFinite (frameBody hw p s) = true := by
  simp only [registersFinite, f64Registers, List.all_cons, List.all_nil, Bool.and_true, Bool.and_eq_true, frameBody_osc,
    frameBody_trem, frameBody_filt, frameBody_env, frameBody_sampleRate, hmute, h1, h2, hlfo, hfilt, henv, Bool.not_false,
    Bool.and_false, Bool.false_eq_true, false_and, if_true, if_false] at hregs ⊢
  obtain ⟨-, hosc2, hlfo, htrem, hx1, hx2, hy1, hy2, -, hrate⟩ := hregs
  exact ⟨hphase, hosc2, hlfo, htrem, hx1, hx2, hy1, hy2, fIsFinite_zero, hrate⟩

/-- PROC completes once initialised where the body leaves finite values. -/
theorem execProc_completes (hon : s.inited = true) (hregs : registersFinite (frameBody hw p s) = true)
    (hout : fIsFinite (frameBody hw p s).nodes.out = true) :
    execProc p s = .next (respond (frameBody hw p s).out (frameBody hw p s)) := by
  rw [execProc, if_pos hon]
  exact checkFinite_of_finite (respond _ (frameBody hw p s)) hregs hout

end tone

end Sys2Proof.Corners

open Sys2Proof Sys2Proof.Machine Sys2Proof.Safety Sys2Proof.Constants Sys2Proof.Phase Sys2Proof.FrameBody Sys2Proof.Corners

/-- Settles O35: a `+0.0` increment is added without effect below `TWO_PI`, and a NaN one passes through every operation. -/
theorem advanceCornerCases : Obligations.AdvanceCornerCases := by
  intro w a s hpos hfin
  refine ⟨fun h hs => ⟨_, exec_genOsc1 s w 0 a, ?_⟩, fun h hs => ⟨_, exec_genOsc2 s w 0 a, ?_⟩,
    fun h hs => ⟨_, exec_genLfo s w 0, ?_⟩, fun f hf => ?_⟩
  · rw [runGen_osc1, advance_zero hpos hfin h hs]
  · rw [runGen_osc2, advance_zero hpos hfin h hs]
  · rw [runGen_lfo, advance_zero hpos hfin h hs]
  · exact ⟨_, _, _, exec_genOsc1 s w f a, exec_genOsc2 s w f a, exec_genLfo s w f, advance_nan hf, advance_nan hf,
      advance_nan hf⟩

/-- Settles O38: the gain at depth `+0.0` is 1.0, at slow phase `+0.0` it is `1.0 + d`, and else 1.0 and at most 1.0 either way. -/
theorem tremoloDepthLaw : Obligations.TremoloDepthLaw := by
  intro d s
  refine ⟨runTrem hw d s, runTrem hw 0 s, rfl, rfl, fun hfin hl => ?_, fun hphase hl hd => ?_, fun hfin hl h0 h1 => ?_⟩ <;>
    rw [runTrem_eq]
  · show fMul s.nodes.l (tremGain hw 0 s.trem.modphase) = s.nodes.l
    rw [tremGain_zero hw_num hfin, fMul_one hl]
  · show fMul s.nodes.l (tremGain hw d s.trem.modphase) = fAdd one d
    rw [hl, hphase, tremGain_at_zero hw_num hd, one_fMul (fIsNaN_one_add hd)]
  · have hgain := tremGain_bounds hw_num hfin h0 h1
    have htg : fMul s.nodes.l (tremGain hw d s.trem.modphase) = tremGain hw d s.trem.modphase := by
      rw [hl, one_fMul (fLe_iff.1 hgain.1).2.1]
    show fLe 0 (fMul s.nodes.l (tremGain hw d s.trem.modphase)) = true ∧ _
    rw [htg]
    exact hgain

/-- Settles O24: the phase stays in range, the sample is the amplitude or its opposite, and the volume shrinks it. -/
theorem squareToneCompletes : Obligations.SquareToneCompletes := by
  intro p s hon hregs hmute h1 hw1 h2 hlfo hfilt henv hamp hv0 hv1 hphase hinc
  have hadvance := advance_inRange hinc hphase
  have hout : (frameBody hw p s).nodes.out = fMul (fAdd (wave hw .square s.osc.osc1 p.osc1Amp) 0) p.volume := by
    rw [frameBody_nodes_out, output_onlyOsc1 hmute h1 h2 hlfo hfilt henv, hw1]
  have hfin : fIsFinite (frameBody hw p s).nodes.out = true := by
    rw [hout]; exact finite_scaled (finite_square hw _ hamp) hv0 hv1
  refine ⟨_, execProc_completes hon
    (registersFinite_onlyOsc1 hmute h1 h2 hlfo hfilt henv hregs (inRange_iff.1 hadvance).1) hfin, ?_, ?_⟩
  · simpa [frameBody_osc, hmute, h1] using hadvance
  · rw [respond_response, frameBody_out, hout]
    rfl
end

section
/-!
The Envelope Generator of 44_envelope: the stage counts (R147), the row written out (R148 to R155, R160), the first call after
idling (R158) and the monotonicity of Release (R153).
-/

namespace Sys2Proof.EnvelopeLaw

open Sys2Proof.Machine Sys2Proof.Safety Sys2Proof.Scope Sys2Proof.Arithmetic Sys2Proof.Corners

variable {a b x : F64}

/-! ### Stage counts (R147) -/

theorem fLe_trans (hab : fLe a b = true) (hbx : fLe b x = true) : fLe a x = true := by
  obtain ⟨ha, -, h1⟩ := fLe_iff.1 hab
  obtain ⟨-, hx, h2⟩ := fLe_iff.1 hbx
  exact fLe_iff.2 ⟨ha, hx, h1.trans h2⟩

theorem countOf_low (h : fGe x one = false) : countOf x = 1 := by
  rw [countOf, h]; rfl

theorem countOf_high (h : fGe x twoPow62 = true) : countOf x = 2 ^ 62 := by
  have hone : fGe x one = true := fLe_trans (by decide) h
  rw [countOf, hone, h]; rfl

theorem countOf_mid (h1 : fGe x one = true) (h2 : fGe x twoPow62 = false) : countOf x = fTrunc x := by
  rw [countOf, h1, h2]; rfl

theorem one_le_countOf (x : F64) : 1 ≤ countOf x := by
  cases h1 : fGe x one
  · rw [countOf_low h1]
  · cases h2 : fGe x twoPow62
    · have htrunc : fTrunc one = 1 := by decide +kernel
      rw [countOf_mid h1 h2, ← htrunc]
      exact fTrunc_mono (by decide) (fLe_trans (by decide) h1) h1
    · rw [countOf_high h2]; decide

/-! ### The stage and its level (R148 to R153) -/

section stages
variable (c : Config) (sus v : F64)

/-- The level the selected stage writes. -/
theorem stageLevel_stageOf (e n d r : Nat) : stageLevel c (stageOf c e v sus n d) v sus n d r =
    if e < n then approach (fAdd one c.envTrunc) v (stageCoef c n)
    else if e ≤ n + d then
      (if fLe (fAbs (fSub v sus)) c.envSusEps then sus else approach sus v (stageCoef c d))
    else fMul v (stageCoef c r) := by
  unfold stageOf
  split_ifs <;> rfl

/-- A stage count is at least 1, so a counter at 0 selects Attack (R147, R158). -/
theorem envStage_idle (att dec : F64) (s : State) : envStage c att dec sus (envIdle s) = .attack :=
  if_pos (one_le_countOf _)

end stages

/-! ### Release (R153) -/

section release
variable {c : Config} {n : Nat}

/-- A value that is at least zero is a zero or has a clear sign. -/
theorem fLe_zero_iff : fLe 0 x = true ↔ fIsNaN x = false ∧ (fMag x = 0 ∨ fSign x = false) := by
  have hzero : fKey 0 = 0 ∧ fIsNaN 0 = false := by decide
  rw [fLe_iff, hzero.1, hzero.2, fKey]
  cases fSign x <;> simp

theorem fLe_to_zero_iff : fLe x 0 = true ↔ fIsNaN x = false ∧ (fMag x = 0 ∨ fSign x = true) := by
  have hzero : fKey 0 = 0 ∧ fIsNaN 0 = false := by decide
  rw [fLe_iff, hzero.1, hzero.2, fKey]
  cases fSign x <;> simp

/-- A stage count as an F64 is finite, at least 1.0, and has a clear sign. -/
theorem toF64_count (h1 : 1 ≤ n) (h2 : n ≤ 2 ^ 62) :
    fIsFinite (toF64 n) = true ∧ fMag one ≤ fMag (toF64 n) ∧ fSign (toF64 n) = false := by
  have htop : magUnits (fMag twoPow62) = 2 ^ 62 * 2 ^ 1074 := by decide +kernel
  have hmag : fMag (toF64 n) = roundMag (n * 2 ^ 1074) 1 := fMag_fMake _ (roundMag_lt_pow _ _)
  have hlow : fMag one ≤ fMag (toF64 n) := by
    rw [hmag]
    refine le_roundMag Nat.one_pos (by decide) ?_
    rw [magUnits_one, Nat.mul_one]
    exact Nat.le_mul_of_pos_left _ h1
  have hhigh : fMag (toF64 n) ≤ fMag twoPow62 := by
    rw [hmag]
    refine roundMag_le Nat.one_pos ?_
    rw [htop, Nat.mul_one]
    exact Nat.mul_le_mul_right _ h2
  exact ⟨finite_of_le hhigh (by decide), hlow, fSign_fMake _ (roundMag_lt_pow _ _)⟩

/-- A quotient of values with clear signs, the dividend at least the divisor, is 1.0, infinite, or finite and above 1.0. -/
theorem ratio_cases (hb : fIsFinite b = true) (h0 : fMag b ≠ 0) (ha : fIsNaN a = false) (hs : fSign a = false)
    (hs' : fSign b = false) (hle : fMag b ≤ fMag a) :
    fDiv a b = one ∨ fDiv a b = posInf ∨ fIsFinite (fDiv a b) = true ∧ fGt (fDiv a b) one = true := by
  have hshape : ∃ m, fMag one ≤ m ∧ m ≤ infMag ∧ fDiv a b = fMake false m := by
    rcases class_cases a with h | h | h
    · rw [ha] at h; cases h
    · rw [fDiv_inf_left h (not_nan_of_finite hb), not_inf_of_finite hb, hs, hs']
      exact ⟨infMag, by decide, le_rfl, rfl⟩
    · rw [fDiv_finite h hb h0, hs, hs']
      refine ⟨_, le_roundMag (magUnits_pos (Nat.pos_of_ne_zero h0)) (by decide) ?_, roundMag_le_inf _ _, rfl⟩
      rw [magUnits_one, Nat.mul_comm]
      exact Nat.mul_le_mul_right _ (magUnits_le_iff.2 hle)
  obtain ⟨m, hlow, hhigh, he⟩ := hshape
  have hm : m < 2 ^ 63 := lt_of_le_of_lt hhigh (by decide)
  rw [he]
  rcases hlow.eq_or_lt with h1 | h1
  · exact .inl (h1 ▸ by decide)
  rcases hhigh.eq_or_lt with h2 | h2
  · exact .inr (.inl (h2 ▸ by decide))
  · have hfin : fIsFinite (fMake false m) = true := fIsFinite_iff.2 (by rwa [fMag_fMake _ hm])
    refine .inr (.inr ⟨hfin, fLt_iff.2 ⟨by decide, not_nan_of_finite hfin, ?_⟩⟩)
    have hone : fKey one = fMag one := by decide
    rw [hone, fKey, fSign_fMake _ hm, fMag_fMake _ hm, if_neg (by decide)]
    exact_mod_cast h1

/-- The ratio of a valid `ENV_TRUNC` (R149). -/
theorem envRatio_cases {T : F64} (hT : finitePos T = true) : fDiv (fAdd one T) T = one ∨ fDiv (fAdd one T) T = posInf ∨
    fIsFinite (fDiv (fAdd one T) T) = true ∧ fGt (fDiv (fAdd one T) T) one = true := by
  obtain ⟨hfin, hpos⟩ := Bool.and_eq_true_iff.1 hT
  have hs := fSign_of_finitePos hT
  have h0 : fMag T ≠ 0 := by
    obtain ⟨-, -, hkey⟩ := fLt_iff.1 hpos
    intro h0
    simp [fKey, h0] at hkey
  obtain ⟨-, hsum, hnan⟩ := fAdd_nonneg (a := one) (by decide) hfin (by decide) hs
  have hle : fMag T ≤ fMag (fAdd one T) := by
    have hcomm : fAdd one T = fAdd T one := by
      rw [fAdd_finite (by decide) hfin, fAdd_finite hfin (by decide), Bool.and_comm, add_comm]
    rw [hcomm]
    exact (fAdd_nonneg hfin (by decide) hs (by decide)).1
  exact ratio_cases hfin h0 hnan hsum hs hle

/-- A finite logarithm that is not negative, negated and divided by a count, is finite and not positive. -/
theorem exponent_nonpos (h1 : 1 ≤ n) (h2 : n ≤ 2 ^ 62) (hx : finiteNonneg x = true) :
    fIsFinite (fDiv (fNeg x) (toF64 n)) = true ∧ fLe (fDiv (fNeg x) (toF64 n)) 0 = true := by
  obtain ⟨hfin, hnonneg⟩ := Bool.and_eq_true_iff.1 hx
  obtain ⟨-, hsign⟩ := fLe_zero_iff.1 hnonneg
  obtain ⟨hnfin, hnlow, hnsign⟩ := toF64_count h1 h2
  have hnfin' : fIsFinite (fNeg x) = true := (fIsFinite_fNeg x).trans hfin
  have hn0 : fMag (toF64 n) ≠ 0 := by
    have : 0 < fMag one := by decide
    omega
  have hmag : fMag (fDiv (fNeg x) (toF64 n)) ≤ fMag x := by
    refine fMag_fDiv_le hnfin' hnfin hn0 ?_
    rw [fMag_fNeg, ← magUnits_one]
    exact Nat.mul_le_mul_left _ (magUnits_le_iff.2 hnlow)
  have hqfin := finite_of_le hmag (fIsFinite_iff.1 hfin)
  refine ⟨hqfin, fLe_to_zero_iff.2 ⟨not_nan_of_finite hqfin, hsign.imp (fun h0 => by omega) fun hs => ?_⟩⟩
  rw [fDiv_finite hnfin' hnfin hn0, fSign_fMake _ (roundMag_lt_pow _ _), fSign_fNeg, hs, hnsign]
  rfl

theorem exponent_inf (h1 : 1 ≤ n) (h2 : n ≤ 2 ^ 62) : fDiv (fNeg posInf) (toF64 n) = fNeg posInf := by
  obtain ⟨hnfin, -, hnsign⟩ := toF64_count h1 h2
  rw [fDiv_inf_left (by decide) (not_nan_of_finite hnfin), not_inf_of_finite hnfin, hnsign, if_neg (by decide)]
  decide

theorem finiteNonneg_of_finitePos (h : finitePos x = true) : finiteNonneg x = true := by
  obtain ⟨hfin, -⟩ := Bool.and_eq_true_iff.1 h
  exact Bool.and_eq_true_iff.2 ⟨hfin, fLe_zero_iff.2 ⟨not_nan_of_finite hfin, .inr (fSign_of_finitePos h)⟩⟩

/-- The coefficient of a valid configuration is in `[0, 1]`, the functions at 1.0 and at infinity as the premises say (R149). -/
theorem stageCoef_unit (hc : ConfigValid c) (h1 : 1 ≤ n) (h2 : n ≤ 2 ^ 62)
    (hone : fDiv (fAdd one c.envTrunc) c.envTrunc = one → finiteNonneg (c.num.ln one) = true)
    (hinf : fDiv (fAdd one c.envTrunc) c.envTrunc = posInf →
      c.num.ln posInf = posInf ∧ inUnitInterval (c.num.exp (fNeg posInf)) = true) :
    inUnitInterval (stageCoef c n) = true := by
  rw [stageCoef]
  obtain h | h | ⟨hfin, hgt⟩ := envRatio_cases hc.envTrunc
  · obtain ⟨hq, hle⟩ := exponent_nonpos h1 h2 (hone h)
    rw [h]
    exact hc.num.expRange _ hq hle
  · obtain ⟨hln, hexp⟩ := hinf h
    rw [h, hln, exponent_inf h1 h2]
    exact hexp
  · obtain ⟨hq, hle⟩ := exponent_nonpos h1 h2 (finiteNonneg_of_finitePos (hc.num.lnPos _ hfin hgt))
    exact hc.num.expRange _ hq hle

/-- A level `>= 0` times a coefficient in `[0, 1]` is at most the level and still `>= 0`. -/
theorem fMul_unit_bounds (ha : fIsFinite a = true) (h0 : fLe 0 a = true) (hb : inUnitInterval b = true) :
    fLe 0 (fMul a b) = true ∧ fLe (fMul a b) a = true := by
  obtain ⟨hb0, hb1⟩ := Bool.and_eq_true_iff.1 hb
  have hbmag := fMag_le_of_unitInterval hb0 hb1
  have hbfin : fIsFinite b = true := finite_of_le hbmag (by decide)
  obtain ⟨-, hsa⟩ := fLe_zero_iff.1 h0
  obtain ⟨-, hsb⟩ := fLe_zero_iff.1 hb0
  have hmag : fMag (fMul a b) ≤ fMag a := by
    refine fMag_fMul_le ha hbfin (Nat.mul_le_mul_left _ ?_)
    rw [← magUnits_one]
    exact magUnits_le_iff.2 hbmag
  have hnan := not_nan_of_finite (finite_of_le hmag (fIsFinite_iff.1 ha))
  have hsign : fMag (fMul a b) = 0 ∨ fSign (fMul a b) = false := by
    rcases hsa with ha0 | hsa
    · exact .inl (fMag_fMul_zero ha hbfin (.inl ha0))
    rcases hsb with hb0 | hsb
    · exact .inl (fMag_fMul_zero ha hbfin (.inr hb0))
    · exact .inr (by rw [fSign_fMul hnan, hsa, hsb]; rfl)
  refine ⟨fLe_zero_iff.2 ⟨hnan, hsign⟩, fLe_iff.2 ⟨hnan, not_nan_of_finite ha, ?_⟩⟩
  have hka : fKey a = fMag a := by unfold fKey; rcases hsa with h | h <;> simp [h]
  have hkr : fKey (fMul a b) ≤ fMag (fMul a b) := by unfold fKey; split <;> omega
  rw [hka]
  exact hkr.trans (by exact_mod_cast hmag)

end release

end Sys2Proof.EnvelopeLaw

open Sys2Proof Sys2Proof.Machine Sys2Proof.Scope Sys2Proof.EnvelopeLaw

/-- Settles O44: ENV is `runEnv`, its stage and level spelled out along the selection. -/
theorem envRowCompletes : Obligations.EnvRowCompletes := by
  intro att dec rel sus s a d r e v coef near target
  have hrow : exec (.env att dec rel sus) s = .next (runEnv hw att dec rel sus s) := rfl
  have hlevel := stageLevel_stageOf hw sus v e a d r
  rw [hrow, runEnv_eq, env_env]
  unfold envStage
  rw [hlevel]
  rfl

/-- Settles O45: the clamp's three cases, and its middle one lies between its ends because truncation is monotone. -/
theorem stageCountClamped : Obligations.StageCountClamped := by
  intro sr ms x
  refine ⟨countOf_low, countOf_high, fun h1 h2 => ?_, one_le_countOf x, countOf_le x⟩
  have htrunc : stageCount sr ms = fTrunc x := countOf_mid h1 h2
  rw [htrunc]
  exact fTrunc_eq_floor (fLe_trans (by decide) h1)

/-- Settles O48: after idling the counter is 0, below every stage count, and the level is `+0.0`. -/
theorem enableStartsAttack : Obligations.EnableStartsAttack := by
  intro att dec rel sus s
  refine ⟨envIdle s, runEnv hw att dec rel sus (envIdle s), runEnv hw att dec rel sus s, rfl, rfl, rfl,
    envStage_idle hw sus att dec s, rfl, (by decide : elapsedNext 0 = 1), stageOf_ne_idle _ _ _ _ _ _⟩

/-- Settles O49: the coefficient is the exponential of a value that is not positive, so Release shrinks the level. -/
theorem releaseNeverRises : Obligations.ReleaseNeverRises := by
  intro c n v hc h1 h2 ratio
  exact ⟨envRatio_cases hc.envTrunc, fun hone hinf hv h0 => fMul_unit_bounds hv h0 (stageCoef_unit hc h1 h2 hone hinf)⟩
end

section
/-!
The Bandpass Filter of 43_filter: the clamped bandwidth (R127) and the impulse response of rule R135.
-/

namespace Sys2Proof.FilterBounds

open Sys2Proof.Machine Sys2Proof.Safety Sys2Proof.Scope Sys2Proof.Arithmetic Sys2Proof.Phase Sys2Proof.EnvelopeLaw

variable {a b : F64}

/-! ### The bandwidth (R126, R127) -/

theorem fLe_zero_of_sign (hn : fIsNaN a = false) (hs : fSign a = true) : fLe a 0 = true := fLe_to_zero_iff.2 ⟨hn, .inr hs⟩

theorem fInt_roundInt_nonpos {z : Bool} {n : Int} (h : n ≤ 0) : fInt (roundInt z n) ≤ 0 := by
  unfold roundInt
  split
  · simp [fInt, fMag_fMake]
  · apply fInt_nonpos
    rw [fSign_fMake _ (roundMag_lt_pow _ _), decide_eq_true_iff]
    omega

theorem fIsNaN_roundInt (z : Bool) (n : Int) : fIsNaN (roundInt z n) = false := by
  unfold roundInt
  split
  · cases z <;> decide
  · exact fIsNaN_make_roundMag _ _ _

/-- The key of an infinity is at an end of the finite ones. -/
theorem fKey_of_inf (h : fIsInf a = true) : fKey a = if fSign a then -(infMag : Int) else infMag := by
  rw [fKey, fMag_of_inf h]

theorem fKey_of_finite (h : fIsFinite a = true) : -(infMag : Int) < fKey a ∧ fKey a < infMag := by
  have hmag := fIsFinite_iff.1 h
  unfold fKey
  split <;> omega

/-- The difference of an ordered pair, the greater taken from the lesser, is a NaN or not positive. -/
theorem fSub_nonpos (h : fLe a b = true) : fIsNaN (fSub a b) = true ∨ fLe (fSub a b) 0 = true := by
  obtain ⟨na, nb, hkey⟩ := fLe_iff.1 h
  rcases class_cases a with ha | ha | ha
  · rw [na] at ha; cases ha
  · rcases class_cases b with hb | hb | hb
    · rw [nb] at hb; cases hb
    · obtain ⟨-, -, hne, heq⟩ := inf_inf ha hb
      by_cases hs : fSign a = fSign b
      · exact .inl (heq hs).1
      · right
        rw [(hne hs).2]
        refine fLe_zero_of_sign na ?_
        rw [fKey_of_inf ha, fKey_of_inf hb] at hkey
        cases hsa : fSign a <;> cases hsb : fSign b <;> simp_all [infMag]
    · obtain ⟨-, hsub, -⟩ := inf_finite ha hb
      right
      rw [hsub]
      refine fLe_zero_of_sign na ?_
      have := (fKey_of_finite hb).2
      rw [fKey_of_inf ha] at hkey
      cases hsa : fSign a
      · simp only [hsa, Bool.false_eq_true, if_false] at hkey; omega
      · rfl
  · rcases class_cases b with hb | hb | hb
    · rw [nb] at hb; cases hb
    · obtain ⟨-, -, -, hsub, -⟩ := inf_finite hb ha
      right
      rw [hsub]
      refine fLe_zero_of_sign ((fIsNaN_fNeg b).trans nb) ?_
      have := (fKey_of_finite ha).1
      rw [fKey_of_inf hb] at hkey
      rw [fSign_fNeg]
      cases hsb : fSign b
      · rfl
      · simp only [hsb, if_true] at hkey; omega
    · right
      rw [fSub_finite ha hb]
      have hint := fInt_roundInt_nonpos (z := fSign a && !fSign b) (sub_nonpos.2 (fInt_le_iff.2 hkey))
      exact fLe_iff.2 ⟨fIsNaN_roundInt _ _, by decide, fInt_le_iff.1 (hint.trans_eq fInt_zero.symm)⟩

section bandwidth
variable {c : Config} {lo hi : F64}

theorem bandwidth_of_ge (h : fGe (fSub hi lo) c.bwEps = true) : bandwidth c lo hi = fSub hi lo := if_pos h

theorem bandwidth_of_not_ge (h : fGe (fSub hi lo) c.bwEps = false) : bandwidth c lo hi = c.bwEps :=
  if_neg (by rw [h]; decide)

theorem bandwidth_ge (heps : finitePos c.bwEps = true) : fGe (bandwidth c lo hi) c.bwEps = true := by
  obtain ⟨-, hpos⟩ := Bool.and_eq_true_iff.1 heps
  obtain ⟨-, hnan, -⟩ := fLt_iff.1 hpos
  cases h : fGe (fSub hi lo) c.bwEps
  · rw [bandwidth_of_not_ge h]
    exact fLe_iff.2 ⟨hnan, hnan, le_rfl⟩
  · rw [bandwidth_of_ge h, h]

theorem pos_of_ge (heps : finitePos b = true) (h : fGe a b = true) : fGt a 0 = true := by
  obtain ⟨-, hpos⟩ := Bool.and_eq_true_iff.1 heps
  obtain ⟨hzero, -, hlt⟩ := fLt_iff.1 hpos
  obtain ⟨-, hnan, hle⟩ := fLe_iff.1 h
  exact fLt_iff.2 ⟨hzero, hnan, hlt.trans_le hle⟩

/-- A degenerate or unordered pair of cut-offs has no difference of at least `BW_EPS`. -/
theorem not_ge_of_degenerate (heps : finitePos c.bwEps = true)
    (h : fLe hi lo = true ∨ fIsNaN hi = true ∨ fIsNaN lo = true) : fGe (fSub hi lo) c.bwEps = false := by
  have hdiff : fIsNaN (fSub hi lo) = true ∨ fLe (fSub hi lo) 0 = true :=
    h.elim fSub_nonpos fun hn => .inl (fSub_nan hn)
  rw [← Bool.not_eq_true]
  intro hge
  obtain ⟨-, hnan, hpos⟩ := fLt_iff.1 (pos_of_ge heps hge)
  rcases hdiff with hn | hle
  · rw [hnan] at hn; cases hn
  · exact absurd (fLe_iff.1 hle).2.2 (not_le.2 hpos)

end bandwidth

/-! ### The impulse response (R135) -/

section response
variable (lo hi : F64)

/-- FILT fed a value and `n` zeros completes, and the last of the `n + 1` outputs is the mixed signal it leaves. -/
theorem feedFilter_response (n : Nat) (x : F64) (s : State) :
    ∃ t, feedFilter lo hi (x :: List.replicate n 0) s = .next t ∧
      (impulseResponse hw (filtCoeffs hw s.sampleRate lo hi) (n + 1) x s.filt).getLast? = some t.nodes.m := by
  induction n generalizing x s with
  | zero => exact ⟨_, feedFilter_cons lo hi x [] s, rfl⟩
  | succ n ih =>
    obtain ⟨t, hfeed, hlast⟩ := ih 0 (runFilt hw lo hi { s with nodes := { s.nodes with m := x } })
    refine ⟨t, ?_, ?_⟩
    · rw [feedFilter_cons, List.replicate_succ, hfeed]
    · rw [← hlast, impulseResponse, impulseResponse, List.getLast?_cons_cons]
      rfl

theorem abs_valueOf_fAbs (y : F64) : valueOf (fAbs y) = |valueOf y| := by
  rw [← abs_of_nonneg (valueOf_nonneg (fSign_fAbs y)), abs_valueOf, abs_valueOf, fMag_fAbs]

/-- A value within ten, as a rational. -/
theorem abs_le_ten {y : F64} (h : withinTen y = true) : fIsFinite y = true ∧ |valueOf y| ≤ 10 := by
  have hten : valueOf stabBound = 10 := by decide +kernel
  obtain ⟨-, -, hkey⟩ := fLe_iff.1 h
  refine ⟨finite_of_withinTen h, ?_⟩
  rw [← abs_valueOf_fAbs, ← hten]
  exact not_lt.1 fun hlt => absurd (valueOf_lt_iff.1 hlt) (not_lt.2 hkey)

/-- A valid configuration meets the bound wherever some constants do over the same functions (entry 21). -/
theorem impulseBounded_of_some {c : Config} {gain a0 eps : F64} (hc : ConfigValid c) (hf : c.filtCoef = bandpassCoef)
    (h : impulseBounded { c with filtGain := gain, filtA0 := a0, bwEps := eps } = true) : impulseBounded c = true := by
  have hcalm : impulseBounded (calmed c) = true :=
    impulseBounded_calmed_of (c := { c with filtGain := gain, filtA0 := a0, bwEps := eps }) hf hc.num h
  have hstable := hc.stable
  rw [filterStable, hcalm] at hstable
  exact hstable

theorem withinTen_of_bounded {c : Config} (h : impulseBounded c = true) :
    ∀ y ∈ impulseResponse c (filtCoeffs c stabRate stabLow stabHigh) 10000 one { x1 := 0, x2 := 0, y1 := 0, y2 := 0 },
      withinTen y = true := by
  unfold impulseBounded at h
  exact List.all_eq_true.1 h

end response

end Sys2Proof.FilterBounds

open Sys2Proof Sys2Proof.Machine Sys2Proof.FilterBounds

/-- Settles O42: the clamp takes the difference exactly where it is at least `BW_EPS`, which no degenerate pair's is. -/
theorem bandwidthNeverZero : Obligations.BandwidthNeverZero := by
  intro lo hi s
  refine ⟨⟨runFilt hw lo hi s, rfl, rfl⟩, hw_bwEps, fun c heps => ?_⟩
  have hge := bandwidth_ge (lo := lo) (hi := hi) heps
  exact ⟨hge, pos_of_ge heps hge, bandwidth_of_not_ge, fun h => bandwidth_of_not_ge (not_ge_of_degenerate heps h),
    bandwidth_of_ge⟩

/-- Settles O43: feeding FILT is the recurrence of `impulseResponse`, and rule R135's constraint bounds it wherever the tangent
or some constants allow. -/
theorem impulseResponseBounded : Obligations.ImpulseResponseBounded := by
  unfold Obligations.ImpulseResponseBounded
  intro lo hi rate cleared
  refine ⟨fun n s hrate hfilt => ?_, fun c gain a0 eps hc hf h y hy => ?_⟩
  · have hresponse := feedFilter_response lo hi n one s
    rw [hrate, hfilt] at hresponse
    exact hresponse
  · have hbounded : impulseBounded c = true := h.elim (impulseBounded_of_tan hf hc.stable) (impulseBounded_of_some hc hf)
    exact abs_le_ten (withinTen_of_bounded hbounded y hy)
end

section
/-!
The machine's invariant (R25, R29, R32, R156, R183, R220): part by part over the reset and the body, then over every step.
-/

namespace Sys2Proof.Invariants

open Sys2Proof.Machine Sys2Proof.Safety Sys2Proof.Arithmetic Sys2Proof.Tremolo Sys2Proof.HostCommands

variable {s t : State} {sr : F64} {p : Snapshot}

/-! ### INIT and RESET (R44, R195) -/

/-- A rate INIT and RESET accept is a positive finite one. -/
theorem positive_finite_of_accepted (h : badSampleRate sr = false) : fGt sr 0 = true ∧ fIsFinite sr = true := by
  obtain ⟨hpos, hne⟩ := badSampleRate_eq_false_iff.1 h
  obtain ⟨-, hnan, hkey⟩ := fLt_iff.1 hpos
  refine ⟨hpos, ?_⟩
  rcases class_cases sr with hc | hc | hc
  · rw [hnan] at hc; cases hc
  · refine absurd (eq_of_inf_of_sign hc (by decide) ?_) hne
    rw [show fKey 0 = 0 from fKey_zero, fKey] at hkey
    cases hs : fSign sr
    · decide
    · rw [if_pos hs] at hkey; omega
  · exact hc

theorem registersFinite_resetRegs (h : fIsFinite sr = true) : registersFinite (resetRegs sr s) = true := by
  simp [registersFinite, f64Registers, h]

theorem idle_zero : ((Stage.idle = .idle ↔ (0 : BitVec 64) = 0) ∧ (Stage.idle = .idle → (0 : F64) = 0)) := by decide

theorem inv_initWith (hs : Inv s) (h : initWith sr s = .next t) : Inv t := by
  obtain ⟨-, hinit⟩ | ⟨hgood, hinit⟩ := initWith_cases s sr <;> cases hinit.symm.trans h
  obtain ⟨hpos, hfin⟩ := positive_finite_of_accepted hgood
  obtain ⟨-, -, -, hout⟩ := hs
  exact ⟨hw_tremPeriod_pos, idle_zero, fun _ => ⟨registersFinite_resetRegs (s := s) hfin, hpos⟩, hout⟩

/-! ### PROC (R186) -/

theorem countInPeriod_frameBody (h : countInPeriod s) : countInPeriod (frameBody hw p s) := by
  unfold countInPeriod
  rw [frameBody_trem]
  split
  · exact toNat_tremCount_lt hw hw_tremPeriod_pos hw_tremPeriod_le s.trem.count
  · exact h

/-- An enabled envelope is not idle and has counted; a disabled one is idle at zero (R155, R156, R158). -/
theorem idleMeansZero_frameBody : idleMeansZero (frameBody hw p s) := by
  unfold idleMeansZero
  rw [frameBody_env]
  split
  · rw [env_env]
    have hrun : envStage hw p.attackMs p.decayMs p.sustain s ≠ .idle := stageOf_ne_idle _ _ _ _ _ _
    exact ⟨iff_of_false hrun (elapsedNext_ne_zero _), fun hidle => absurd hidle hrun⟩
  · exact idle_zero

/-- A PROC completes past its check, which found every register and the output finite (R188, R220). -/
theorem inv_execProc (hs : Inv s) (h : execProc p s = .next t) : Inv t := by
  obtain ⟨-, hproc⟩ | ⟨-, hproc⟩ | ⟨hon, hproc, hregs, hfin⟩ := execProc_cases p s <;> cases hproc.symm.trans h
  obtain ⟨hcount, -, hrunning, -⟩ := hs
  refine ⟨countInPeriod_frameBody hcount, idleMeansZero_frameBody, fun _ => ⟨hregs, ?_⟩, .inr ⟨_, hfin, frameBody_out hw p s⟩⟩
  rw [respond_sampleRate, frameBody_sampleRate]
  exact (hrunning hon).2

/-! ### The power-on state and every step -/

theorem inv_reset : Inv State.reset :=
  ⟨hw_tremPeriod_pos, idle_zero, fun h => absurd h (by decide), .inl rfl⟩

/-- The port and the response are no part of the invariant. -/
theorem inv_withPort (hs : Inv s) (frames : List Frame) : Inv { s with port := frames } := hs

theorem inv_dropRefused (hs : Inv s) : Inv (dropRefused s) := hs

theorem inv_step (hs : Inv s) (h : step s = .next t) : Inv t := by
  obtain ⟨-, rfl⟩ | ⟨f, rest, i, -, hok, hexec⟩ := step_next h
  · exact hs
  · have htaken := inv_withPort hs rest
    obtain rfl | rfl | ⟨w1, w2, wl, rfl⟩ := decode_ok_cases hok
    · exact inv_initWith htaken hexec
    · exact inv_initWith htaken hexec
    · exact inv_execProc htaken hexec

theorem inv_hostStep (hs : Inv s) (h : hostStep s = some t) : Inv t := by
  unfold hostStep at h
  split at h
  · next u hstep => cases h; exact inv_step hs hstep
  · cases h; exact inv_dropRefused hs
  · cases h

end Sys2Proof.Invariants

open Sys2Proof Sys2Proof.Machine Sys2Proof.Safety Sys2Proof.Phase Sys2Proof.Invariants

/-- Settles O50: at power-on the counters, levels and phases are zero, the core is uninitialised and no output is there. -/
theorem powerOnMeetsInvariant : Obligations.PowerOnMeetsInvariant :=
  ⟨inv_reset, phaseInRange_zero, phaseInRange_zero, phaseInRange_zero⟩

/-- Settles O51: an idle step changes nothing, INIT and RESET write the reset registers at an accepted rate, and a PROC that
completes has passed the non-finite check. -/
theorem stepKeepsInvariant : Obligations.StepKeepsInvariant := fun _ _ => inv_step

/-- Settles O52: a refusal drops the frame, and the invariant reads neither the port nor the response. -/
theorem hostStepKeepsInvariant : Obligations.HostStepKeepsInvariant := fun _ _ => inv_hostStep
end
